-- ==== Sys2Proof/Word.lean ====
section
/-! DEFINITION. The word types of P384CORE (spec/10_state.md R21, spec/00_scope.md R15).

A `Word` is a u384, the contents of one operand word. A `Limb` is a u64, one sixth of a word and the
width of one bus access. Word and limb indexes are bounded numbers, used as they are (R72).
-/

namespace Sys2Proof

/-- A u384, the contents of one operand word (R15, R21). -/
abbrev Word := BitVec 384

/-- A u64: one limb of a word, and the data of one bus access (R15, R50). -/
abbrev Limb := BitVec 64

/-- The index k of an operand word W0..W63 (R21, R72). -/
abbrev WordIdx := Fin 64

/-- The index j of a stored limb 0..5 of a word (R21). -/
abbrev LimbIdx := Fin 6

/-- The OP field of a command word (R71). -/
abbrev Opcode := BitVec 6

end Sys2Proof
end

