-- ==== Sys2Proof/Config.lean ====
section
/-! DEFINITION. What is fixed for the block and never changes: the constant store (spec/10_state.md
R33, values spec/00_scope.md R13), the two public chains (spec/42_field_inversion.md R160,
spec/44_scalar_inversion.md R200), the ID value (R27), the open parameters BASE and LAT (R12), and
the free values, opaque constants for what the spec leaves without a value.
-/

namespace Sys2Proof

namespace Config

/-- R11: the Montgomery radix R = 2^384, one more than the largest u384. -/
def R : Nat := 0x1000000000000000000000000000000000000000000000000000000000000000000000000000000000000000000000000

/-- R13: the field prime Q = 2^384 - 2^128 - 2^96 + 2^32 - 1. -/
def Q : Nat := 0xfffffffffffffffffffffffffffffffffffffffffffffffffffffffffffffffeffffffff0000000000000000ffffffff

/-- R13: the group order N. -/
def N : Nat := 0xffffffffffffffffffffffffffffffffffffffffffffffffc7634d81f4372ddf581a0db248b0a77aecec196accc52973

/-- R13: HALF_Q = (Q+1)/2. -/
def HALF_Q : Nat := 0x7fffffffffffffffffffffffffffffffffffffffffffffffffffffffffffffff7fffffff800000000000000080000000

/-- R13: RR_N = R^2 mod N. -/
def RR_N : Nat := 0xc84ee012b39bf213fb05b7a28266895d40d49174aab1cc5bc3e483afcb82947ff3d81e5df1aa4192d319b2419b409a9

/-- R13: N0_Q = -Q^-1 mod 2^64. Only the reference datapath of R131 uses it (R33). -/
def N0_Q : Nat := 0x0000000100000001

/-- R13: N0_N = -N^-1 mod 2^64. Only the reference datapath of R131 uses it (R33). -/
def N0_N : Nat := 0x6ed46089e88fdc45

/-- R13, "not stored by the block": R mod Q, which is Mont_Q(1). -/
def R_MOD_Q : Nat := 0x100000000ffffffffffffffff00000001

/-- R13, "not stored by the block": R^2 mod Q, the Host's constant for R143. -/
def RR_Q : Nat := 0x10000000200000000fffffffe000000000000000200000000fffffffe00000001

/-- R13, "not stored by the block": R mod N, which is Mont_N(1). -/
def R_MOD_N : Nat := 0x389cb27e0bc8d220a7e5f24db74f58851313e695333ad68d

/-- R15, R17: inv_Q(R), the integer y in [1, Q) with R·y ≡ 1 (mod Q). The digits are those of
`invR_Q` in spec/95_test_vectors.md, and `Sys2Proof.Laws.rInv_spec` checks them. -/
def RINV_Q : Nat := 0x14000000140000000c00000002fffffffcfffffffafffffffbfffffffdffffffebffffffd8ffffffe100000006

/-- R15, R17: inv_N(R), the integer y in [1, N) with R·y ≡ 1 (mod N). The digits are those of
`invR_N` in spec/95_test_vectors.md, and `Sys2Proof.Laws.rInv_spec` checks them. -/
def RINV_N : Nat := 0x355ca87de39dbb1fa150206ce4f194ac78d4ba5866d61787e29f9fb70a9da219d26d4aeba664edb0610ae855f2c0d911

/-- R27: the whole ID register. -/
def ID : Limb := 0x0040400134383350#64

/-- R27: the fields of ID. MAGIC is "P384" with byte 0 = 'P', VERSION is P384CORE-CMD version 1 (R2),
LIMB_BITS is 64 (R10) and OWORDS is 64 (R21). -/
def ID_MAGIC : BitVec 32 := 0x34383350#32
def ID_VERSION : BitVec 8 := 0x01#8
def ID_LIMB_BITS : BitVec 8 := 0x40#8
def ID_OWORDS : BitVec 8 := 0x40#8

/-- R50: the window is 8 KiB. -/
def windowSize : Nat := 0x2000

/-- R12: the platform's choice of window, OPEN. Opaque: no proof sees its value. -/
opaque baseIndex : Nat

/-- R12: BASE, the byte address of the window, 8 KiB-aligned by construction. -/
def base : Nat := windowSize * baseIndex

/-- R12, R283: LAT(op, imm) less 1, OPEN. It takes the opcode and IMM8 and nothing else (R102). -/
opaque latPred : Opcode → BitVec 8 → Nat

/-- R12, R283: LAT(op, imm), an integer at least 1. No rule of the model depends on it. -/
def lat (op : Opcode) (imm : BitVec 8) : Nat := latPred op imm + 1

/-- FREE VALUE (R100, R179; U1, U22): what the hardware writes to the destination when an operand is
out of range and pdbg = 0. The argument is the counter `freeCount` of State. -/
opaque undefinedResult : Nat → Word

/-- FREE VALUE (R271, R272; U8): what operand word k holds after a power-on reset in mid-run. The
first argument is the counter `freeCount` of State. -/
opaque powerOnWord : Nat → WordIdx → Word

end Config

/-- The two moduli of the Montgomery engine (R17, R130). -/
inductive Modulus where
  | field
  | scalar
deriving DecidableEq, Repr

/-- Q for field operations and N for scalar operations (R33). -/
def Modulus.value : Modulus → Nat
  | .field => Config.Q
  | .scalar => Config.N

/-- inv_m(R) of R17. -/
def Modulus.rInv : Modulus → Nat
  | .field => Config.RINV_Q
  | .scalar => Config.RINV_N

/-- The engine's constant n0 (R130). It changes no result. -/
def Modulus.n0 : Modulus → Nat
  | .field => Config.N0_Q
  | .scalar => Config.N0_N

/-- One step SM(x, k, y) of FCHAIN (R160). `x` and `y` are the numbers of earlier steps, step 0 being
the copy of the input. -/
structure ChainStep where
  x : Nat
  k : Nat
  y : Nat
deriving DecidableEq, Repr

/-- R160: FCHAIN, steps 1 to 14 of the table (step 0, the copy x1 = a, is the input). -/
def Config.FCHAIN : List ChainStep :=
  [⟨0, 1, 0⟩,     -- 1: x2
   ⟨1, 1, 0⟩,     -- 2: x3
   ⟨2, 3, 2⟩,     -- 3: x6
   ⟨3, 6, 3⟩,     -- 4: x12
   ⟨4, 3, 2⟩,     -- 5: x15
   ⟨5, 15, 5⟩,    -- 6: x30
   ⟨6, 2, 1⟩] ++  -- 7: x32
  [⟨6, 30, 6⟩,    -- 8: x60
   ⟨8, 60, 8⟩,    -- 9: x120
   ⟨9, 120, 9⟩,   -- 10: x240
   ⟨10, 15, 5⟩,   -- 11: x255
   ⟨11, 33, 7⟩,   -- 12: acc
   ⟨12, 94, 6⟩,   -- 13: acc
   ⟨13, 2, 0⟩]    -- 14: acc

/-- One window of SCHAIN (R200): "a small record type {squarings: u8, digit_index: u8}". -/
structure Window where
  squarings : Nat
  digitIndex : Nat
deriving DecidableEq, Repr

/-- R200: SCHAIN, 95 windows, window 0 first. Window 0's squaring count is not applied. -/
def Config.SCHAIN : List Window :=
  [⟨0, 4⟩, ⟨4, 4⟩, ⟨4, 4⟩, ⟨4, 4⟩, ⟨4, 4⟩, ⟨4, 4⟩, ⟨4, 4⟩, ⟨4, 4⟩, ⟨4, 4⟩, ⟨4, 4⟩, ⟨4, 4⟩, ⟨4, 4⟩] ++
  [⟨4, 4⟩, ⟨4, 4⟩, ⟨4, 4⟩, ⟨4, 4⟩, ⟨4, 4⟩, ⟨4, 4⟩, ⟨4, 4⟩, ⟨4, 4⟩, ⟨4, 4⟩, ⟨4, 4⟩, ⟨4, 4⟩, ⟨4, 4⟩] ++
  [⟨4, 4⟩, ⟨4, 4⟩, ⟨4, 4⟩, ⟨4, 4⟩, ⟨4, 4⟩, ⟨4, 4⟩, ⟨4, 4⟩, ⟨4, 4⟩, ⟨4, 4⟩, ⟨4, 4⟩, ⟨4, 4⟩, ⟨4, 4⟩] ++
  [⟨4, 4⟩, ⟨4, 4⟩, ⟨4, 4⟩, ⟨4, 4⟩, ⟨4, 4⟩, ⟨4, 4⟩, ⟨4, 4⟩, ⟨4, 4⟩, ⟨4, 4⟩, ⟨4, 4⟩, ⟨4, 4⟩, ⟨4, 4⟩] ++
  [⟨2, 1⟩, ⟨6, 3⟩, ⟨3, 1⟩, ⟨5, 1⟩, ⟨2, 0⟩, ⟨4, 1⟩, ⟨3, 1⟩, ⟨10, 4⟩, ⟨3, 2⟩, ⟨6, 1⟩, ⟨4, 3⟩, ⟨5, 2⟩] ++
  [⟨3, 2⟩, ⟨2, 1⟩, ⟨5, 4⟩, ⟨3, 2⟩, ⟨3, 1⟩, ⟨8, 1⟩, ⟨2, 0⟩, ⟨7, 1⟩, ⟨3, 1⟩, ⟨3, 1⟩, ⟨3, 0⟩, ⟨3, 0⟩] ++
  [⟨3, 0⟩, ⟨6, 2⟩, ⟨1, 0⟩, ⟨7, 2⟩, ⟨5, 3⟩, ⟨5, 4⟩, ⟨4, 2⟩, ⟨2, 1⟩, ⟨3, 1⟩, ⟨5, 3⟩, ⟨3, 1⟩, ⟨7, 1⟩] ++
  [⟨5, 2⟩, ⟨3, 2⟩, ⟨4, 2⟩, ⟨1, 0⟩, ⟨4, 1⟩, ⟨4, 1⟩, ⟨6, 2⟩, ⟨5, 2⟩, ⟨5, 2⟩, ⟨2, 1⟩, ⟨4, 0⟩]

end Sys2Proof
end

