-- ==== Sys2Proof/Syntax.lean ====
section
/-! DEFINITION. The 16 commands of P384CORE-CMD version 1, one constructor per row of
spec/opcode_table.json (spec/30_encoding.md R74, R82).

Operands stand in the order of the assembler syntax of R82: destination, first source, second
source, count. Fields that the opcode does not use (R75) are no operands.
-/

namespace Sys2Proof

/-- One command (R74). `rd`, `rs1` and `rs2` are word indexes and `k` is the squaring count (R72).
For `psel`, `rd` is the first of three destinations, `rs1` the table base and `rs2` the index word
(R73). -/
inductive Instr where
  | fadd (rd rs1 rs2 : WordIdx)
  | fsub (rd rs1 rs2 : WordIdx)
  | fneg (rd rs1 : WordIdx)
  | fhalf (rd rs1 : WordIdx)
  | fdbl (rd rs1 : WordIdx)
  | ftpl (rd rs1 : WordIdx)
  | fmul (rd rs1 rs2 : WordIdx)
  | fsqr (rd rs1 : WordIdx)
  | fsqrmul (rd rs1 rs2 : WordIdx) (k : BitVec 8)
  | finv (rd rs1 : WordIdx)
  | smul (rd rs1 rs2 : WordIdx)
  | ssqr (rd rs1 : WordIdx)
  | stomont (rd rs1 : WordIdx)
  | ssqrmul (rd rs1 rs2 : WordIdx) (k : BitVec 8)
  | sinv (rd rs1 : WordIdx)
  | psel (rd rs1 rs2 : WordIdx)
deriving DecidableEq, Repr

end Sys2Proof
end

