-- ==== Sys2Proof/WellFormed.lean ====
section
/-! DEFINITION. Which commands the encoding admits (spec/30_encoding.md R72, R73, R79, R80).

A term that fails a check is no command of the hardware: its encoding is rejected when it is
submitted (BAD_IMM or RANGE), and it never reaches the Core.
-/

namespace Sys2Proof

/-- R79: the squaring count of FSQRMUL and SSQRMUL is 1..255. -/
def countOk (k : BitVec 8) : Bool := k != 0#8

/-- R80: the 48 table words W[rs1]..W[rs1+47] end at or before W63. -/
def tableFits (rs1 : WordIdx) : Bool := decide (rs1.val ≤ 16)

/-- R80: the three result words W[rd]..W[rd+2] end at or before W63. -/
def resultFits (rd : WordIdx) : Bool := decide (rd.val ≤ 61)

/-- The command passes every operand check of R79 and R80. -/
def Instr.wf : Instr → Bool
  | .fadd _ _ _ => true
  | .fsub _ _ _ => true
  | .fneg _ _ => true
  | .fhalf _ _ => true
  | .fdbl _ _ => true
  | .ftpl _ _ => true
  | .fmul _ _ _ => true
  | .fsqr _ _ => true
  | .fsqrmul _ _ _ k => countOk k
  | .finv _ _ => true
  | .smul _ _ _ => true
  | .ssqr _ _ => true
  | .stomont _ _ => true
  | .ssqrmul _ _ _ k => countOk k
  | .sinv _ _ => true
  | .psel rd rs1 _ => tableFits rs1 && resultFits rd

end Sys2Proof
end

