-- ==== Sys2Proof/Decode.lean ====
section
/-! DEFINITION. The command encoding (spec/30_encoding.md): the field layout of R71, the opcode map
of R74, the must-be-zero masks of R75, the decoder of R81, the encoder of R84, and the host's
reading of a table word.

The decoder is total on every 64-bit value a Host can write to CMD, and it rejects by name, in the
order of R81 (R243): ILLEGAL_OP, RESERVED_FIELD, BAD_IMM, RANGE.
-/

namespace Sys2Proof

/-- Why the decoder rejects a CMD value (R81, and codes 1 to 4 of R242). -/
inductive DecodeError where
  /-- R76: OP is not in the opcode map. -/
  | illegalOp
  /-- R78: a must-be-zero field, or v[63:32], is nonzero. -/
  | reservedField
  /-- R79: FSQRMUL or SSQRMUL with IMM8 = 0. -/
  | badImm
  /-- R80: PSEL with RS1 > 16 or RD > 61. -/
  | range
deriving DecidableEq, Repr

/-! ### The opcode map of R74 -/

def Op.fadd : Opcode := 0x01#6
def Op.fsub : Opcode := 0x02#6
def Op.fneg : Opcode := 0x03#6
def Op.fhalf : Opcode := 0x04#6
def Op.fdbl : Opcode := 0x05#6
def Op.ftpl : Opcode := 0x06#6
def Op.fmul : Opcode := 0x08#6
def Op.fsqr : Opcode := 0x09#6
def Op.fsqrmul : Opcode := 0x0A#6
def Op.finv : Opcode := 0x0B#6
def Op.smul : Opcode := 0x10#6
def Op.ssqr : Opcode := 0x11#6
def Op.stomont : Opcode := 0x12#6
def Op.ssqrmul : Opcode := 0x13#6
def Op.sinv : Opcode := 0x14#6
def Op.psel : Opcode := 0x20#6

/-- The opcode of a command (R74). -/
def Instr.opcode : Instr → Opcode
  | .fadd _ _ _ => Op.fadd
  | .fsub _ _ _ => Op.fsub
  | .fneg _ _ => Op.fneg
  | .fhalf _ _ => Op.fhalf
  | .fdbl _ _ => Op.fdbl
  | .ftpl _ _ => Op.ftpl
  | .fmul _ _ _ => Op.fmul
  | .fsqr _ _ => Op.fsqr
  | .fsqrmul _ _ _ _ => Op.fsqrmul
  | .finv _ _ => Op.finv
  | .smul _ _ _ => Op.smul
  | .ssqr _ _ => Op.ssqr
  | .stomont _ _ => Op.stomont
  | .ssqrmul _ _ _ _ => Op.ssqrmul
  | .sinv _ _ => Op.sinv
  | .psel _ _ _ => Op.psel

/-! ### Fields of a command word (R71) -/

/-- c[5:0]. -/
def opField (c : BitVec 32) : Opcode := c.extractLsb' 0 6

/-- The word index in bits lo+5..lo, zero-extended and used as it is (R72). -/
def idxField (lo : Nat) (c : BitVec 32) : WordIdx := (c.extractLsb' lo 6).toFin

/-- c[11:6]. -/
def rdField (c : BitVec 32) : WordIdx := idxField 6 c

/-- c[17:12]. -/
def rs1Field (c : BitVec 32) : WordIdx := idxField 12 c

/-- c[23:18]. -/
def rs2Field (c : BitVec 32) : WordIdx := idxField 18 c

/-- c[31:24]. -/
def immField (c : BitVec 32) : BitVec 8 := c.extractLsb' 24 8

/-- The opcode map of R74 read backwards: the command that OP selects, with the operands it uses.
None for the OP values that R76 lists as illegal. -/
def assemble (op : Opcode) (rd rs1 rs2 : WordIdx) (k : BitVec 8) : Option Instr :=
  match op.toNat with
  | 0x01 => some (.fadd rd rs1 rs2)
  | 0x02 => some (.fsub rd rs1 rs2)
  | 0x03 => some (.fneg rd rs1)
  | 0x04 => some (.fhalf rd rs1)
  | 0x05 => some (.fdbl rd rs1)
  | 0x06 => some (.ftpl rd rs1)
  | 0x08 => some (.fmul rd rs1 rs2)
  | 0x09 => some (.fsqr rd rs1)
  | 0x0A => some (.fsqrmul rd rs1 rs2 k)
  | 0x0B => some (.finv rd rs1)
  | 0x10 => some (.smul rd rs1 rs2)
  | 0x11 => some (.ssqr rd rs1)
  | 0x12 => some (.stomont rd rs1)
  | 0x13 => some (.ssqrmul rd rs1 rs2 k)
  | 0x14 => some (.sinv rd rs1)
  | 0x20 => some (.psel rd rs1 rs2)
  | _ => none

/-- The bits of the command word that must be zero (R75, R81): RS2 and IMM8 for the one-source
commands, IMM8 for the two-source commands without a count, none for FSQRMUL and SSQRMUL. -/
def Instr.zeroMask : Instr → BitVec 32
  | .fadd _ _ _ => 0xFF000000#32
  | .fsub _ _ _ => 0xFF000000#32
  | .fneg _ _ => 0xFFFC0000#32
  | .fhalf _ _ => 0xFFFC0000#32
  | .fdbl _ _ => 0xFFFC0000#32
  | .ftpl _ _ => 0xFFFC0000#32
  | .fmul _ _ _ => 0xFF000000#32
  | .fsqr _ _ => 0xFFFC0000#32
  | .fsqrmul _ _ _ _ => 0#32
  | .finv _ _ => 0xFFFC0000#32
  | .smul _ _ _ => 0xFF000000#32
  | .ssqr _ _ => 0xFFFC0000#32
  | .stomont _ _ => 0xFFFC0000#32
  | .ssqrmul _ _ _ _ => 0#32
  | .sinv _ _ => 0xFFFC0000#32
  | .psel _ _ _ => 0xFF000000#32

/-- The mask of the command's row in spec/opcode_table.json: OP and the must-be-zero bits (R75). -/
def Instr.rowMask (i : Instr) : BitVec 32 := 0x3F#32 ||| i.zeroMask

/-- The match value of the command's row in spec/opcode_table.json: OP, every other bit zero (R75). -/
def Instr.rowMatch (i : Instr) : BitVec 32 := i.opcode.setWidth 32

/-- The operand check that an assembled command fails, by the name R81 gives it. -/
def operandError : Instr → Option DecodeError
  | .fadd _ _ _ => none
  | .fsub _ _ _ => none
  | .fneg _ _ => none
  | .fhalf _ _ => none
  | .fdbl _ _ => none
  | .ftpl _ _ => none
  | .fmul _ _ _ => none
  | .fsqr _ _ => none
  | .fsqrmul _ _ _ k => if countOk k then none else some .badImm
  | .finv _ _ => none
  | .smul _ _ _ => none
  | .ssqr _ _ => none
  | .stomont _ _ => none
  | .ssqrmul _ _ _ k => if countOk k then none else some .badImm
  | .sinv _ _ => none
  | .psel rd rs1 _ => if tableFits rs1 && resultFits rd then none else some .range

/-- c = v[31:0], the command word of a CMD value (R70). -/
def cmdWord (v : BitVec 64) : BitVec 32 := v.extractLsb' 0 32

/-- v[63:32], which must be zero (R70, R78). -/
def cmdHigh (v : BitVec 64) : BitVec 32 := v.extractLsb' 32 32

/-- R81: the decoder. The checks run in the order written there. -/
def decode (v : BitVec 64) : Except DecodeError Instr :=
  let c := cmdWord v
  match assemble (opField c) (rdField c) (rs1Field c) (rs2Field c) (immField c) with
  | none => .error .illegalOp
  | some i =>
    if cmdHigh v != 0#32 || (c &&& i.zeroMask) != 0#32 then .error .reservedField
    else
      match operandError i with
      | some e => .error e
      | none => .ok i

/-! ### The encoder of R84 -/

/-- R84: enc(op, rd, rs1, rs2, k) = op | (rd << 6) | (rs1 << 12) | (rs2 << 18) | (k << 24). -/
def enc (op : Opcode) (rd rs1 rs2 : WordIdx) (k : BitVec 8) : BitVec 32 :=
  op.setWidth 32 ||| (BitVec.ofNat 32 rd.val <<< 6) ||| (BitVec.ofNat 32 rs1.val <<< 12) |||
    (BitVec.ofNat 32 rs2.val <<< 18) ||| (k.setWidth 32 <<< 24)

/-- The command word of a command; fields absent in the syntax are 0 (R84). -/
def encode : Instr → BitVec 32
  | .fadd rd rs1 rs2 => enc Op.fadd rd rs1 rs2 0#8
  | .fsub rd rs1 rs2 => enc Op.fsub rd rs1 rs2 0#8
  | .fneg rd rs1 => enc Op.fneg rd rs1 0 0#8
  | .fhalf rd rs1 => enc Op.fhalf rd rs1 0 0#8
  | .fdbl rd rs1 => enc Op.fdbl rd rs1 0 0#8
  | .ftpl rd rs1 => enc Op.ftpl rd rs1 0 0#8
  | .fmul rd rs1 rs2 => enc Op.fmul rd rs1 rs2 0#8
  | .fsqr rd rs1 => enc Op.fsqr rd rs1 0 0#8
  | .fsqrmul rd rs1 rs2 k => enc Op.fsqrmul rd rs1 rs2 k
  | .finv rd rs1 => enc Op.finv rd rs1 0 0#8
  | .smul rd rs1 rs2 => enc Op.smul rd rs1 rs2 0#8
  | .ssqr rd rs1 => enc Op.ssqr rd rs1 0 0#8
  | .stomont rd rs1 => enc Op.stomont rd rs1 0 0#8
  | .ssqrmul rd rs1 rs2 k => enc Op.ssqrmul rd rs1 rs2 k
  | .sinv rd rs1 => enc Op.sinv rd rs1 0 0#8
  | .psel rd rs1 rs2 => enc Op.psel rd rs1 rs2 0#8

/-- The 64-bit CMD value that submits a command: v[31:0] its word, v[63:32] zero (R70, R83). -/
def cmdValue (i : Instr) : BitVec 64 := (encode i).setWidth 64

/-- The host's reading of a word of spec/opcode_table.json: the table numbers the bits as R71 does,
so the word is the CMD value itself, with every bit above `nbits` zero. A number that does not fit
the 64 bits of CMD is no CMD value. -/
def decodeTableWord (nbits w : Nat) : Option Instr :=
  if w % 2 ^ nbits < 0x10000000000000000 then
    match decode (BitVec.ofNat 64 (w % 2 ^ nbits)) with
    | .ok i => some i
    | .error _ => none
  else none

end Sys2Proof
end

