-- ==== Sys2Proof/Machine/State.lean ====
section
/-! DEFINITION. The state of P384CORE (spec/10_state.md R20 to R36), plain data.

The first group of fields is R36's record. The second group is the model's own: what the outside
does and when the Core completes (`events`), the latest bus response (`resp`), the model fault that a
rule has reached (`undef`), and the counter of free values (`freeCount`).
-/

namespace Sys2Proof.Machine

/-- The nine values of ERRINFO.CODE (spec/60_exceptions.md R242); "Codes 9 to 255 are never
produced". -/
inductive ErrCode where
  | none | illegalOp | reservedField | badImm | range | busy | accessWhileBusy | invariant | busAccess
deriving DecidableEq, Repr

/-- ERRINFO (R32): the first error event since ERR was last clear (R241). -/
structure ErrInfo where
  code : ErrCode
  info : BitVec 32
deriving DecidableEq, Repr

/-- INT_EN (R31). -/
structure IntEn where
  doneIe : Bool
  errIe : Bool
deriving DecidableEq, Repr

/-- One Host access of the register window (spec/20_memory.md R50, R56): an offset from BASE, a size
in bytes and, for a write, a 64-bit value. Every offset and size may be asked for. -/
inductive Access where
  | read (off size : Nat)
  | write (off size : Nat) (v : BitVec 64)
deriving DecidableEq, Repr

/-- What may happen next (R20, R62, R246, R270): the bus delivers a Host access, the Core takes its
completion step, or the platform asserts power-on reset. -/
inductive Event where
  | access (a : Access)
  | complete
  | powerOn
deriving DecidableEq, Repr

/-- What the bus returns for one Host access: the data of a read, and whether it is an error
response (R56). -/
inductive BusResp where
  | read (data : BitVec 64) (error : Bool)
  | write (error : Bool)
deriving DecidableEq, Repr

/-- The model faults of R252. The machine goes on in all three, as R24 and R100 say the hardware does;
`modelStep` (Machine/ModelRun.lean) is the stop of R16 and R252. -/
inductive ModelFault where
  /-- R24: a command read word k while a limb of it had never been written. -/
  | uninitOperand (k : WordIdx)
  /-- R100, R179: with pdbg = 0, a command of opcode `op` read the out-of-range word k. -/
  | operandOutOfRange (op : Opcode) (k : WordIdx)
  /-- R24: the Host read limb j of word k, which had never been written. -/
  | uninitRead (k : WordIdx) (j : LimbIdx)
deriving DecidableEq, Repr

/-- The state of the block (R36), with the model's own fields after it. -/
structure State where
  /-- W0..W63 (R21). -/
  words : Vector Word 64
  /-- `written[k][j]` (R24). -/
  written : Vector (Vector Bool 6) 64
  /-- CTRL.DBG_EN (R30). -/
  ctrlDbg : Bool
  /-- STATUS.DONE (R28). -/
  done : Bool
  /-- STATUS.ERR (R28). -/
  err : Bool
  /-- LAST_CMD, what a CMD read returns (R29). -/
  lastCmd : BitVec 32
  /-- INT_EN (R31). -/
  intEn : IntEn
  /-- ERRINFO (R32). -/
  errInfo : ErrInfo
  /-- `busy`, seen as STATUS.BUSY (R28, R34). -/
  busy : Bool
  /-- `pend`, the accepted command (R34). -/
  pend : BitVec 32
  /-- `pdbg`, DBG_EN as sampled at acceptance (R34). -/
  pdbg : Bool
  /-- MODEL: what happens next, in order (R62, R246). -/
  events : List Event
  /-- MODEL: the bus response to the latest Host access. -/
  resp : Option BusResp
  /-- MODEL: the first model fault of R252 that a rule has reached. No rule of the machine reads it;
  `modelStep` stops at it. -/
  undef : Option ModelFault
  /-- MODEL: how many free values have been drawn. -/
  freeCount : Nat
deriving DecidableEq, Repr

/-- Why the machine stops with a fault. -/
inductive Fault where
  /-- Raised by a Host access at an offset at or above 0x2000: "outside the window: not an access to
  this block" (R50, vector B-13 of spec/95_test_vectors.md). Safe: no claim is made about it. -/
  | outsideWindow (off : Nat)
  /-- Raised by completion when `pend` is no command. Safe: acceptance stores commands only (R244),
  and `Sys2Proof.Inv` says that no reachable state is such. -/
  | pendNotACommand (pend : BitVec 32)
deriving DecidableEq, Repr

/-- Why the machine has no meaning for a term. -/
inductive Refusal where
  /-- Raised by a rejected arm of exec, if there is one. Safe. -/
  | notModelled (mnemonic : String)
  /-- Raised by the meanings of FSQRMUL, SSQRMUL and PSEL for a term that fails WellFormed: its
  encoding is rejected at submission (R79, R80) and "never executes" (R142). Safe: the decoder gives
  no such term. -/
  | illFormed
deriving DecidableEq, Repr

/-- The state right after power-on reset (spec/70_reset_and_hazards.md R271). The operand words are
UNSPECIFIED there. DESIGN CHOICE, unsafe (log entry 1): they are 0. The model's own fields start
empty (log entries 2 to 5). -/
def State.reset : State where
  words := Vector.replicate 64 0#384
  written := Vector.replicate 64 (Vector.replicate 6 false)
  ctrlDbg := false
  done := false
  err := false
  lastCmd := 0#32
  intEn := ⟨false, false⟩
  errInfo := ⟨.none, 0#32⟩
  busy := false
  pend := 0#32
  pdbg := false
  events := []
  resp := none
  undef := none
  freeCount := 0

end Sys2Proof.Machine
end

