-- ==== Sys2Proof/Machine/Ops.lean ====
section
/-! DEFINITION. The named operations over the state that every meaning and every bus access goes
through: operand words and limbs (spec/10_state.md R21, R24), the error event and its clearing
(spec/60_exceptions.md R240, R241, R249), the model's record of model faults (R252), free values,
completion (spec/70_reset_and_hazards.md R280), and the two resets (R271 to R273).
-/

namespace Sys2Proof.Machine

/-! ### Limbs of a word -/

/-- limb(v, j) = v[64j+63:64j] (R15). -/
def limb (v : Word) (j : LimbIdx) : Limb := v.extractLsb' (64 * j.val) 64

/-- The word `v` with limb j replaced by `x`, the other five limbs unchanged (R21, R57). -/
def setLimb (v : Word) (j : LimbIdx) (x : Limb) : Word :=
  (v &&& ~~~((BitVec.allOnes 64).setWidth 384 <<< (64 * j.val))) |||
    (x.setWidth 384 <<< (64 * j.val))

/-! ### Operand words -/

/-- W[k] (R16). -/
def readWord (k : WordIdx) (s : State) : Word := s.words[k.val]

/-- `written[k][j]` (R24). -/
def limbWritten (k : WordIdx) (j : LimbIdx) (s : State) : Bool := (s.written[k.val])[j.val]

/-- All six limbs of word k have been written since power-on (R24). -/
def wordWritten (k : WordIdx) (s : State) : Bool := s.written[k.val] == Vector.replicate 6 true

/-- W[k] <- v by a command, which "sets all six flags of word k" (R16, R24). -/
def writeWord (k : WordIdx) (v : Word) (s : State) : State :=
  { s with
    words := s.words.set k.val v
    written := s.written.set k.val (Vector.replicate 6 true) }

/-- A Host write of limb j of word k, which "sets `written[k][j]`" (R24, R52). -/
def writeLimb (k : WordIdx) (j : LimbIdx) (x : Limb) (s : State) : State :=
  { s with
    words := s.words.set k.val (setLimb (readWord k s) j x)
    written := s.written.set k.val ((s.written[k.val]).set j.val true) }

/-- The word that stands n places after word k. A command that passes R80 never runs past W63. -/
def wordAfter (k : WordIdx) (n : Nat) : WordIdx := Fin.ofNat 64 (k.val + n)

/-! ### Error events: this block's trap entry and return (R248, R249) -/

/-- `raise Error(code, info)` (R240): the first error since ERR was last clear goes into ERRINFO
(R241), and ERR is set. It does nothing else. -/
def raiseError (code : ErrCode) (info : BitVec 32) (s : State) : State :=
  { s with
    errInfo := if s.err then s.errInfo else ⟨code, info⟩
    err := true }

/-- W1C of STATUS.ERR: "sets ERR to 0 and ERRINFO to 0 in the same step" (R241, R249). -/
def clearError (s : State) : State :=
  { s with err := false, errInfo := ⟨.none, 0#32⟩ }

/-- W1C of STATUS.DONE (R28, R249). -/
def clearDone (s : State) : State := { s with done := false }

/-- The error code that a decoder's rejection raises (R81, R242). -/
def decodeErrCode : DecodeError → ErrCode
  | .illegalOp => .illegalOp
  | .reservedField => .reservedField
  | .badImm => .badImm
  | .range => .range

/-- ERRINFO.CODE as software reads it (R242). -/
def ErrCode.toByte : ErrCode → BitVec 8
  | .none => 0#8
  | .illegalOp => 1#8
  | .reservedField => 2#8
  | .badImm => 3#8
  | .range => 4#8
  | .busy => 5#8
  | .accessWhileBusy => 6#8
  | .invariant => 7#8
  | .busAccess => 8#8

/-! ### Model faults and free values -/

/-- A rule reaches a model fault of R252, and the machine goes on. The first one stays: it is where a run
of `modelStep` stops. -/
def noteUndefined (u : ModelFault) (s : State) : State :=
  { s with undef := s.undef <|> some u }

/-- The destination receives "some u384 ... that the spec does not define" (R100): a free value. -/
def writeFree (k : WordIdx) (s : State) : State :=
  writeWord k (Config.undefinedResult s.freeCount) { s with freeCount := s.freeCount + 1 }

/-! ### The life of a command -/

/-- A command word is accepted (R244). -/
def accept (c : BitVec 32) (s : State) : State :=
  { s with busy := true, pend := c, pdbg := s.ctrlDbg, lastCmd := c, done := false }

/-- The end of every completion: busy <- 0, STATUS.DONE <- 1 (R280). -/
def finish (s : State) : State := { s with busy := false, done := true }

/-! ### Resets -/

/-- Soft reset (R273): every register to 0; the operand words and their flags are unchanged. -/
def softReset (s : State) : State :=
  { s with
    busy := false
    pend := 0#32
    pdbg := false
    ctrlDbg := false
    done := false
    err := false
    lastCmd := 0#32
    intEn := ⟨false, false⟩
    errInfo := ⟨.none, 0#32⟩ }

/-- Power-on reset in mid-run (R271, R272): every register to 0, every `written` flag clear, and every
operand word a free value. The Host's remaining events stay, and so does the record of R252. -/
def powerOnReset (s : State) : State :=
  { State.reset with
    words := Vector.ofFn (fun k : Fin 64 => Config.powerOnWord s.freeCount k)
    events := s.events
    undef := s.undef
    freeCount := s.freeCount + 1 }

end Sys2Proof.Machine
end

