-- ==== Sys2Proof/Machine/Flags.lean ====
section
/-! DEFINITION. Every flag of the block. It has no condition codes (spec/10_state.md R26): a carry
or a borrow exists only inside an operation (spec/40_field_arith.md R103), and the visible flags are
STATUS, INT_EN and the irq level (R28, R31, R32, spec/60_exceptions.md R247).
-/

namespace Sys2Proof.Machine

/-! ### Carry, borrow, select and zero test (R103) -/

/-- add384 (R103): the sum mod 2^384 and the carry out. -/
def add384 (x y : Word) : Word × Bool := (x + y, decide (Config.R ≤ x.toNat + y.toNat))

/-- sub384 (R103): the difference mod 2^384 and the borrow out. -/
def sub384 (x y : Word) : Word × Bool := (x - y, decide (x.toNat < y.toNat))

/-- select (R103): x if the condition holds, else y. -/
def select (c : Bool) (x y : Word) : Word := if c then x else y

/-- is_zero (R103). -/
def isZero (x : Word) : Bool := x == 0#384

/-! ### STATUS, INT_EN, CTRL, ERRINFO as the Host reads them -/

/-- A flag as a u64 bit at place n. -/
def bitAt (n : Nat) (b : Bool) : BitVec 64 := (BitVec.ofBool b).setWidth 64 <<< n

/-- STATUS (R28): BUSY at bit 0, DONE at bit 1, ERR at bit 2, zeros above. -/
def statusReg (s : State) : BitVec 64 := bitAt 0 s.busy ||| bitAt 1 s.done ||| bitAt 2 s.err

/-- CTRL (R30): DBG_EN at bit 0; SRST reads 0. -/
def ctrlReg (s : State) : BitVec 64 := bitAt 0 s.ctrlDbg

/-- INT_EN (R31): DONE_IE at bit 0, ERR_IE at bit 1. -/
def intEnReg (s : State) : BitVec 64 := bitAt 0 s.intEn.doneIe ||| bitAt 1 s.intEn.errIe

/-- CMD as read (R29): LAST_CMD, zero-extended. -/
def cmdReg (s : State) : BitVec 64 := s.lastCmd.setWidth 64

/-- ERRINFO (R32): CODE at bits 7:0, INFO at bits 63:32, zeros between. -/
def errInfoReg (s : State) : BitVec 64 :=
  s.errInfo.code.toByte.setWidth 64 ||| (s.errInfo.info.setWidth 64 <<< 32)

/-- The interrupt line (R32, R247). -/
def irq (s : State) : Bool := (s.done && s.intEn.doneIe) || (s.err && s.intEn.errIe)

end Sys2Proof.Machine
end

