-- ==== Sys2Proof/Machine/Bus.lean ====
section
/-! DEFINITION. The Host's side: the register window, bus accesses, command submission
(spec/20_memory.md R50 to R59, spec/10_state.md R27 to R32, spec/60_exceptions.md R243, R244), and the
bytes of the window at platform addresses (R54).
-/

namespace Sys2Proof.Machine

/-! ### The register map (R51, R52) -/

/-- What a legal offset of the window names. -/
inductive Target where
  | id | ctrl | status | cmd | intEn | errInfo
  /-- R53: 0x030 to 0xFF8. -/
  | reserved
  /-- R52: limb j of word k, j <= 5. -/
  | limb (k : WordIdx) (j : LimbIdx)
  /-- R52: limbs 6 and 7 of word k. -/
  | padding (k : WordIdx)
deriving DecidableEq, Repr

/-- R52: the word index of an operand offset. -/
def offsetWord (off : Nat) : WordIdx := Fin.ofNat 64 ((off - 0x1000) / 0x40)

/-- R52: the limb index 0..7 of an operand offset. -/
def offsetLimb (off : Nat) : Nat := (off - 0x1000) % 0x40 / 8

/-- R51, R52: the map of the window. -/
def target (off : Nat) : Target :=
  if off = 0x000 then .id
  else if off = 0x008 then .ctrl
  else if off = 0x010 then .status
  else if off = 0x018 then .cmd
  else if off = 0x020 then .intEn
  else if off = 0x028 then .errInfo
  else if off < 0x1000 then .reserved
  else if h : offsetLimb off < 6 then .limb (offsetWord off) ⟨offsetLimb off, h⟩
  else .padding (offsetWord off)

/-- The offset of limb j of word k (R52). -/
def limbOffset (k : WordIdx) (j : LimbIdx) : Nat := 0x1000 + 0x40 * k.val + 8 * j.val

/-- R59: the target is in the operand-word region 0x1000 to 0x1FF8. -/
def Target.isOperand : Target → Bool
  | .limb _ _ => true
  | .padding _ => true
  | .id => false
  | .ctrl => false
  | .status => false
  | .cmd => false
  | .intEn => false
  | .errInfo => false
  | .reserved => false

/-- R56: 8 bytes at a multiple of 8. -/
def legalAccess (off size : Nat) : Bool := decide (size = 8) && decide (off % 8 = 0)

/-- off[12:0] | (is_write << 16), INFO of BUS_ACCESS and ACCESS_WHILE_BUSY (R56, R59, R242). -/
def accessInfo (off : Nat) (isWrite : Bool) : BitVec 32 :=
  BitVec.ofNat 32 (off % 0x2000) ||| ((BitVec.ofBool isWrite).setWidth 32 <<< 16)

/-! ### Reads -/

/-- The value a register or limb holds for a read of the idle block (R27 to R32, R52, R53). -/
def targetValue (s : State) : Target → BitVec 64
  | .id => Config.ID
  | .ctrl => ctrlReg s
  | .status => statusReg s
  | .cmd => cmdReg s
  | .intEn => intEnReg s
  | .errInfo => errInfoReg s
  | .reserved => 0#64
  | .limb k j => limb (readWord k s) j
  | .padding _ => 0#64

/-- Leave the response of an access for the Host. -/
def respond (r : BusResp) (s : State) : State := { s with resp := some r }

/-- R24: a Host read of a limb that was never written is the model fault UninitRead (R252). The machine
goes on, and the read returns "whatever bits the storage holds". -/
def noteUninitRead (t : Target) (s : State) : State :=
  match t with
  | .limb k j => if limbWritten k j s then s else noteUndefined (.uninitRead k j) s
  | .id => s
  | .ctrl => s
  | .status => s
  | .cmd => s
  | .intEn => s
  | .errInfo => s
  | .reserved => s
  | .padding _ => s

/-- MemRead(off, size) inside the window: BUS_ACCESS first, then ACCESS_WHILE_BUSY, then the value
(R56, R58, R59, R243). -/
def busRead (off size : Nat) (s : State) : State :=
  if !legalAccess off size then
    respond (.read 0#64 true) (raiseError .busAccess (accessInfo off false) s)
  else if s.busy && (target off).isOperand then
    respond (.read 0#64 false) (raiseError .accessWhileBusy (accessInfo off false) s)
  else
    respond (.read (targetValue s (target off)) false) (noteUninitRead (target off) s)

/-! ### Writes -/

/-- R244: a legal write of v to CMD. BUSY comes first, then the decoder's checks (R243). -/
def submit (v : BitVec 64) (s : State) : State :=
  if s.busy then raiseError .busy (cmdWord v) s
  else
    match decode v with
    | .error e => raiseError (decodeErrCode e) (cmdWord v) s
    | .ok _ => accept (cmdWord v) s

/-- R28: a STATUS write. Bit 1 clears DONE, bit 2 clears ERR and ERRINFO, other bits are ignored. -/
def writeStatus (v : BitVec 64) (s : State) : State :=
  let s1 := if v.getLsbD 1 then clearDone s else s
  if v.getLsbD 2 then clearError s1 else s1

/-- R30, R273: a CTRL write. Bit 1 is a soft reset, and it wins over bit 0; else DBG_EN <- v[0]. -/
def writeCtrl (v : BitVec 64) (s : State) : State :=
  if v.getLsbD 1 then softReset s else { s with ctrlDbg := v.getLsbD 0 }

/-- R31: an INT_EN write. -/
def writeIntEn (v : BitVec 64) (s : State) : State :=
  { s with intEn := ⟨v.getLsbD 0, v.getLsbD 1⟩ }

/-- The effect of a legal write of v that is not locked out by BUSY (R27 to R32, R52, R53). -/
def writeTarget (v : BitVec 64) (s : State) : Target → State
  | .id => s
  | .ctrl => writeCtrl v s
  | .status => writeStatus v s
  | .cmd => submit v s
  | .intEn => writeIntEn v s
  | .errInfo => s
  | .reserved => s
  | .limb k j => writeLimb k j v s
  | .padding _ => s

/-- MemWrite(off, size, v) inside the window: BUS_ACCESS first, then ACCESS_WHILE_BUSY, then the
write (R56, R59, R243). -/
def busWrite (off size : Nat) (v : BitVec 64) (s : State) : State :=
  if !legalAccess off size then
    respond (.write true) (raiseError .busAccess (accessInfo off true) s)
  else if s.busy && (target off).isOperand then
    respond (.write false) (raiseError .accessWhileBusy (accessInfo off true) s)
  else
    respond (.write false) (writeTarget v s (target off))

/-! ### One access -/

/-- The offset of an access. -/
def Access.off : Access → Nat
  | .read off _ => off
  | .write off _ _ => off

/-- The access is inside the 8 KiB window (R50). -/
def Access.inWindow (a : Access) : Bool := decide (a.off < Config.windowSize)

/-- One Host access (R62). An offset at or above 0x2000 is "not an access to this block" (R50). -/
def hostAccess (a : Access) (s : State) : Host.Outcome State Fault Refusal :=
  if a.inWindow then
    match a with
    | .read off size => .next (busRead off size s)
    | .write off size v => .next (busWrite off size v s)
  else .fault (.outsideWindow a.off)

/-! ### Bytes of the window at platform addresses (R12, R54) -/

/-- What a legal Host read of the 8 bytes at `off` would return now, with nothing changed (R58, R59). -/
def peek (off : Nat) (s : State) : BitVec 64 :=
  if s.busy && (target off).isOperand then 0#64 else targetValue s (target off)

/-- Byte b of a u64: bits [8b+7:8b] (R54). -/
def byteOf (v : BitVec 64) (b : Nat) : BitVec 8 := v.extractLsb' (8 * b) 8

/-- The byte that the block holds at offset `o` of the window, whether or not BUSY locks it (R51, R52,
R54). -/
def storedByte (o : Nat) (s : State) : BitVec 8 := byteOf (targetValue s (target (o - o % 8))) (o % 8)

/-- R54: byte b of the value at offset off sits at byte address BASE + off + b. What a Host sees at a
platform address; none outside the window. -/
def windowByte (addr : Nat) (s : State) : Option (BitVec 8) :=
  if Config.base ≤ addr ∧ addr < Config.base + Config.windowSize then
    let o := addr - Config.base
    some (byteOf (peek (o - o % 8) s) (o % 8))
  else none

end Sys2Proof.Machine
end

