-- ==== Sys2Proof/Machine/Mont.lean ====
section
/-! DEFINITION. The Montgomery engine (spec/00_scope.md R17, spec/41_field_mont.md R130), the repeated
squaring step that every exponentiation is made of (R142, R183), the two public chains (R160, R199,
R200), and the informative word-serial datapath of R131.

Values are integers in [0, m) here, as in the spec's pseudocode (R15); they are narrowed to a u384
when a destination word is written.
-/

namespace Sys2Proof.Machine

/-! ### Montgomery primitives (R17) -/

/-- MM_m(a, b) = (a * b * inv_m(R)) mod m. -/
def mm (m : Modulus) (a b : Nat) : Nat := a * b * m.rInv % m.value

/-- Mont_m(x) = (x * R) mod m. -/
def toMont (m : Modulus) (x : Nat) : Nat := x * Config.R % m.value

/-- UnMont_m(y) = (y * inv_m(R)) mod m. -/
def unMont (m : Modulus) (y : Nat) : Nat := y * m.rInv % m.value

/-- MExp_m(a, e) = Mont_m(UnMont_m(a)^e mod m). -/
def mExp (m : Modulus) (a e : Nat) : Nat := toMont m (unMont m a ^ e % m.value)

/-- MontEngine(a, b, m, n0) = MM_m(a, b) (R130); n0 "does not change the result". -/
def montEngine (m : Modulus) (a b : Nat) : Nat := mm m a b

/-- k Montgomery squarings of x (R142, R183). -/
def sqrTimes (m : Modulus) : Nat → Nat → Nat
  | 0, x => x
  | k + 1, x => sqrTimes m k (montEngine m x x)

/-- SM_m(x, k, y): k Montgomery squarings of x, then one Montgomery product by y (R142, R183). -/
def sqrMul (m : Modulus) (x k y : Nat) : Nat := montEngine m (sqrTimes m k x) y

/-! ### Field inversion chain (R160) -/

/-- Walk an addition chain: every step appends SM(x, k, y) of two earlier results. The operation `sm`
is a parameter, so that the same walk also computes the exponents of R160's table. -/
def runChain (sm : Nat → Nat → Nat → Nat) : List ChainStep → List Nat → List Nat
  | [], rs => rs
  | c :: cs, rs => runChain sm cs (rs ++ [sm (rs.getD c.x 0) c.k (rs.getD c.y 0)])

/-- The exponent of SM(A^x, k, A^y): x·2^k + y (R160, "exponent of A afterwards"). -/
def smExponent (x k y : Nat) : Nat := x * 2 ^ k + y

/-- `acc` after FCHAIN applied to a (R161). -/
def finvValue (a : Nat) : Nat :=
  (runChain (sqrMul .field) Config.FCHAIN [a]).getLastD 0

/-! ### Scalar inversion chain (R199 to R201) -/

/-- SDIGITS d[0..4] of R199, from the plain input a. -/
def scalarDigits (a : Nat) : List Nat :=
  let d1 := montEngine .scalar a Config.RR_N
  let b2 := montEngine .scalar d1 d1
  let d3 := montEngine .scalar b2 d1
  let d5 := sqrMul .scalar b2 1 d1
  let d7 := sqrMul .scalar d3 1 d1
  let d15 := sqrMul .scalar d7 1 d1
  [d1, d3, d5, d7, d15]

/-- Walk the windows of SCHAIN after window 0 (R201). The operation and the digits are parameters, so
that the same walk also computes the exponent. -/
def runWindows (sm : Nat → Nat → Nat → Nat) (digits : List Nat) : List Window → Nat → Nat
  | [], acc => acc
  | w :: ws, acc => runWindows sm digits ws (sm acc w.squarings (digits.getD w.digitIndex 0))

/-- The whole walk of R201: window 0 starts the accumulator, and its squaring count is not used. -/
def windowWalk (sm : Nat → Nat → Nat → Nat) (digits : List Nat) : List Window → Nat
  | [] => 0
  | w :: ws => runWindows sm digits ws (digits.getD w.digitIndex 0)

/-- The accumulator that R201 returns. -/
def sinvValue (a : Nat) : Nat :=
  windowWalk (sqrMul .scalar) (scalarDigits a) Config.SCHAIN

/-- The exponents of SDIGITS (R199). -/
def digitExponents : List Nat := [1, 3, 5, 7, 15]

/-! ### The reference datapath (R131, informative) -/

/-- Bits 64i+63..64i of a (R15). -/
def limbNat (a i : Nat) : Nat := a / 0x10000000000000000 ^ i % 0x10000000000000000

/-- One pass of R131's loop: add limb(a, i)·b, then u·m, and drop the low limb. -/
def refPass (m : Modulus) (a b i t : Nat) : Nat :=
  let t' := t + limbNat a i * b
  let u := t' % 0x10000000000000000 * m.n0 % 0x10000000000000000
  (t' + u * m.value) / 0x10000000000000000

/-- The six passes of R131, i = 0 to 5. -/
def refLoop (m : Modulus) (a b : Nat) : Nat :=
  refPass m a b 5 (refPass m a b 4 (refPass m a b 3 (refPass m a b 2 (refPass m a b 1
    (refPass m a b 0 0)))))

/-- R131: the final 385-bit subtraction and the select on its borrow. -/
def refMont (m : Modulus) (a b : Nat) : Nat :=
  let t := refLoop m a b
  if t < m.value then t else t - m.value

end Sys2Proof.Machine
end

