-- ==== Sys2Proof/Machine/Operands.lean ====
section
/-! DEFINITION. How a command reaches its operands: which words it reads and writes (spec/30_encoding.md
R72 to R74, spec/45_point_select.md R219), the validity record of spec/10_state.md R24, the range
preconditions of spec/40_field_arith.md R100 and spec/43_scalar_arith.md R179, the debug checks of
spec/60_exceptions.md R250, and the one order in which a command runs (R101).
-/

namespace Sys2Proof.Machine

/-! ### Operand words of each command -/

/-- R73, R219: the 48 table words of PSEL, entry by entry, X, Y, Z. -/
def tableWords (rs1 : WordIdx) : List WordIdx := (List.range 48).map (wordAfter rs1)

/-- The words a command reads, in the order of reading: RS1, then RS2 (R100, R243). PSEL reads its
index word first and then its table, as the pseudocode of R220 does (log entry 7). The list is a
function of the command word alone (R102, R221). -/
def sources : Instr → List WordIdx
  | .fadd _ rs1 rs2 => [rs1, rs2]
  | .fsub _ rs1 rs2 => [rs1, rs2]
  | .fneg _ rs1 => [rs1]
  | .fhalf _ rs1 => [rs1]
  | .fdbl _ rs1 => [rs1]
  | .ftpl _ rs1 => [rs1]
  | .fmul _ rs1 rs2 => [rs1, rs2]
  | .fsqr _ rs1 => [rs1]
  | .fsqrmul _ rs1 rs2 _ => [rs1, rs2]
  | .finv _ rs1 => [rs1]
  | .smul _ rs1 rs2 => [rs1, rs2]
  | .ssqr _ rs1 => [rs1]
  | .stomont _ rs1 => [rs1]
  | .ssqrmul _ rs1 rs2 _ => [rs1, rs2]
  | .sinv _ rs1 => [rs1]
  | .psel _ rs1 rs2 => rs2 :: tableWords rs1

/-- The words a command writes (R74, R220), a function of the command word alone (R102, R221). -/
def dests : Instr → List WordIdx
  | .fadd rd _ _ => [rd]
  | .fsub rd _ _ => [rd]
  | .fneg rd _ => [rd]
  | .fhalf rd _ => [rd]
  | .fdbl rd _ => [rd]
  | .ftpl rd _ => [rd]
  | .fmul rd _ _ => [rd]
  | .fsqr rd _ => [rd]
  | .fsqrmul rd _ _ _ => [rd]
  | .finv rd _ => [rd]
  | .smul rd _ _ => [rd]
  | .ssqr rd _ => [rd]
  | .stomont rd _ => [rd]
  | .ssqrmul rd _ _ _ => [rd]
  | .sinv rd _ => [rd]
  | .psel rd _ _ => [rd, wordAfter rd 1, wordAfter rd 2]

/-! ### Validity and range of the sources -/

/-- R101 step 1: the first source word with a clear flag is the model fault UninitOperand (R24). -/
def noteUninit (srcs : List WordIdx) (s : State) : State :=
  match srcs.find? (fun k => !wordWritten k s) with
  | some k => noteUndefined (.uninitOperand k) s
  | none => s

/-- The value of word k is in [0, m) (R100, R179). -/
def inRange (m : Modulus) (k : WordIdx) (s : State) : Bool :=
  decide ((readWord k s).toNat < m.value)

/-- The first source word that is out of range, in the order RS1, RS2 (R100, R243). -/
def firstOutOfRange (m : Modulus) (srcs : List WordIdx) (s : State) : Option WordIdx :=
  srcs.find? (fun k => !inRange m k s)

/-- INFO of an INVARIANT error: "the index (0..63) of the failing source word" (R242). -/
def wordInfo (k : WordIdx) : BitVec 32 := BitVec.ofNat 32 k.val

/-- A debug invariant failed with pdbg = 1 (R250): no destination is written, and INVARIANT is raised
with the failing source word. -/
def invariantError (k : WordIdx) (s : State) : State := raiseError .invariant (wordInfo k) s

/-! ### The order of a command (R101) -/

/-- A command on operands mod m. `srcs` are its source words, `rd` its destination, `value` what it
computes from the words of `s`, and `extra` the failing source word of a debug invariant beyond the
range checks, if there is one (R250).

The sources' validity is checked, and an unwritten source is read as the bits it holds (R24); an
out-of-range source raises INVARIANT with pdbg = 1 (R250), and with pdbg = 0 it is the model fault
OperandOutOfRange, with a free value in the destination (R100, R179; log entry 6); else the value is written
(R101). The command completes in every case, as on the hardware. -/
def runModularWith (extra : Option WordIdx) (op : Opcode) (m : Modulus) (srcs : List WordIdx)
    (rd : WordIdx) (value : Word) (s : State) : State :=
  let s' := noteUninit srcs s
  match firstOutOfRange m srcs s with
  | some k =>
    if s.pdbg then invariantError k s'
    else writeFree rd (noteUndefined (.operandOutOfRange op k) s')
  | none =>
    match extra, s.pdbg with
    | some k, true => invariantError k s'
    | _, _ => writeWord rd value s'

/-- A command on operands mod m with no debug invariant beyond the range checks. -/
def runModular (op : Opcode) (m : Modulus) (srcs : List WordIdx) (rd : WordIdx) (value : Word)
    (s : State) : State :=
  runModularWith none op m srcs rd value s

/-- The value of an operand word as an integer (R15). -/
def operand (k : WordIdx) (s : State) : Nat := (readWord k s).toNat

/-- An integer in [0, 2^384) as a u384 (R15). -/
def toWord (n : Nat) : Word := BitVec.ofNat 384 n

end Sys2Proof.Machine
end

