-- ==== Sys2Proof/Machine/FieldArith.lean ====
section
/-! DEFINITION. FADD, FSUB, FNEG, FDBL, FTPL, FHALF: field arithmetic mod Q
(spec/40_field_arith.md R110 to R116).

Each `…Value` is the pseudocode of its rule on u384 values; each `exec…` is the command's meaning at
its completion step (R101).
-/

namespace Sys2Proof.Machine

/-- Q as a u384. -/
def qWord : Word := BitVec.ofNat 384 Config.Q

/-- HALF_Q as a u384. -/
def halfQWord : Word := BitVec.ofNat 384 Config.HALF_Q

/-- FADD_value (R110): t if the addition carried or s - Q did not borrow, else s. -/
def faddValue (a b : Word) : Word :=
  let sum := add384 a b
  let red := sub384 sum.1 qWord
  select (sum.2 || !red.2) red.1 sum.1

/-- R111: d + Q if a - b borrowed, else d. -/
def fsubValue (a b : Word) : Word :=
  let diff := sub384 a b
  let up := add384 diff.1 qWord
  select diff.2 up.1 diff.1

/-- R112: Q - a, but 0 for a = 0. -/
def fnegValue (a : Word) : Word :=
  select (isZero a) 0#384 (sub384 qWord a).1

/-- R113: "double = add(a,a)". -/
def fdblValue (a : Word) : Word := faddValue a a

/-- R114: "triple = add(double,a)". -/
def ftplValue (a : Word) : Word := faddValue (faddValue a a) a

/-- R115: the shifted operand plus HALF_Q, with its carry. -/
def fhalfSum (a : Word) : Word × Bool := add384 (a >>> 1) halfQWord

/-- R115: the sum if the dropped bit was 1, else the plain shift. -/
def fhalfValue (a : Word) : Word := select (a.getLsbD 0) (fhalfSum a).1 (a >>> 1)

/-- FADD (R110). -/
def execFadd (rd rs1 rs2 : WordIdx) (s : State) : Host.Outcome State Fault Refusal :=
  .next (runModular Op.fadd .field [rs1, rs2] rd (faddValue (readWord rs1 s) (readWord rs2 s)) s)

/-- FSUB (R111). -/
def execFsub (rd rs1 rs2 : WordIdx) (s : State) : Host.Outcome State Fault Refusal :=
  .next (runModular Op.fsub .field [rs1, rs2] rd (fsubValue (readWord rs1 s) (readWord rs2 s)) s)

/-- FNEG (R112). -/
def execFneg (rd rs1 : WordIdx) (s : State) : Host.Outcome State Fault Refusal :=
  .next (runModular Op.fneg .field [rs1] rd (fnegValue (readWord rs1 s)) s)

/-- FDBL (R113). -/
def execFdbl (rd rs1 : WordIdx) (s : State) : Host.Outcome State Fault Refusal :=
  .next (runModular Op.fdbl .field [rs1] rd (fdblValue (readWord rs1 s)) s)

/-- FTPL (R114). -/
def execFtpl (rd rs1 : WordIdx) (s : State) : Host.Outcome State Fault Refusal :=
  .next (runModular Op.ftpl .field [rs1] rd (ftplValue (readWord rs1 s)) s)

/-- R250: FHALF's own debug invariant, "the add384 carry is 0"; the failing source word is RS1. -/
def fhalfInvariant (rs1 : WordIdx) (s : State) : Option WordIdx :=
  if (fhalfSum (readWord rs1 s)).2 then some rs1 else none

/-- FHALF (R115), with its debug invariant (R250). -/
def execFhalf (rd rs1 : WordIdx) (s : State) : Host.Outcome State Fault Refusal :=
  .next (runModularWith (fhalfInvariant rs1 s) Op.fhalf .field [rs1] rd
    (fhalfValue (readWord rs1 s)) s)

end Sys2Proof.Machine
end

