-- ==== Sys2Proof/Machine/FieldInv.lean ====
section
/-! DEFINITION. FINV: field inversion in Montgomery domain (spec/42_field_inversion.md R160, R161).
-/

namespace Sys2Proof.Machine

/-- FINV (R161): W[rd] <- acc after FCHAIN applied to a. It is 0 for a = 0 (spec/90_conflicts.md C2).
-/
def execFinv (rd rs1 : WordIdx) (s : State) : Host.Outcome State Fault Refusal :=
  .next (runModular Op.finv .field [rs1] rd (toWord (finvValue (operand rs1 s))) s)

end Sys2Proof.Machine
end

