-- ==== Sys2Proof/Machine/FieldMont.lean ====
section
/-! DEFINITION. FMUL, FSQR, FSQRMUL: Montgomery products mod Q (spec/41_field_mont.md R140 to R142).
-/

namespace Sys2Proof.Machine

/-- FMUL (R140): W[rd] <- MontEngine(a, b, Q, N0_Q). -/
def execFmul (rd rs1 rs2 : WordIdx) (s : State) : Host.Outcome State Fault Refusal :=
  .next (runModular Op.fmul .field [rs1, rs2] rd
    (toWord (montEngine .field (operand rs1 s) (operand rs2 s))) s)

/-- FSQR (R141): W[rd] <- MontEngine(a, a, Q, N0_Q). -/
def execFsqr (rd rs1 : WordIdx) (s : State) : Host.Outcome State Fault Refusal :=
  .next (runModular Op.fsqr .field [rs1] rd
    (toWord (montEngine .field (operand rs1 s) (operand rs1 s))) s)

/-- FSQRMUL (R142): k squarings of a, then a product by b. With k = 0 it is no command: "IMM8 = 0 is
rejected at acceptance with BAD_IMM and never executes". -/
def execFsqrmul (rd rs1 rs2 : WordIdx) (k : BitVec 8) (s : State) :
    Host.Outcome State Fault Refusal :=
  if countOk k then
    .next (runModular Op.fsqrmul .field [rs1, rs2] rd
      (toWord (sqrMul .field (operand rs1 s) k.toNat (operand rs2 s))) s)
  else .refused .illFormed

end Sys2Proof.Machine
end

