-- ==== Sys2Proof/Machine/PointSelect.lean ====
section
/-! DEFINITION. PSEL: selection of one of 16 points (spec/45_point_select.md R219 to R221).
-/

namespace Sys2Proof.Machine

/-- R220: all ones when the index is the entry's 1-based position, over all 384 bits; else zero. -/
def pselMask (i : Word) (e : Nat) : Word :=
  if i == BitVec.ofNat 384 (e + 1) then BitVec.allOnes 384 else 0#384

/-- R220: out[c], the OR over all 16 entries of (W[t + 3e + c] AND mask). -/
def pselCoord (rs1 rs2 : WordIdx) (c : Nat) (s : State) : Word :=
  (List.range 16).foldl
    (fun out e => out ||| (readWord (wordAfter rs1 (3 * e + c)) s &&& pselMask (readWord rs2 s) e))
    0#384

/-- R220: the three destination words receive out[0], out[1], out[2]. -/
def writePoint (rd : WordIdx) (x y z : Word) (s : State) : State :=
  writeWord (wordAfter rd 2) z (writeWord (wordAfter rd 1) y (writeWord rd x s))

/-- R250: the index is at most 16. -/
def indexOk (rs2 : WordIdx) (s : State) : Bool := decide ((readWord rs2 s).toNat ≤ 16)

/-- PSEL on a command that passes R80: with pdbg = 1 and i > 16 it raises INVARIANT for the index word
and writes nothing (R220, R250); else it writes the selected point, which is the all-zero point for
i = 0 and for every i > 16. -/
def runPsel (rd rs1 rs2 : WordIdx) (s : State) : State :=
  let s' := noteUninit (sources (.psel rd rs1 rs2)) s
  if s.pdbg && !indexOk rs2 s then invariantError rs2 s'
  else writePoint rd (pselCoord rs1 rs2 0 s) (pselCoord rs1 rs2 1 s) (pselCoord rs1 rs2 2 s) s'

/-- PSEL (R220). With RS1 > 16 or RD > 61 it is no command: it "is rejected at acceptance with RANGE".
-/
def execPsel (rd rs1 rs2 : WordIdx) (s : State) : Host.Outcome State Fault Refusal :=
  if tableFits rs1 && resultFits rd then .next (runPsel rd rs1 rs2 s) else .refused .illFormed

end Sys2Proof.Machine
end

