-- ==== Sys2Proof/Machine/ScalarArith.lean ====
section
/-! DEFINITION. SMUL, SSQR, STOMONT, SSQRMUL: Montgomery products mod N (spec/43_scalar_arith.md R179
to R183).
-/

namespace Sys2Proof.Machine

/-- SMUL (R180): W[rd] <- MontEngine(a, b, N, N0_N). -/
def execSmul (rd rs1 rs2 : WordIdx) (s : State) : Host.Outcome State Fault Refusal :=
  .next (runModular Op.smul .scalar [rs1, rs2] rd
    (toWord (montEngine .scalar (operand rs1 s) (operand rs2 s))) s)

/-- SSQR (R181): W[rd] <- MontEngine(a, a, N, N0_N). -/
def execSsqr (rd rs1 : WordIdx) (s : State) : Host.Outcome State Fault Refusal :=
  .next (runModular Op.ssqr .scalar [rs1] rd
    (toWord (montEngine .scalar (operand rs1 s) (operand rs1 s))) s)

/-- STOMONT (R182): W[rd] <- MontEngine(a, RR_N, N, N0_N), with RR_N from the constant store. -/
def execStomont (rd rs1 : WordIdx) (s : State) : Host.Outcome State Fault Refusal :=
  .next (runModular Op.stomont .scalar [rs1] rd
    (toWord (montEngine .scalar (operand rs1 s) Config.RR_N)) s)

/-- SSQRMUL (R183): k squarings of a, then a product by b. "IMM8 = 0 is rejected at acceptance". -/
def execSsqrmul (rd rs1 rs2 : WordIdx) (k : BitVec 8) (s : State) :
    Host.Outcome State Fault Refusal :=
  if countOk k then
    .next (runModular Op.ssqrmul .scalar [rs1, rs2] rd
      (toWord (sqrMul .scalar (operand rs1 s) k.toNat (operand rs2 s))) s)
  else .refused .illFormed

end Sys2Proof.Machine
end

