-- ==== Sys2Proof/Machine/ScalarInv.lean ====
section
/-! DEFINITION. SINV: scalar inversion, plain input to Montgomery-domain output
(spec/44_scalar_inversion.md R199 to R201).
-/

namespace Sys2Proof.Machine

/-- SINV (R201): W[rd] <- the accumulator after SCHAIN over SDIGITS of a. It is 0 for a = 0. -/
def execSinv (rd rs1 : WordIdx) (s : State) : Host.Outcome State Fault Refusal :=
  .next (runModular Op.sinv .scalar [rs1] rd (toWord (sinvValue (operand rs1 s))) s)

end Sys2Proof.Machine
end

