-- ==== Sys2Proof/Machine/Dispatch.lean ====
section
/-! DEFINITION. exec: one arm per command, the rule that the completion step runs (R280). -/

namespace Sys2Proof.Machine

def exec (i : Instr) (s : State) : Host.Outcome State Fault Refusal :=
  match i with
  -- field arithmetic (R110 to R115)
  | .fadd rd rs1 rs2 => Sys2Proof.Machine.execFadd rd rs1 rs2 s
  | .fsub rd rs1 rs2 => Sys2Proof.Machine.execFsub rd rs1 rs2 s
  | .fneg rd rs1 => Sys2Proof.Machine.execFneg rd rs1 s
  | .fhalf rd rs1 => Sys2Proof.Machine.execFhalf rd rs1 s
  | .fdbl rd rs1 => Sys2Proof.Machine.execFdbl rd rs1 s
  | .ftpl rd rs1 => Sys2Proof.Machine.execFtpl rd rs1 s
  -- field Montgomery products (R140 to R142)
  | .fmul rd rs1 rs2 => Sys2Proof.Machine.execFmul rd rs1 rs2 s
  | .fsqr rd rs1 => Sys2Proof.Machine.execFsqr rd rs1 s
  | .fsqrmul rd rs1 rs2 k => Sys2Proof.Machine.execFsqrmul rd rs1 rs2 k s
  -- field inversion (R161)
  | .finv rd rs1 => Sys2Proof.Machine.execFinv rd rs1 s
  -- scalar Montgomery products (R180 to R183)
  | .smul rd rs1 rs2 => Sys2Proof.Machine.execSmul rd rs1 rs2 s
  | .ssqr rd rs1 => Sys2Proof.Machine.execSsqr rd rs1 s
  | .stomont rd rs1 => Sys2Proof.Machine.execStomont rd rs1 s
  | .ssqrmul rd rs1 rs2 k => Sys2Proof.Machine.execSsqrmul rd rs1 rs2 k s
  -- scalar inversion (R201)
  | .sinv rd rs1 => Sys2Proof.Machine.execSinv rd rs1 s
  -- point table selector (R220)
  | .psel rd rs1 rs2 => Sys2Proof.Machine.execPsel rd rs1 rs2 s

end Sys2Proof.Machine
end

