-- ==== Sys2Proof/Machine/Complete.lean ====
section
/-! DEFINITION. The Core's completion step (spec/70_reset_and_hazards.md R280). -/

namespace Sys2Proof.Machine

/-- R280: run the rule of the accepted command, then busy <- 0 and STATUS.DONE <- 1. Acceptance only
stores commands that decode (R244), so the fault is for states that no run reaches. -/
def complete (s : State) : Host.Outcome State Fault Refusal :=
  match decode (s.pend.setWidth 64) with
  | .error _ => .fault (.pendNotACommand s.pend)
  | .ok i =>
    match exec i s with
    | .next t => .next (finish t)
    | .fault f => .fault f
    | .refused r => .refused r

end Sys2Proof.Machine
end

