-- ==== Sys2Proof/Machine/Events.lean ====
section
/-! DEFINITION. One event: a Host access, a completion slot, or a power-on reset
(spec/10_state.md R20, spec/20_memory.md R62, spec/60_exceptions.md R246, spec/70_reset_and_hazards.md
R270, R280, R283).
-/

namespace Sys2Proof.Machine

/-- A completion slot: completion is "enabled iff busy == 1" (R280), so the slot passes with no effect
on an idle block. -/
def completionSlot (s : State) : Host.Outcome State Fault Refusal :=
  if s.busy then complete s else .next s

/-- One event, in the state from whose list it has been taken. -/
def stepEvent (e : Event) (s : State) : Host.Outcome State Fault Refusal :=
  match e with
  | .access a => hostAccess a s
  | .complete => completionSlot s
  | .powerOn => .next (powerOnReset s)

/-- The state with the first event taken off the list. -/
def popEvent (s : State) : State := { s with events := s.events.tail }

/-- What the machine does next. Take the next event; with none left, a busy Core completes (the weak
fairness of R283), and an idle block stays as it is (R285). At a model fault of R252 the machine goes on, as
the hardware does, with the stored bits or with a free value. -/
def takeEvent (s : State) : Host.Outcome State Fault Refusal :=
  match s.events with
  | [] => completionSlot s
  | e :: _ => stepEvent e (popEvent s)

/-- The word w of spec/opcode_table.json stands where the next step runs it. A command is accepted as R244
accepts it on an idle block, with a completion slot next. A word that is no command never executes (R77), so
it is submitted to an idle block as a CMD write, and the next step raises the error that the decoder names. -/
def placeCommand (w : Nat) (s : State) : State :=
  match decode (BitVec.ofNat 64 w) with
  | .ok _ => { accept (BitVec.ofNat 32 w) s with events := .complete :: s.events }
  | .error _ =>
    { s with busy := false, events := .access (.write 0x018 8 (BitVec.ofNat 64 w)) :: s.events }

end Sys2Proof.Machine
end

