-- ==== Sys2Proof/Machine/Step.lean ====
section
/-! DEFINITION. One step of the machine (spec/20_memory.md R62, spec/70_reset_and_hazards.md R280, R283,
R285), and the placing of a command where the next step runs it. -/

namespace Sys2Proof.Machine

/-- One step: what the machine does next. It goes on past a model fault of R252, as the hardware does; a run
that stops there, as R252 asks of a model, is `modelRun` (Machine/ModelRun.lean). -/
def step (s : State) : Host.Outcome State Fault Refusal := takeEvent s

/-- `s` with the command of the table word `w` accepted and about to complete (log entry 2). The block has
no program counter and fetches nothing (R25, R65), so this stands for the Host's CMD write. -/
def State.withFetchWord (s : State) (nbits w : Nat) : State := placeCommand (w % 2 ^ nbits) s

end Sys2Proof.Machine
end

