-- ==== Sys2Proof/Machine/ModelRun.lean ====
section
/-! DEFINITION. The stop at a model fault (spec/00_scope.md R16, spec/10_state.md R24, spec/40_field_arith.md
R100, spec/43_scalar_arith.md R179, spec/60_exceptions.md R252). `step` does what the hardware does;
`modelStep` and `modelRun` stop where R252 says that a model stops (log entry 4). -/

namespace Sys2Proof.Machine

/-- One step that stops at a model fault: "A model must stop with that fault and not continue with a value"
(R16), "A model that reaches one stops there" (R252). -/
def modelStep (s : State) : Except ModelFault (Host.Outcome State Fault Refusal) :=
  match step s with
  | .next t =>
    match t.undef with
    | none => .ok (.next t)
    | some u => .error u
  | .fault f => .ok (.fault f)
  | .refused r => .ok (.refused r)

/-- n steps that stop at the first model fault, or where a step answers no next state. -/
def modelRun : Nat → State → Except ModelFault (Host.Outcome State Fault Refusal)
  | 0, s => .ok (.next s)
  | n + 1, s =>
    match modelStep s with
    | .error u => .error u
    | .ok (.next t) => modelRun n t
    | .ok (.fault f) => .ok (.fault f)
    | .ok (.refused r) => .ok (.refused r)

end Sys2Proof.Machine
end

