-- ==== Sys2Proof/Safety.lean ====
section
/-! DEFINITION. The terms that claims about P384CORE use: what a frame keeps, what an inverse is
(spec/00_scope.md R15), the invariant of every run, and when a run is over and final
(spec/70_reset_and_hazards.md R285, spec/60_exceptions.md R252).
-/

namespace Sys2Proof

open Machine

/-! ### Frames -/

/-- Every operand word outside `ds`, and every flag `written` of it, is the same in both states. -/
def WordsKept (ds : List WordIdx) (s t : State) : Prop :=
  ∀ k, k ∉ ds → readWord k t = readWord k s ∧ ∀ j, limbWritten k j t = limbWritten k j s

/-- ERR and ERRINFO are the same in both states. -/
def ErrorKept (s t : State) : Prop := t.err = s.err ∧ t.errInfo = s.errInfo

/-- Every register but ERR and ERRINFO is the same in both states: DBG_EN, DONE, LAST_CMD, INT_EN,
busy, pend and pdbg. So are the model's `events` and `resp`. -/
def ControlKept (s t : State) : Prop :=
  t.ctrlDbg = s.ctrlDbg ∧ t.done = s.done ∧ t.lastCmd = s.lastCmd ∧ t.intEn = s.intEn ∧
  t.busy = s.busy ∧ t.pend = s.pend ∧ t.pdbg = s.pdbg ∧ t.events = s.events ∧ t.resp = s.resp

/-- `t` is `s` after a command with the one destination `rd` wrote `v` there, setting its six flags,
with every other word and every register unchanged (R101). -/
def Wrote (rd : WordIdx) (v : Word) (s t : State) : Prop :=
  readWord rd t = v ∧ (∀ j, limbWritten rd j t = true) ∧ WordsKept [rd] s t ∧
  ErrorKept s t ∧ ControlKept s t

/-- An offset of the window is one of the 48 stored bytes of word k (R52). -/
def InWordBytes (k : WordIdx) (o : Nat) : Prop := 0x1000 + 0x40 * k.val ≤ o ∧ o < 0x1030 + 0x40 * k.val

/-- An offset of the window is a byte of STATUS or of ERRINFO (R51). -/
def InErrorBytes (o : Nat) : Prop := (0x010 ≤ o ∧ o < 0x018) ∨ (0x028 ≤ o ∧ o < 0x030)

/-- Every source word of the command has been written (R24). -/
def SourcesWritten (i : Instr) (s : State) : Prop := ∀ k ∈ sources i, wordWritten k s = true

/-- The two states agree on everything but the contents of the operand words, their flags, and the
model fault reached. -/
def SameRegisters (s t : State) : Prop := ErrorKept s t ∧ ControlKept s t

/-! ### Arithmetic -/

/-- R15: y is inv_m(x), "the integer y in [1, m) with x·y ≡ 1 (mod m)". -/
def IsInverse (m x y : Nat) : Prop := 1 ≤ y ∧ y < m ∧ x * y % m = 1

/-- The modulus of a command's operands: Q for the field commands (R100), N for the scalar commands
(R179), none for PSEL, whose table has no range precondition (R219). -/
def operandModulus : Instr → Option Modulus
  | .fadd _ _ _ => some .field
  | .fsub _ _ _ => some .field
  | .fneg _ _ => some .field
  | .fhalf _ _ => some .field
  | .fdbl _ _ => some .field
  | .ftpl _ _ => some .field
  | .fmul _ _ _ => some .field
  | .fsqr _ _ => some .field
  | .fsqrmul _ _ _ _ => some .field
  | .finv _ _ => some .field
  | .smul _ _ _ => some .scalar
  | .ssqr _ _ => some .scalar
  | .stomont _ _ => some .scalar
  | .ssqrmul _ _ _ _ => some .scalar
  | .sinv _ _ => some .scalar
  | .psel _ _ _ => none

/-- Every operand precondition of the command holds: R100, R179, and i <= 16 for PSEL (R250). -/
def OperandsOk (i : Instr) (s : State) : Prop :=
  match operandModulus i with
  | some m => ∀ k ∈ sources i, (readWord k s).toNat < m.value
  | none => ∀ k ∈ (sources i).head?, (readWord k s).toNat ≤ 16

/-- The command's result is defined: pdbg = 1, or every operand of a field or scalar command in range (R100,
R179). PSEL defines it for every index (R220). -/
def ResultDefined (i : Instr) (s : State) : Prop :=
  s.pdbg = true ∨ ∀ m, operandModulus i = some m → ∀ k ∈ sources i, (readWord k s).toNat < m.value

/-! ### Whole runs -/

/-- The word is a command of the block (R81). -/
def isCommand (c : BitVec 32) : Bool :=
  match decode (c.setWidth 64) with
  | .ok _ => true
  | .error _ => false

/-- What holds in every state a run passes (R28, R29, R34, R241, R244, R280): `pend` is LAST_CMD; a
busy Core has a legal command pending and DONE clear; DONE is only set after a legal command;
LAST_CMD is 0 or legal; ERRINFO is 0 exactly while ERR is clear. -/
structure Inv (s : State) : Prop where
  pend_is_last : s.pend = s.lastCmd
  last_legal : s.lastCmd = 0#32 ∨ isCommand s.lastCmd = true
  busy_legal : s.busy = true → isCommand s.pend = true
  busy_not_done : s.busy = true → s.done = false
  done_legal : s.done = true → isCommand s.lastCmd = true
  no_error : s.err = false → s.errInfo = ⟨.none, 0#32⟩
  error_named : s.err = true → s.errInfo.code ≠ .none

/-- R285: the Host has made its last access and the Core is idle. -/
def RunOver (s : State) : Prop := s.events = [] ∧ s.busy = false

/-- R252, R285: the run is over and has reached no model fault: "A state that has reached a model fault ...
is never final". -/
def Final (s : State) : Prop := RunOver s ∧ s.undef = none

/-- Every remaining Host access is inside the window (R50). -/
def EventsInWindow (s : State) : Prop := ∀ a, Event.access a ∈ s.events → a.inWindow = true

end Sys2Proof
end

