-- ==== Sys2Proof/Certificates/Slice0/Obligations.lean ====
section
/-! DEFINITION. The statements for the provers, one `def Obligations.<Name> : Prop` each, in the order of
spec/. Each docstring names the rule it formalises. None rests on the value the model gives an operand
word at reset (log entry 1) or on a free value.

`step` goes on past a model fault of R252, as the hardware does; `modelStep` and `modelRun` stop there, as
R16 and R252 say that a model does (log entry 4). -/

open Sys2Proof Sys2Proof.Machine

/-! ### Constants (spec/00_scope.md R13, R15; spec/10_state.md R27) -/

/-- R13: the stored constants and the values "given for the reader" are what their formulas say:
Q = 2^384 - 2^128 - 2^96 + 2^32 - 1, HALF_Q = (Q+1)/2, RR_N = R^2 mod N, N0 = -m^-1 mod 2^64, and
R mod Q, R^2 mod Q, R mod N; the limbs of N; and the model's two constants are inv_m(R) (R15). -/
def Obligations.ConstantStoreHoldsItsFormulas : Prop :=
  Config.R = 2 ^ 384 ∧
  Config.Q + 2 ^ 128 + 2 ^ 96 + 1 = 2 ^ 384 + 2 ^ 32 ∧
  Config.N = 0xecec196accc52973 + 2 ^ 64 * 0x581a0db248b0a77a + 2 ^ 128 * 0xc7634d81f4372ddf +
    2 ^ 192 * (2 ^ 192 - 1) ∧
  2 * Config.HALF_Q = Config.Q + 1 ∧
  Config.RR_N = Config.R ^ 2 % Config.N ∧
  (Config.Q * Config.N0_Q + 1) % 2 ^ 64 = 0 ∧ Config.N0_Q < 2 ^ 64 ∧
  (Config.N * Config.N0_N + 1) % 2 ^ 64 = 0 ∧ Config.N0_N < 2 ^ 64 ∧
  Config.R_MOD_Q = Config.R % Config.Q ∧ Config.RR_Q = Config.R ^ 2 % Config.Q ∧
  Config.R_MOD_N = Config.R % Config.N ∧
  IsInverse Config.Q Config.R Config.RINV_Q ∧ IsInverse Config.N Config.R Config.RINV_N

/-! ### Reset (spec/70_reset_and_hazards.md R271 to R273) -/

/-- R271: after power-on reset every register is 0, every `written` flag is clear, the six registers read
as vector Z-1 of spec/95_test_vectors.md says, the padding limbs read 0, and irq is 0. Nothing is said of
the operand words: R271 leaves them UNSPECIFIED. -/
def Obligations.ResetStateIsAsTheTableSays : Prop :=
  let s := State.reset
  s.ctrlDbg = false ∧ s.busy = false ∧ s.done = false ∧ s.err = false ∧ s.lastCmd = 0#32 ∧
  s.intEn = ⟨false, false⟩ ∧ s.errInfo = ⟨.none, 0#32⟩ ∧ s.pend = 0#32 ∧ s.pdbg = false ∧
  (∀ k j, limbWritten k j s = false) ∧
  peek 0x000 s = 0x0040400134383350#64 ∧ peek 0x008 s = 0#64 ∧ peek 0x010 s = 0#64 ∧
  peek 0x018 s = 0#64 ∧ peek 0x020 s = 0#64 ∧ peek 0x028 s = 0#64 ∧
  (∀ k : WordIdx, peek (0x1030 + 0x40 * k.val) s = 0#64 ∧ peek (0x1038 + 0x40 * k.val) s = 0#64) ∧
  irq s = false

/-- R271, R272: a power-on reset in mid-run gives the registers, the flags and irq of R271 whatever the
state was; a busy Core's command is abandoned. The rest of the run's events stay (model: log entry 2). -/
def Obligations.PowerOnResetClearsEverything : Prop :=
  ∀ (s : State) (es : List Event), s.events = .powerOn :: es →
    ∃ t, step s = .next t ∧
      t.ctrlDbg = false ∧ t.busy = false ∧ t.done = false ∧ t.err = false ∧ t.lastCmd = 0#32 ∧
      t.intEn = ⟨false, false⟩ ∧ t.errInfo = ⟨.none, 0#32⟩ ∧ t.pend = 0#32 ∧ t.pdbg = false ∧
      (∀ k j, limbWritten k j t = false) ∧ irq t = false ∧ t.events = es

/-- R273: a legal CTRL write with v[1] = 1 is a soft reset, in the step of the write: busy, pend, pdbg,
DBG_EN, DONE, ERR, LAST_CMD, INT_EN and ERRINFO become 0, an accepted command is abandoned, and the
operand words and their flags are unchanged. With v[1] = 0 it writes DBG_EN <- v[0] and nothing else. -/
def Obligations.CtrlWriteSetsDebugOrResets : Prop :=
  ∀ (s : State) (v : BitVec 64) (es : List Event),
    s.events = .access (.write 0x008 8 v) :: es →
    ∃ t, step s = .next t ∧ t.events = es ∧ t.resp = some (.write false) ∧ WordsKept [] s t ∧
      (v.getLsbD 1 = true →
        t.busy = false ∧ t.pend = 0#32 ∧ t.pdbg = false ∧ t.ctrlDbg = false ∧ t.done = false ∧
        t.err = false ∧ t.lastCmd = 0#32 ∧ t.intEn = ⟨false, false⟩ ∧ t.errInfo = ⟨.none, 0#32⟩) ∧
      (v.getLsbD 1 = false →
        t.ctrlDbg = v.getLsbD 0 ∧ t.busy = s.busy ∧ t.pend = s.pend ∧ t.pdbg = s.pdbg ∧
        t.done = s.done ∧ t.lastCmd = s.lastCmd ∧ t.intEn = s.intEn ∧ ErrorKept s t)

/-! ### Registers of the window (spec/10_state.md R27 to R32, spec/20_memory.md R50 to R59) -/

/-- R27 to R32, R51, R53, R242: what a legal read of each register offset returns, idle or busy, as a
number: ID is the constant; CTRL is DBG_EN; STATUS is BUSY + 2·DONE + 4·ERR; CMD is LAST_CMD; INT_EN is
DONE_IE + 2·ERR_IE; ERRINFO is CODE + 2^32·INFO, CODE being the number of R242's table for each of its nine
names; every reserved offset is 0. -/
def Obligations.RegisterReadsReturnTheirFields : Prop :=
  ∀ (s : State) (es : List Event) (off : Nat), off % 8 = 0 → off < 0x1000 →
    s.events = .access (.read off 8) :: es →
    ∃ v : BitVec 64, step s = .next { s with events := es, resp := some (.read v false) } ∧
      (off = 0x000 → v = 0x0040400134383350#64) ∧
      (off = 0x008 → v.toNat = s.ctrlDbg.toNat) ∧
      (off = 0x010 → v.toNat = s.busy.toNat + 2 * s.done.toNat + 4 * s.err.toNat) ∧
      (off = 0x018 → v.toNat = s.lastCmd.toNat) ∧
      (off = 0x020 → v.toNat = s.intEn.doneIe.toNat + 2 * s.intEn.errIe.toNat) ∧
      (off = 0x028 → ∃ n, v.toNat = n + 2 ^ 32 * s.errInfo.info.toNat ∧
        (s.errInfo.code, n) ∈ [(.none, 0), (.illegalOp, 1), (.reservedField, 2), (.badImm, 3), (.range, 4),
          (.busy, 5), (.accessWhileBusy, 6), (.invariant, 7), (.busAccess, 8)]) ∧
      (0x030 ≤ off → v = 0#64)

/-- R28, R241, R249: a legal STATUS write clears DONE if bit 1 is set, and ERR and ERRINFO together if bit
2 is set; bit 0 and bits 63:3 are ignored; nothing else changes, idle or busy. -/
def Obligations.StatusWriteClearsDoneAndError : Prop :=
  ∀ (s : State) (v : BitVec 64) (es : List Event),
    s.events = .access (.write 0x010 8 v) :: es →
    ∃ t, step s = .next t ∧ t.events = es ∧ t.resp = some (.write false) ∧ WordsKept [] s t ∧
      t.done = (s.done && !v.getLsbD 1) ∧
      t.err = (s.err && !v.getLsbD 2) ∧
      t.errInfo = (if v.getLsbD 2 then ⟨.none, 0#32⟩ else s.errInfo) ∧
      t.busy = s.busy ∧ t.ctrlDbg = s.ctrlDbg ∧ t.lastCmd = s.lastCmd ∧ t.intEn = s.intEn ∧
      t.pend = s.pend ∧ t.pdbg = s.pdbg

/-- R31, R247: a legal INT_EN write sets DONE_IE to bit 0 and ERR_IE to bit 1 at once, idle or busy, and
changes nothing else; and irq, at every state, is (DONE and DONE_IE) or (ERR and ERR_IE). -/
def Obligations.InterruptEnablesAndTheInterruptLine : Prop :=
  (∀ (s : State) (v : BitVec 64) (es : List Event),
    s.events = .access (.write 0x020 8 v) :: es →
    step s = .next { s with
      events := es, resp := some (.write false), intEn := ⟨v.getLsbD 0, v.getLsbD 1⟩ }) ∧
  ∀ s : State,
    irq s = true ↔ (s.done = true ∧ s.intEn.doneIe = true) ∨ (s.err = true ∧ s.intEn.errIe = true)

/-- R53: a legal write to a reserved offset, to ID or to ERRINFO changes nothing but the response, and
raises no error. -/
def Obligations.ReadOnlyAndReservedWritesAreIgnored : Prop :=
  ∀ (s : State) (v : BitVec 64) (es : List Event) (off : Nat), off % 8 = 0 →
    (off = 0x000 ∨ (0x028 ≤ off ∧ off < 0x1000)) →
    s.events = .access (.write off 8 v) :: es →
    step s = .next { s with events := es, resp := some (.write false) }

/-- R52, R24, R57: on an idle block a legal write of x at 0x1000 + 0x40·k + 8·j makes limb j of W[k] equal
to x and sets `written[k][j]`; every other limb, flag and register is unchanged. -/
def Obligations.LimbWriteStoresOneLimb : Prop :=
  ∀ (s : State) (x : BitVec 64) (es : List Event) (k : WordIdx) (j : LimbIdx),
    s.busy = false →
    s.events = .access (.write (0x1000 + 0x40 * k.val + 8 * j.val) 8 x) :: es →
    ∃ t, step s = .next t ∧ t.events = es ∧ t.resp = some (.write false) ∧
      limb (readWord k t) j = x ∧ limbWritten k j t = true ∧
      (∀ j', j' ≠ j → limb (readWord k t) j' = limb (readWord k s) j' ∧
        limbWritten k j' t = limbWritten k j' s) ∧
      WordsKept [k] s t ∧ ErrorKept s t ∧
      ControlKept s { t with events := s.events, resp := s.resp }

/-- R52, R58, R24, R252: on an idle block a legal read at 0x1000 + 0x40·k + 8·j returns limb j of W[k], with no
error and no other effect of the hardware. For an unwritten limb those are "whatever bits the storage holds", and
the read is the model fault UninitRead(k, j), which stays noted if no earlier one was; a run of the model, which
has reached no model fault before, stops there, and goes on at a written limb (model: log entry 4). -/
def Obligations.LimbReadReturnsTheStoredLimb : Prop :=
  ∀ (s : State) (es : List Event) (k : WordIdx) (j : LimbIdx), s.busy = false →
    s.events = .access (.read (0x1000 + 0x40 * k.val + 8 * j.val) 8) :: es →
    step s = .next { s with
      events := es
      resp := some (.read ((readWord k s).extractLsb' (64 * j.val) 64) false)
      undef := if limbWritten k j s then s.undef else (s.undef <|> some (.uninitRead k j)) } ∧
    (s.undef = none →
      (limbWritten k j s = true → modelStep s = .ok (step s)) ∧
      (limbWritten k j s = false → modelStep s = .error (.uninitRead k j)))

/-- R52: the padding limbs 6 and 7 read 0 and ignore writes, set no `written` flag, and raise no error on
an idle block. -/
def Obligations.PaddingLimbsReadZeroAndIgnoreWrites : Prop :=
  ∀ (s : State) (v : BitVec 64) (es : List Event) (k : WordIdx) (j : Nat),
    s.busy = false → (j = 6 ∨ j = 7) →
    (s.events = .access (.read (0x1000 + 0x40 * k.val + 8 * j) 8) :: es →
      step s = .next { s with events := es, resp := some (.read 0#64 false) }) ∧
    (s.events = .access (.write (0x1000 + 0x40 * k.val + 8 * j) 8 v) :: es →
      step s = .next { s with events := es, resp := some (.write false) })

/-- R54, R50, R59: limb 0 of a word holds its least significant 64 bits, and limb j the next ones; a legal read
at `off` responds with `peek off` and no bus error, written or not, busy or idle; that a read which BUSY locks
out gets no bus error is DEDUCED (model: log entry 9). Byte b of `peek off` is its bits [8b+7:8b], and the Host
finds it at byte address BASE + off + b, register or operand word; no byte of the block is outside
BASE..BASE+0x1FFF. -/
def Obligations.BytesAreLittleEndian : Prop :=
  (∀ (w : Word) (j : LimbIdx), (limb w j).toNat = w.toNat / 2 ^ (64 * j.val) % 2 ^ 64) ∧
  (∀ (s : State) (es : List Event) (off : Nat), off % 8 = 0 → off < 0x2000 →
    s.events = .access (.read off 8) :: es →
    ∃ t, step s = .next t ∧ t.resp = some (.read (peek off s) false)) ∧
  (∀ (s : State) (off b : Nat), off % 8 = 0 → off < 0x2000 → b < 8 →
    windowByte (Config.base + off + b) s = some ((peek off s).extractLsb' (8 * b) 8)) ∧
  (∀ (s : State) (a : Nat), a < Config.base ∨ Config.base + 0x2000 ≤ a → windowByte a s = none)

/-- R56, R242, R243: an access of a size other than 8 or at an offset that is no multiple of 8 gets an
error response, a read returns 0, no register or operand word changes but ERR and ERRINFO, and
BUS_ACCESS is raised with INFO = off[12:0] | (is_write << 16), busy or not. -/
def Obligations.IllegalAccessRaisesBusAccess : Prop :=
  ∀ (s : State) (es : List Event) (off size : Nat) (v : BitVec 64), off < 0x2000 →
    (size ≠ 8 ∨ off % 8 ≠ 0) →
    (s.events = .access (.read off size) :: es →
      step s = .next { s with
        events := es, resp := some (.read 0#64 true), err := true
        errInfo := if s.err then s.errInfo else ⟨.busAccess, BitVec.ofNat 32 off⟩ }) ∧
    (s.events = .access (.write off size v) :: es →
      step s = .next { s with
        events := es, resp := some (.write true), err := true
        errInfo := if s.err then s.errInfo else ⟨.busAccess, BitVec.ofNat 32 (off + 2 ^ 16)⟩ })

/-- R59, R242: while BUSY, a legal access to 0x1000..0x1FF8 is locked out: a write is dropped, a read
returns 0, and ACCESS_WHILE_BUSY is raised with INFO = off[12:0] | (is_write << 16). Nothing else
changes, so the running command is not disturbed (R245). -/
def Obligations.BusyLocksTheOperandWords : Prop :=
  ∀ (s : State) (es : List Event) (off : Nat) (v : BitVec 64), s.busy = true →
    off % 8 = 0 → 0x1000 ≤ off → off < 0x2000 →
    (s.events = .access (.read off 8) :: es →
      step s = .next { s with
        events := es, resp := some (.read 0#64 false), err := true
        errInfo := if s.err then s.errInfo else ⟨.accessWhileBusy, BitVec.ofNat 32 off⟩ }) ∧
    (s.events = .access (.write off 8 v) :: es →
      step s = .next { s with
        events := es, resp := some (.write false), err := true
        errInfo := if s.err then s.errInfo else ⟨.accessWhileBusy, BitVec.ofNat 32 (off + 2 ^ 16)⟩ })

/-- R50, vector B-13 (model: the fault's name): an access at or above 0x2000 is no access to this block,
and the machine stops on it. -/
def Obligations.AccessOutsideTheWindowStops : Prop :=
  ∀ (s : State) (es : List Event) (a : Access), 0x2000 ≤ a.off → s.events = .access a :: es →
    step s = .fault (.outsideWindow a.off)

/-! ### Encoding (spec/30_encoding.md R70 to R84) -/

/-- R84, R81: encoding a command and decoding the CMD value gives the command back, with every operand at
every value the encoding admits. -/
def Obligations.DecodeOfEncodeIsTheCommand : Prop :=
  ∀ i : Instr, i.wf = true → decode (cmdValue i) = .ok i

/-- R81, R77: every CMD value that decodes is the encoding of the command it gives, so each command has
one CMD value and no other value executes as it. -/
def Obligations.EveryDecodedValueIsItsEncoding : Prop :=
  ∀ (v : BitVec 64) (i : Instr), decode v = .ok i → i.wf = true ∧ cmdValue i = v

/-- R81, written over the value as a number: the first failing check, in the order of R81, names the
error; when none fails the value is the command whose encoding it is. -/
def Obligations.DecoderNamesTheFirstFailingCheck : Prop :=
  ∀ v : BitVec 64,
    let n := v.toNat
    let op := n % 2 ^ 6
    let rd := n / 2 ^ 6 % 2 ^ 6
    let rs1 := n / 2 ^ 12 % 2 ^ 6
    let c := n % 2 ^ 32
    let two := op ∈ [0x01, 0x02, 0x08, 0x10, 0x20]
    let one := op ∈ [0x03, 0x04, 0x05, 0x06, 0x09, 0x0B, 0x11, 0x12, 0x14]
    let counted := op ∈ [0x0A, 0x13]
    let legal := two ∨ one ∨ counted
    let zeros := n / 2 ^ 32 = 0 ∧ (two → c / 2 ^ 24 = 0) ∧ (one → c / 2 ^ 18 = 0)
    let countBad := counted ∧ c / 2 ^ 24 = 0
    let rangeBad := op = 0x20 ∧ (16 < rs1 ∨ 61 < rd)
    (decode v = .error .illegalOp ↔ ¬ legal) ∧
    (decode v = .error .reservedField ↔ legal ∧ ¬ zeros) ∧
    (decode v = .error .badImm ↔ legal ∧ zeros ∧ countBad) ∧
    (decode v = .error .range ↔ legal ∧ zeros ∧ ¬ countBad ∧ rangeBad) ∧
    ((∃ i, decode v = .ok i ∧ i.opcode.toNat = op ∧ cmdValue i = v) ↔ legal ∧ zeros ∧ ¬ countBad ∧ ¬ rangeBad)

/-- R79, R80, R142, R183 (model: the name of the refusal, log entry 15): FSQRMUL and SSQRMUL with a count of 0,
and PSEL with RS1 > 16 or RD > 61, are rejected when submitted, and no meaning runs them. -/
def Obligations.IllFormedCommandsNeverExecute : Prop :=
  ∀ (s : State) (rd rs1 rs2 : WordIdx),
    (decode (cmdValue (.fsqrmul rd rs1 rs2 0#8)) = .error .badImm ∧
      exec (.fsqrmul rd rs1 rs2 0#8) s = .refused .illFormed) ∧
    (decode (cmdValue (.ssqrmul rd rs1 rs2 0#8)) = .error .badImm ∧
      exec (.ssqrmul rd rs1 rs2 0#8) s = .refused .illFormed) ∧
    (16 < rs1.val ∨ 61 < rd.val →
      decode (cmdValue (.psel rd rs1 rs2)) = .error .range ∧
      exec (.psel rd rs1 rs2) s = .refused .illFormed)

/-- Table 3.1 of spec/95_test_vectors.md: all its seventeen words, one or two for each command, decode to the
commands they stand for. -/
def Obligations.ListedEncodingsDecode : Prop :=
  decode 0x00040081#64 = .ok (.fadd 2 0 1) ∧ decode 0x00103142#64 = .ok (.fsub 5 3 4) ∧
  decode 0x000061C3#64 = .ok (.fneg 7 6) ∧ decode 0x0003EFC4#64 = .ok (.fhalf 63 62) ∧
  decode 0x00001045#64 = .ok (.fdbl 1 1) ∧ decode 0x00008246#64 = .ok (.ftpl 9 8) ∧
  decode 0x000400C8#64 = .ok (.fmul 3 0 1) ∧ decode 0x00004109#64 = .ok (.fsqr 4 4) ∧
  decode 0x2130B28A#64 = .ok (.fsqrmul 10 11 12 33#8) ∧ decode 0x0000310B#64 = .ok (.finv 4 3) ∧
  decode 0x00083110#64 = .ok (.smul 4 3 2) ∧ decode 0x000031D1#64 = .ok (.ssqr 7 3) ∧
  decode 0x000000D2#64 = .ok (.stomont 3 0) ∧ decode 0xFF104193#64 = .ok (.ssqrmul 6 4 4 255#8) ∧
  decode 0x00000094#64 = .ok (.sinv 2 0) ∧ decode 0x00010060#64 = .ok (.psel 1 16 0) ∧
  decode 0x00FD0F60#64 = .ok (.psel 61 16 63)

/-! ### Errors, submission and completion (spec/60_exceptions.md, spec/70_reset_and_hazards.md) -/

/-- R240, R241: an error event records its code and INFO if ERR was clear and nothing if ERR was set, sets
ERR, and changes no other register and no operand word. -/
def Obligations.ErrorEventRecordsTheFirstCause : Prop :=
  ∀ (s : State) (c : ErrCode) (i : BitVec 32),
    let t := raiseError c i s
    t.err = true ∧ (s.err = false → t.errInfo = ⟨c, i⟩) ∧ (s.err = true → t.errInfo = s.errInfo) ∧
    WordsKept [] s t ∧ ControlKept s t

/-- R244, R243: the complete effect of a legal CMD write. While busy it raises BUSY whatever the value is
and the running command is kept; a value that does not decode raises ILLEGAL_OP, RESERVED_FIELD, BAD_IMM
or RANGE, as the decoder's error is (R76, R78, R79, R80); in both cases nothing but ERR and ERRINFO changes. A
command is accepted: busy <- 1, pend and LAST_CMD <- v[31:0],
pdbg <- DBG_EN, DONE <- 0, and nothing else. -/
def Obligations.CommandSubmission : Prop :=
  ∀ (s : State) (v : BitVec 64) (es : List Event),
    s.events = .access (.write 0x018 8 v) :: es →
    (s.busy = true →
      step s = .next { raiseError .busy (v.setWidth 32) s with
        events := es, resp := some (.write false) }) ∧
    (∀ (e : DecodeError) (c : ErrCode), (e, c) ∈ [(.illegalOp, .illegalOp),
        (.reservedField, .reservedField), (.badImm, .badImm), (.range, .range)] →
      s.busy = false → decode v = .error e →
      step s = .next { raiseError c (v.setWidth 32) s with
        events := es, resp := some (.write false) }) ∧
    (∀ i, s.busy = false → decode v = .ok i →
      step s = .next { s with
        events := es, resp := some (.write false), busy := true, pend := v.setWidth 32
        pdbg := s.ctrlDbg, lastCmd := v.setWidth 32, done := false })

/-- R280, R252: with `busy = 1` and a command pending, the completion step runs exactly exec of the decoded
command and then sets busy <- 0 and DONE <- 1. It is taken at a completion slot, or when no event is left
(model: log entry 2). A run of the model takes that step where no model fault has been reached, and stops with
the fault where one has (model: log entry 4). No model fault is reached where every source word is written and
the result is defined. -/
def Obligations.StepRunsTheAcceptedCommand : Prop :=
  ∀ (s : State) (i : Instr), s.busy = true → (s.events = [] ∨ s.events.head? = some .complete) →
    decode (s.pend.setWidth 64) = .ok i →
    ∃ t, exec i { s with events := s.events.tail } = .next t ∧
      step s = .next { t with busy := false, done := true } ∧
      (t.undef = none → modelStep s = .ok (step s)) ∧
      (∀ u, t.undef = some u → modelStep s = .error u) ∧
      (s.undef = none → SourcesWritten i s → ResultDefined i s → t.undef = none)

/-- R280 (model: withFetchWord, log entry 2): a command placed as the next to complete is run by the very
next step, in every state, with the DBG_EN of the moment. -/
def Obligations.PlacedCommandRunsNext : Prop :=
  ∀ (s : State) (i : Instr), i.wf = true →
    ∃ t, exec i { s with busy := true, pend := encode i, pdbg := s.ctrlDbg, lastCmd := encode i,
                         done := false } = .next t ∧
      step (s.withFetchWord 32 (encode i).toNat) = .next { t with busy := false, done := true }

/-- R245, R281: no Host access but a soft reset changes an accepted command while it runs: busy, pend,
pdbg, LAST_CMD, DONE up to its W1C, and every operand word stay. -/
def Obligations.HostAccessesDoNotDisturbARunningCommand : Prop :=
  ∀ (s t : State) (a : Access) (es : List Event), s.busy = true → s.events = .access a :: es →
    (∀ v : BitVec 64, a = .write 0x008 8 v → v.getLsbD 1 = false) → step s = .next t →
    t.busy = true ∧ t.pend = s.pend ∧ t.pdbg = s.pdbg ∧ t.lastCmd = s.lastCmd ∧ t.words = s.words ∧
    t.written = s.written ∧ (s.done = false → t.done = false) ∧ t.events = es

/-- R29, R244, R271, R273: whatever a step does, LAST_CMD changes only by an accepted CMD write, a soft reset
or a power-on reset. -/
def Obligations.OnlyAcceptanceAndResetChangeLastCmd : Prop :=
  ∀ (s t : State), step s = .next t → t.lastCmd ≠ s.lastCmd →
    (∃ v i, s.events.head? = some (.access (.write 0x018 8 v)) ∧ s.busy = false ∧ decode v = .ok i ∧
      t.lastCmd = v.setWidth 32) ∨
    (∃ v : BitVec 64, s.events.head? = some (.access (.write 0x008 8 v)) ∧ v.getLsbD 1 = true) ∨
    s.events.head? = some .powerOn

/-! ### Field arithmetic (spec/40_field_arith.md R110 to R116) -/

/-- R110: FADD. -/
def Obligations.FaddAddsModQ : Prop :=
  ∀ (s : State) (rd rs1 rs2 : WordIdx),
    (readWord rs1 s).toNat < Config.Q → (readWord rs2 s).toNat < Config.Q →
    encode (.fadd rd rs1 rs2) = enc 0x01#6 rd rs1 rs2 0#8 ∧
    ∃ t, exec (.fadd rd rs1 rs2) s = .next t ∧
      Wrote rd (BitVec.ofNat 384 (((readWord rs1 s).toNat + (readWord rs2 s).toNat) % Config.Q)) s t

/-- R111: FSUB. -/
def Obligations.FsubSubtractsModQ : Prop :=
  ∀ (s : State) (rd rs1 rs2 : WordIdx),
    (readWord rs1 s).toNat < Config.Q → (readWord rs2 s).toNat < Config.Q →
    encode (.fsub rd rs1 rs2) = enc 0x02#6 rd rs1 rs2 0#8 ∧
    ∃ t, exec (.fsub rd rs1 rs2) s = .next t ∧
      Wrote rd (BitVec.ofNat 384
        (((readWord rs1 s).toNat + (Config.Q - (readWord rs2 s).toNat)) % Config.Q)) s t

/-- R112: FNEG, with its edge case FNEG(0) = 0. -/
def Obligations.FnegNegatesModQ : Prop :=
  ∀ (s : State) (rd rs1 : WordIdx), (readWord rs1 s).toNat < Config.Q →
    encode (.fneg rd rs1) = enc 0x03#6 rd rs1 0 0#8 ∧
    ∃ t, exec (.fneg rd rs1) s = .next t ∧
      Wrote rd (BitVec.ofNat 384 ((Config.Q - (readWord rs1 s).toNat) % Config.Q)) s t

/-- R113: FDBL. -/
def Obligations.FdblDoublesModQ : Prop :=
  ∀ (s : State) (rd rs1 : WordIdx), (readWord rs1 s).toNat < Config.Q →
    encode (.fdbl rd rs1) = enc 0x05#6 rd rs1 0 0#8 ∧
    ∃ t, exec (.fdbl rd rs1) s = .next t ∧
      Wrote rd (BitVec.ofNat 384 (2 * (readWord rs1 s).toNat % Config.Q)) s t

/-- R114: FTPL. -/
def Obligations.FtplTriplesModQ : Prop :=
  ∀ (s : State) (rd rs1 : WordIdx), (readWord rs1 s).toNat < Config.Q →
    encode (.ftpl rd rs1) = enc 0x06#6 rd rs1 0 0#8 ∧
    ∃ t, exec (.ftpl rd rs1) s = .next t ∧
      Wrote rd (BitVec.ofNat 384 (3 * (readWord rs1 s).toNat % Config.Q)) s t

/-- R115: FHALF writes the value v < Q with 2·v = a (mod Q), which is (a · inv_Q(2)) mod Q; and the carry
that its debug invariant asks for is 0 for every u384, in range or not. -/
def Obligations.FhalfHalvesModQ : Prop :=
  (∀ a : Word, (add384 (a >>> 1) (BitVec.ofNat 384 Config.HALF_Q)).2 = false) ∧
  ∀ (s : State) (rd rs1 : WordIdx), (readWord rs1 s).toNat < Config.Q →
    encode (.fhalf rd rs1) = enc 0x04#6 rd rs1 0 0#8 ∧
    ∃ v t, exec (.fhalf rd rs1) s = .next t ∧ Wrote rd v s t ∧ v.toNat < Config.Q ∧
      2 * v.toNat % Config.Q = (readWord rs1 s).toNat ∧
      ∀ y, IsInverse Config.Q 2 y → v.toNat = (readWord rs1 s).toNat * y % Config.Q

/-- R113, R114, R116: FDBL is FADD of the word with itself, state for state, wherever the result is defined
(an in-range word, or any word with pdbg = 1). FTPL of an in-range word is FDBL into any word rx but the
source, followed by FADD of rx and the source: state for state if rx is FTPL's destination, and else up to rx,
which FTPL does not write. -/
def Obligations.DoublingAndTriplingAreAdditions : Prop :=
  (∀ (s : State) (rd rs1 : WordIdx), s.pdbg = true ∨ (readWord rs1 s).toNat < Config.Q →
    ∃ t, exec (.fdbl rd rs1) s = .next t ∧ exec (.fadd rd rs1 rs1) s = .next t) ∧
  (∀ (s : State) (rd rx rs1 : WordIdx), rx ≠ rs1 → (readWord rs1 s).toNat < Config.Q →
    ∃ t u v, exec (.ftpl rd rs1) s = .next t ∧ exec (.fdbl rx rs1) s = .next u ∧
      exec (.fadd rd rx rs1) u = .next v ∧ (rx = rd → v = t) ∧
      WordsKept [rx] t v ∧ v = { t with words := v.words, written := v.written })

/-! ### Field Montgomery products and inversion (spec/41_field_mont.md, spec/42_field_inversion.md) -/

/-- R140, R130: FMUL writes the value v < Q with v·R = a·b (mod Q), which is (a·b·inv_Q(R)) mod Q. -/
def Obligations.FmulIsTheMontgomeryProduct : Prop :=
  ∀ (s : State) (rd rs1 rs2 : WordIdx),
    (readWord rs1 s).toNat < Config.Q → (readWord rs2 s).toNat < Config.Q →
    encode (.fmul rd rs1 rs2) = enc 0x08#6 rd rs1 rs2 0#8 ∧
    ∃ v t, exec (.fmul rd rs1 rs2) s = .next t ∧ Wrote rd v s t ∧ v.toNat < Config.Q ∧
      v.toNat * 2 ^ 384 % Config.Q = (readWord rs1 s).toNat * (readWord rs2 s).toNat % Config.Q ∧
      ∀ y, IsInverse Config.Q (2 ^ 384) y →
        v.toNat = (readWord rs1 s).toNat * (readWord rs2 s).toNat * y % Config.Q

/-- R141: FSQR. -/
def Obligations.FsqrIsTheMontgomerySquare : Prop :=
  ∀ (s : State) (rd rs1 : WordIdx), (readWord rs1 s).toNat < Config.Q →
    encode (.fsqr rd rs1) = enc 0x09#6 rd rs1 0 0#8 ∧
    ∃ v t, exec (.fsqr rd rs1) s = .next t ∧ Wrote rd v s t ∧ v.toNat < Config.Q ∧
      v.toNat * 2 ^ 384 % Config.Q = (readWord rs1 s).toNat ^ 2 % Config.Q ∧
      ∀ y, IsInverse Config.Q (2 ^ 384) y → v.toNat = (readWord rs1 s).toNat ^ 2 * y % Config.Q

/-- R142: FSQRMUL, in the closed form of the rule: with a = Mont_Q(A) and b = Mont_Q(B) the result is
Mont_Q(A^(2^k)·B mod Q). Every a and b in [0, Q) is such. -/
def Obligations.FsqrmulSquaresThenMultiplies : Prop :=
  ∀ (s : State) (rd rs1 rs2 : WordIdx) (k : BitVec 8), k ≠ 0#8 →
    (readWord rs1 s).toNat < Config.Q → (readWord rs2 s).toNat < Config.Q →
    encode (.fsqrmul rd rs1 rs2 k) = enc 0x0A#6 rd rs1 rs2 k ∧
    ∃ t, exec (.fsqrmul rd rs1 rs2 k) s = .next t ∧
      Wrote rd (BitVec.ofNat 384 (toMont .field
        (unMont .field (readWord rs1 s).toNat ^ 2 ^ k.toNat * unMont .field (readWord rs2 s).toNat
          % Config.Q))) s t

/-- R143, DJR §8 "Montgomery round trip": FMUL by R² mod Q and then FMUL by 1 gives the value back. -/
def Obligations.MontgomeryRoundTripIsTheIdentity : Prop :=
  ∀ (s : State) (rd rs rc ro : WordIdx), rd ≠ ro → (readWord rs s).toNat < Config.Q →
    (readWord rc s).toNat = Config.RR_Q → (readWord ro s).toNat = 1 →
    ∃ t u, exec (.fmul rd rs rc) s = .next t ∧ exec (.fmul rd rd ro) t = .next u ∧
      (readWord rd t).toNat = toMont .field (readWord rs s).toNat ∧ readWord rd u = readWord rs s

/-- R131, R130: the word-serial reference datapath, with N0 and the final select on the borrow, computes
the Montgomery product for either modulus. -/
def Obligations.ReferenceDatapathComputesTheMontgomeryProduct : Prop :=
  ∀ (m : Modulus) (a b : Nat), a < m.value → b < m.value → refMont m a b = mm m a b

/-- R161, R162: FINV writes MExp_Q(a, Q-2): Mont_Q(inv_Q(UnMont_Q(a))) for a ≠ 0, and 0 for a = 0. -/
def Obligations.FinvInvertsInTheMontgomeryDomain : Prop :=
  ∀ (s : State) (rd rs1 : WordIdx), (readWord rs1 s).toNat < Config.Q →
    encode (.finv rd rs1) = enc 0x0B#6 rd rs1 0 0#8 ∧
    ∃ v t, exec (.finv rd rs1) s = .next t ∧ Wrote rd v s t ∧
      v = BitVec.ofNat 384 (mExp .field (readWord rs1 s).toNat (Config.Q - 2)) ∧
      (readWord rs1 s = 0#384 → v = 0#384) ∧
      (readWord rs1 s ≠ 0#384 → ∃ y, IsInverse Config.Q (unMont .field (readWord rs1 s).toNat) y ∧
        v.toNat = toMont .field y)

/-- DJR §8 "Field inverse correctness", R161: FMUL of a and FINV(a) gives R mod Q = Mont_Q(1) for a ≠ 0. -/
def Obligations.OperandTimesItsFieldInverseIsOne : Prop :=
  ∀ (s : State) (rd rs1 : WordIdx), rd ≠ rs1 → (readWord rs1 s).toNat < Config.Q →
    readWord rs1 s ≠ 0#384 →
    ∃ t u, exec (.finv rd rs1) s = .next t ∧ exec (.fmul rd rs1 rd) t = .next u ∧
      (readWord rd u).toNat = Config.R_MOD_Q

/-! ### Scalar arithmetic and inversion (spec/43_scalar_arith.md, spec/44_scalar_inversion.md) -/

/-- R180: SMUL writes the value v < N with v·R = a·b (mod N), which is (a·b·inv_N(R)) mod N. -/
def Obligations.SmulIsTheMontgomeryProduct : Prop :=
  ∀ (s : State) (rd rs1 rs2 : WordIdx),
    (readWord rs1 s).toNat < Config.N → (readWord rs2 s).toNat < Config.N →
    encode (.smul rd rs1 rs2) = enc 0x10#6 rd rs1 rs2 0#8 ∧
    ∃ v t, exec (.smul rd rs1 rs2) s = .next t ∧ Wrote rd v s t ∧ v.toNat < Config.N ∧
      v.toNat * 2 ^ 384 % Config.N = (readWord rs1 s).toNat * (readWord rs2 s).toNat % Config.N ∧
      ∀ y, IsInverse Config.N (2 ^ 384) y →
        v.toNat = (readWord rs1 s).toNat * (readWord rs2 s).toNat * y % Config.N

/-- R181: SSQR. -/
def Obligations.SsqrIsTheMontgomerySquare : Prop :=
  ∀ (s : State) (rd rs1 : WordIdx), (readWord rs1 s).toNat < Config.N →
    encode (.ssqr rd rs1) = enc 0x11#6 rd rs1 0 0#8 ∧
    ∃ v t, exec (.ssqr rd rs1) s = .next t ∧ Wrote rd v s t ∧ v.toNat < Config.N ∧
      v.toNat * 2 ^ 384 % Config.N = (readWord rs1 s).toNat ^ 2 % Config.N ∧
      ∀ y, IsInverse Config.N (2 ^ 384) y → v.toNat = (readWord rs1 s).toNat ^ 2 * y % Config.N

/-- R182: STOMONT writes Mont_N(a) = (a · 2^384) mod N. -/
def Obligations.StomontConvertsIntoTheMontgomeryDomain : Prop :=
  ∀ (s : State) (rd rs1 : WordIdx), (readWord rs1 s).toNat < Config.N →
    encode (.stomont rd rs1) = enc 0x12#6 rd rs1 0 0#8 ∧
    ∃ t, exec (.stomont rd rs1) s = .next t ∧
      Wrote rd (BitVec.ofNat 384 ((readWord rs1 s).toNat * 2 ^ 384 % Config.N)) s t

/-- R183: SSQRMUL, in the closed form of the rule. -/
def Obligations.SsqrmulSquaresThenMultiplies : Prop :=
  ∀ (s : State) (rd rs1 rs2 : WordIdx) (k : BitVec 8), k ≠ 0#8 →
    (readWord rs1 s).toNat < Config.N → (readWord rs2 s).toNat < Config.N →
    encode (.ssqrmul rd rs1 rs2 k) = enc 0x13#6 rd rs1 rs2 k ∧
    ∃ t, exec (.ssqrmul rd rs1 rs2 k) s = .next t ∧
      Wrote rd (BitVec.ofNat 384 (toMont .scalar
        (unMont .scalar (readWord rs1 s).toNat ^ 2 ^ k.toNat * unMont .scalar (readWord rs2 s).toNat
          % Config.N))) s t

/-- R160, R199, R200: FCHAIN's exponents, computed by the walk of R161, are the fifteen of its table, the last
one Q - 2, with 385 squarings and 14 products. SDIGITS hold the powers 1, 3, 5, 7, 15 of a in Montgomery domain;
SCHAIN has 95 windows, 380 squarings after window 0, and walks the exponents 1, 3, 5, 7, 15 to N - 2. -/
def Obligations.PublicChainsComputeTheirExponents : Prop :=
  (let e12 := (2 ^ 255 - 1) * 2 ^ 33 + (2 ^ 32 - 1)
    let e13 := e12 * 2 ^ 94 + (2 ^ 30 - 1)
    runChain smExponent Config.FCHAIN [1] =
      [1, 2 ^ 2 - 1, 2 ^ 3 - 1, 2 ^ 6 - 1, 2 ^ 12 - 1, 2 ^ 15 - 1, 2 ^ 30 - 1, 2 ^ 32 - 1, 2 ^ 60 - 1,
       2 ^ 120 - 1, 2 ^ 240 - 1, 2 ^ 255 - 1, e12, e13, e13 * 2 ^ 2 + 1] ∧
    e13 * 2 ^ 2 + 1 = Config.Q - 2) ∧
  (Config.FCHAIN.map ChainStep.k).sum = 385 ∧ Config.FCHAIN.length = 14 ∧
  (∀ a : Nat, a < Config.N → scalarDigits a =
    [toMont .scalar a, toMont .scalar (a ^ 3), toMont .scalar (a ^ 5), toMont .scalar (a ^ 7),
     toMont .scalar (a ^ 15)]) ∧
  Config.SCHAIN.length = 95 ∧ ((Config.SCHAIN.drop 1).map Window.squarings).sum = 380 ∧
  windowWalk smExponent [1, 3, 5, 7, 15] Config.SCHAIN = Config.N - 2

/-- R201, R202: SINV writes (a^(N-2) · 2^384) mod N: Mont_N(inv_N(a)) for a ≠ 0, and 0 for a = 0. -/
def Obligations.SinvInvertsIntoTheMontgomeryDomain : Prop :=
  ∀ (s : State) (rd rs1 : WordIdx), (readWord rs1 s).toNat < Config.N →
    encode (.sinv rd rs1) = enc 0x14#6 rd rs1 0 0#8 ∧
    ∃ v t, exec (.sinv rd rs1) s = .next t ∧ Wrote rd v s t ∧
      v = BitVec.ofNat 384 ((readWord rs1 s).toNat ^ (Config.N - 2) * 2 ^ 384 % Config.N) ∧
      (readWord rs1 s = 0#384 → v = 0#384) ∧
      (readWord rs1 s ≠ 0#384 → ∃ y, IsInverse Config.N (readWord rs1 s).toNat y ∧
        v.toNat = toMont .scalar y)

/-- DJR §8 "Scalar inverse correctness", R201: SMUL of STOMONT(a) and SINV(a) gives R mod N = Mont_N(1) for
a ≠ 0. -/
def Obligations.ScalarTimesItsInverseIsOne : Prop :=
  ∀ (s : State) (rd rm rs1 : WordIdx), rd ≠ rs1 → rd ≠ rm →
    (readWord rs1 s).toNat < Config.N → readWord rs1 s ≠ 0#384 →
    ∃ t u w, exec (.sinv rd rs1) s = .next t ∧ exec (.stomont rm rs1) t = .next u ∧
      exec (.smul rd rm rd) u = .next w ∧ (readWord rd w).toNat = Config.R_MOD_N

/-! ### Point selection (spec/45_point_select.md R219 to R221) -/

/-- R220: PSEL writes entry i-1 for 1 <= i <= 16 and the all-zero point for every other i of its full 384
bits (for i > 16 only with pdbg = 0), as the words were before any was written; it sets the eighteen
flags, and changes no other word and no register. -/
def Obligations.PselSelectsTheEntry : Prop :=
  ∀ (s : State) (rd rs1 rs2 : WordIdx), rs1.val ≤ 16 → rd.val ≤ 61 →
    (s.pdbg = false ∨ (readWord rs2 s).toNat ≤ 16) →
    encode (.psel rd rs1 rs2) = enc 0x20#6 rd rs1 rs2 0#8 ∧
    ∃ t, exec (.psel rd rs1 rs2) s = .next t ∧
      (∀ c : Nat, c < 3 →
        readWord (Fin.ofNat 64 (rd.val + c)) t =
          (if 1 ≤ (readWord rs2 s).toNat ∧ (readWord rs2 s).toNat ≤ 16 then
            readWord (Fin.ofNat 64 (rs1.val + 3 * ((readWord rs2 s).toNat - 1) + c)) s else 0#384) ∧
        ∀ j, limbWritten (Fin.ofNat 64 (rd.val + c)) j t = true) ∧
      (∀ k : WordIdx, (k.val < rd.val ∨ rd.val + 3 ≤ k.val) →
        readWord k t = readWord k s ∧ ∀ j, limbWritten k j t = limbWritten k j s) ∧
      ErrorKept s t ∧ ControlKept s t

/-! ### Rules common to every command (R24, R100 to R102, R179, R250) -/

/-- R101, R60: the frame of the fifteen one-destination commands (FADD, FSUB, FNEG, FHALF, FDBL, FTPL,
FMUL, FSQR, FSQRMUL, FINV, SMUL, SSQR, STOMONT, SSQRMUL, SINV) on every operand: no word but `rd`, no
control register, and ERR and ERRINFO only by an INVARIANT error with pdbg = 1 that names a source word
(R240, R242, R250), which leaves `rd` too.
Every stored byte of the window outside the 48 bytes of W[rd], STATUS and ERRINFO is as before. -/
def Obligations.ModularCommandsChangeOnlyTheirDestination : Prop :=
  ∀ (i : Instr) (m : Modulus) (s t : State), operandModulus i = some m → exec i s = .next t →
    WordsKept (dests i) s t ∧ ControlKept s t ∧
    (ErrorKept s t ∨ (s.pdbg = true ∧ WordsKept [] s t ∧ t.err = true ∧ ∃ k ∈ sources i,
      t.errInfo = if s.err then s.errInfo else ⟨.invariant, BitVec.ofNat 32 k.val⟩)) ∧
    ∀ o, o < 0x2000 → (∀ k ∈ dests i, ¬ InWordBytes k o) → ¬ InErrorBytes o →
      storedByte o t = storedByte o s

/-- R101, R60, R220: the frame of PSEL on every operand: no word but its three destinations, no control
register, and ERR and ERRINFO only by an INVARIANT error with pdbg = 1 that names the index word (R240,
R242, R250), which leaves the destinations too. Every stored byte outside the three words, STATUS and ERRINFO is as before. -/
def Obligations.PselChangesOnlyItsThreeDestinations : Prop :=
  ∀ (rd rs1 rs2 : WordIdx) (s t : State), exec (.psel rd rs1 rs2) s = .next t →
    WordsKept (dests (.psel rd rs1 rs2)) s t ∧ ControlKept s t ∧
    (ErrorKept s t ∨ (s.pdbg = true ∧ WordsKept [] s t ∧ t.err = true ∧
      t.errInfo = if s.err then s.errInfo else ⟨.invariant, BitVec.ofNat 32 rs2.val⟩)) ∧
    ∀ o, o < 0x2000 → (∀ k ∈ dests (.psel rd rs1 rs2), ¬ InWordBytes k o) → ¬ InErrorBytes o →
      storedByte o t = storedByte o s

/-- R100, R179, R252 (model: log entries 4 and 6): with pdbg = 0 and an out-of-range source the command
completes normally. It writes its destination, with a value of which nothing is said, and raises no error. The
model fault is OperandOutOfRange of the first such source, if no earlier one was reached, and a run of the model
stops with it at the completion. -/
def Obligations.OutOfRangeOperandCompletesWithoutChecks : Prop :=
  ∀ (i : Instr) (m : Modulus) (s : State), i.wf = true → operandModulus i = some m →
    s.pdbg = false → (∃ k ∈ sources i, m.value ≤ (readWord k s).toNat) →
    ∃ t, exec i s = .next t ∧ WordsKept (dests i) s t ∧
      (∀ k ∈ dests i, ∀ j, limbWritten k j t = true) ∧ ErrorKept s t ∧ ControlKept s t ∧
      (s.undef.isSome = true → t.undef = s.undef) ∧
      (s.undef = none → SourcesWritten i s →
        ∃ k ∈ sources i, t.undef = some (.operandOutOfRange i.opcode k) ∧
          m.value ≤ (readWord k s).toNat ∧
          (∀ k' ∈ sources i, m.value ≤ (readWord k' s).toNat → k' = k ∨ (sources i).head? = some k) ∧
          ∀ es, s.busy = true → decode (s.pend.setWidth 64) = .ok i →
            modelStep { s with events := .complete :: es } = .error (.operandOutOfRange i.opcode k))

/-- R250, R243, R242: with pdbg = 1 and a failing operand precondition, no destination is written and
INVARIANT is raised with the first failing source word in the order RS1, RS2 (for PSEL, the index
word). -/
def Obligations.DebugChecksReportTheFirstFailingSource : Prop :=
  (∀ (i : Instr) (m : Modulus) (s : State) (pre post : List WordIdx) (k : WordIdx), i.wf = true →
    operandModulus i = some m → s.pdbg = true → sources i = pre ++ k :: post →
    (∀ k' ∈ pre, (readWord k' s).toNat < m.value) → m.value ≤ (readWord k s).toNat →
    ∃ t, exec i s = .next t ∧ WordsKept [] s t ∧ ControlKept s t ∧ t.err = true ∧
      t.errInfo = (if s.err then s.errInfo else ⟨.invariant, BitVec.ofNat 32 k.val⟩)) ∧
  (∀ (rd rs1 rs2 : WordIdx) (s : State), (Instr.psel rd rs1 rs2).wf = true → s.pdbg = true →
    16 < (readWord rs2 s).toNat →
    ∃ t, exec (.psel rd rs1 rs2) s = .next t ∧ WordsKept [] s t ∧ ControlKept s t ∧ t.err = true ∧
      t.errInfo = (if s.err then s.errInfo else ⟨.invariant, BitVec.ofNat 32 rs2.val⟩))

/-- R250: if every operand precondition holds, no check fails, and the command with pdbg = 1 behaves exactly
as with pdbg = 0. -/
def Obligations.PassingDebugChecksChangeNothing : Prop :=
  ∀ (i : Instr) (s : State), i.wf = true → OperandsOk i s →
    ∃ t, exec i { s with pdbg := false } = .next t ∧
      exec i { s with pdbg := true } = .next { t with pdbg := true } ∧ ErrorKept s t

/-- R24, R101, R252 (model: log entries 4 and 7): a command that reads a word with a clear flag runs on, the
model fault is UninitOperand of its first such source, and a run of the model stops with it at the completion,
whatever the operands' values and pdbg are. A command whose sources are all written, and whose result is
defined, reaches no model fault. -/
def Obligations.UnwrittenSourcesStopTheModel : Prop :=
  ∀ (i : Instr) (s : State), i.wf = true → s.undef = none →
    ∃ t, exec i s = .next t ∧
      (∀ pre post k, sources i = pre ++ k :: post → (∀ k' ∈ pre, wordWritten k' s = true) →
        wordWritten k s = false → t.undef = some (.uninitOperand k) ∧
        ∀ es, s.busy = true → decode (s.pend.setWidth 64) = .ok i →
          modelStep { s with events := .complete :: es } = .error (.uninitOperand k)) ∧
      (SourcesWritten i s → ResultDefined i s → t.undef = none)

/-- R60, R102, R221: what a command writes depends on its source words and on nothing else of the operand
store: two states that agree on the sources and on every register get the same destination words. An
out-of-range source with pdbg = 0 is left out: its result is a free value. -/
def Obligations.ResultsDependOnlyOnTheSources : Prop :=
  ∀ (i : Instr) (s s' t t' : State), SameRegisters s s' →
    s.pdbg = true ∨ OperandsOk i s ∨ operandModulus i = none →
    (∀ k ∈ sources i, readWord k s = readWord k s') → exec i s = .next t → exec i s' = .next t' →
    SameRegisters t t' ∧ ((t.words = s.words ∧ t'.words = s'.words) ∨ ∀ k ∈ dests i, readWord k t = readWord k t')

/-- R102, R26, R251: with pdbg = 0, a completion, at a slot or with no event left, tells the Host nothing
through the registers: two busy states that differ only in their operand words, whatever these hold, complete
into states with the same registers, the same irq and the same set of words written. -/
def Obligations.RegistersDoNotDependOnOperandValues : Prop :=
  ∀ (s s' t t' : State), s.busy = true → s.pdbg = false →
    (s.events = [] ∨ s.events.head? = some .complete) →
    SameRegisters s s' → s.written = s'.written → step s = .next t → step s' = .next t' →
    SameRegisters t t' ∧ t.written = t'.written ∧ irq t = irq t'

/-- R59, R62: while BUSY, no Host access learns anything of the operand words: two busy states that differ
only there answer the same response and the same registers. -/
def Obligations.BusyBlockHidesTheOperandWords : Prop :=
  ∀ (s s' t t' : State) (a : Access) (es : List Event), s.busy = true → s.events = .access a :: es →
    SameRegisters s s' → step s = .next t → step s' = .next t' →
    SameRegisters t t' ∧ t.words = s.words ∧ t'.words = s'.words

/-! ### Whole runs -/

/-- R271 (model: the fields `events` and `resp`): the reset state meets the invariant. -/
def Obligations.ResetMeetsTheInvariant : Prop := Inv State.reset

/-- The invariant of every run (R28, R29, R34, R241, R244, R280): whatever the next event is, a step keeps
it: `pend` is LAST_CMD, a busy Core has a legal command pending and DONE clear, DONE follows a legal
command, and ERRINFO is 0 exactly while ERR is clear. A step of a run that stops at model faults (R252) leads to
such a state too, and to one that has reached no model fault (model: log entry 4). -/
def Obligations.EveryStepKeepsTheInvariant : Prop :=
  (∀ s t : State, Inv s → step s = .next t → Inv t) ∧
  (∀ s t : State, Inv s → modelStep s = .ok (.next t) → Inv t ∧ t.undef = none)

/-- R283, R285, R252 (model: `events`, log entries 2 and 4): from every state that meets the invariant, if the
Host stays inside the window, the run is over after one step per event and one for a command still running, and
it is final unless it has reached a model fault. A run that stops at model faults ends in that time too, final or
with the fault. -/
def Obligations.EveryRunEnds : Prop :=
  ∀ s : State, Inv s → EventsInWindow s →
    (∃ t, Host.Core.run core (s.events.length + 1) s = .next t ∧ RunOver t ∧ (t.undef = none → Final t)) ∧
    ((∃ t, modelRun (s.events.length + 1) s = .ok (.next t) ∧ Final t) ∨
      ∃ u, modelRun (s.events.length + 1) s = .error u)
end

