-- ==== Sys2Proof/Laws/State.lean ====
section
/-! SUPPORT. One lemma per field per update of the state, true by definition, so that no later proof
unfolds a record update. -/

namespace Sys2Proof.Machine

/-! ### writeWord -/

@[simp] theorem writeWord_words (k : WordIdx) (v : Word) (s : State) :
    (writeWord k v s).words = s.words.set k.val v := rfl
@[simp] theorem writeWord_written (k : WordIdx) (v : Word) (s : State) :
    (writeWord k v s).written = s.written.set k.val (Vector.replicate 6 true) := rfl
@[simp] theorem writeWord_ctrlDbg (k : WordIdx) (v : Word) (s : State) :
    (writeWord k v s).ctrlDbg = s.ctrlDbg := rfl
@[simp] theorem writeWord_done (k : WordIdx) (v : Word) (s : State) :
    (writeWord k v s).done = s.done := rfl
@[simp] theorem writeWord_err (k : WordIdx) (v : Word) (s : State) :
    (writeWord k v s).err = s.err := rfl
@[simp] theorem writeWord_lastCmd (k : WordIdx) (v : Word) (s : State) :
    (writeWord k v s).lastCmd = s.lastCmd := rfl
@[simp] theorem writeWord_intEn (k : WordIdx) (v : Word) (s : State) :
    (writeWord k v s).intEn = s.intEn := rfl
@[simp] theorem writeWord_errInfo (k : WordIdx) (v : Word) (s : State) :
    (writeWord k v s).errInfo = s.errInfo := rfl
@[simp] theorem writeWord_busy (k : WordIdx) (v : Word) (s : State) :
    (writeWord k v s).busy = s.busy := rfl
@[simp] theorem writeWord_pend (k : WordIdx) (v : Word) (s : State) :
    (writeWord k v s).pend = s.pend := rfl
@[simp] theorem writeWord_pdbg (k : WordIdx) (v : Word) (s : State) :
    (writeWord k v s).pdbg = s.pdbg := rfl
@[simp] theorem writeWord_events (k : WordIdx) (v : Word) (s : State) :
    (writeWord k v s).events = s.events := rfl
@[simp] theorem writeWord_resp (k : WordIdx) (v : Word) (s : State) :
    (writeWord k v s).resp = s.resp := rfl
@[simp] theorem writeWord_undef (k : WordIdx) (v : Word) (s : State) :
    (writeWord k v s).undef = s.undef := rfl
@[simp] theorem writeWord_freeCount (k : WordIdx) (v : Word) (s : State) :
    (writeWord k v s).freeCount = s.freeCount := rfl

/-! ### writeLimb -/

@[simp] theorem writeLimb_words (k : WordIdx) (j : LimbIdx) (x : Limb) (s : State) :
    (writeLimb k j x s).words = s.words.set k.val (setLimb (readWord k s) j x) := rfl
@[simp] theorem writeLimb_written (k : WordIdx) (j : LimbIdx) (x : Limb) (s : State) :
    (writeLimb k j x s).written = s.written.set k.val ((s.written[k.val]).set j.val true) := rfl
@[simp] theorem writeLimb_ctrlDbg (k : WordIdx) (j : LimbIdx) (x : Limb) (s : State) :
    (writeLimb k j x s).ctrlDbg = s.ctrlDbg := rfl
@[simp] theorem writeLimb_done (k : WordIdx) (j : LimbIdx) (x : Limb) (s : State) :
    (writeLimb k j x s).done = s.done := rfl
@[simp] theorem writeLimb_err (k : WordIdx) (j : LimbIdx) (x : Limb) (s : State) :
    (writeLimb k j x s).err = s.err := rfl
@[simp] theorem writeLimb_lastCmd (k : WordIdx) (j : LimbIdx) (x : Limb) (s : State) :
    (writeLimb k j x s).lastCmd = s.lastCmd := rfl
@[simp] theorem writeLimb_intEn (k : WordIdx) (j : LimbIdx) (x : Limb) (s : State) :
    (writeLimb k j x s).intEn = s.intEn := rfl
@[simp] theorem writeLimb_errInfo (k : WordIdx) (j : LimbIdx) (x : Limb) (s : State) :
    (writeLimb k j x s).errInfo = s.errInfo := rfl
@[simp] theorem writeLimb_busy (k : WordIdx) (j : LimbIdx) (x : Limb) (s : State) :
    (writeLimb k j x s).busy = s.busy := rfl
@[simp] theorem writeLimb_pend (k : WordIdx) (j : LimbIdx) (x : Limb) (s : State) :
    (writeLimb k j x s).pend = s.pend := rfl
@[simp] theorem writeLimb_pdbg (k : WordIdx) (j : LimbIdx) (x : Limb) (s : State) :
    (writeLimb k j x s).pdbg = s.pdbg := rfl
@[simp] theorem writeLimb_events (k : WordIdx) (j : LimbIdx) (x : Limb) (s : State) :
    (writeLimb k j x s).events = s.events := rfl
@[simp] theorem writeLimb_resp (k : WordIdx) (j : LimbIdx) (x : Limb) (s : State) :
    (writeLimb k j x s).resp = s.resp := rfl
@[simp] theorem writeLimb_undef (k : WordIdx) (j : LimbIdx) (x : Limb) (s : State) :
    (writeLimb k j x s).undef = s.undef := rfl
@[simp] theorem writeLimb_freeCount (k : WordIdx) (j : LimbIdx) (x : Limb) (s : State) :
    (writeLimb k j x s).freeCount = s.freeCount := rfl

/-! ### raiseError -/

@[simp] theorem raiseError_words (c : ErrCode) (i : BitVec 32) (s : State) :
    (raiseError c i s).words = s.words := rfl
@[simp] theorem raiseError_written (c : ErrCode) (i : BitVec 32) (s : State) :
    (raiseError c i s).written = s.written := rfl
@[simp] theorem raiseError_ctrlDbg (c : ErrCode) (i : BitVec 32) (s : State) :
    (raiseError c i s).ctrlDbg = s.ctrlDbg := rfl
@[simp] theorem raiseError_done (c : ErrCode) (i : BitVec 32) (s : State) :
    (raiseError c i s).done = s.done := rfl
@[simp] theorem raiseError_err (c : ErrCode) (i : BitVec 32) (s : State) :
    (raiseError c i s).err = true := rfl
@[simp] theorem raiseError_lastCmd (c : ErrCode) (i : BitVec 32) (s : State) :
    (raiseError c i s).lastCmd = s.lastCmd := rfl
@[simp] theorem raiseError_intEn (c : ErrCode) (i : BitVec 32) (s : State) :
    (raiseError c i s).intEn = s.intEn := rfl
@[simp] theorem raiseError_errInfo (c : ErrCode) (i : BitVec 32) (s : State) :
    (raiseError c i s).errInfo = if s.err then s.errInfo else ⟨c, i⟩ := rfl
@[simp] theorem raiseError_busy (c : ErrCode) (i : BitVec 32) (s : State) :
    (raiseError c i s).busy = s.busy := rfl
@[simp] theorem raiseError_pend (c : ErrCode) (i : BitVec 32) (s : State) :
    (raiseError c i s).pend = s.pend := rfl
@[simp] theorem raiseError_pdbg (c : ErrCode) (i : BitVec 32) (s : State) :
    (raiseError c i s).pdbg = s.pdbg := rfl
@[simp] theorem raiseError_events (c : ErrCode) (i : BitVec 32) (s : State) :
    (raiseError c i s).events = s.events := rfl
@[simp] theorem raiseError_resp (c : ErrCode) (i : BitVec 32) (s : State) :
    (raiseError c i s).resp = s.resp := rfl
@[simp] theorem raiseError_undef (c : ErrCode) (i : BitVec 32) (s : State) :
    (raiseError c i s).undef = s.undef := rfl
@[simp] theorem raiseError_freeCount (c : ErrCode) (i : BitVec 32) (s : State) :
    (raiseError c i s).freeCount = s.freeCount := rfl

/-! ### clearError -/

@[simp] theorem clearError_words (s : State) :
    (clearError s).words = s.words := rfl
@[simp] theorem clearError_written (s : State) :
    (clearError s).written = s.written := rfl
@[simp] theorem clearError_ctrlDbg (s : State) :
    (clearError s).ctrlDbg = s.ctrlDbg := rfl
@[simp] theorem clearError_done (s : State) :
    (clearError s).done = s.done := rfl
@[simp] theorem clearError_err (s : State) :
    (clearError s).err = false := rfl
@[simp] theorem clearError_lastCmd (s : State) :
    (clearError s).lastCmd = s.lastCmd := rfl
@[simp] theorem clearError_intEn (s : State) :
    (clearError s).intEn = s.intEn := rfl
@[simp] theorem clearError_errInfo (s : State) :
    (clearError s).errInfo = ⟨.none, 0#32⟩ := rfl
@[simp] theorem clearError_busy (s : State) :
    (clearError s).busy = s.busy := rfl
@[simp] theorem clearError_pend (s : State) :
    (clearError s).pend = s.pend := rfl
@[simp] theorem clearError_pdbg (s : State) :
    (clearError s).pdbg = s.pdbg := rfl
@[simp] theorem clearError_events (s : State) :
    (clearError s).events = s.events := rfl
@[simp] theorem clearError_resp (s : State) :
    (clearError s).resp = s.resp := rfl
@[simp] theorem clearError_undef (s : State) :
    (clearError s).undef = s.undef := rfl
@[simp] theorem clearError_freeCount (s : State) :
    (clearError s).freeCount = s.freeCount := rfl

/-! ### clearDone -/

@[simp] theorem clearDone_words (s : State) :
    (clearDone s).words = s.words := rfl
@[simp] theorem clearDone_written (s : State) :
    (clearDone s).written = s.written := rfl
@[simp] theorem clearDone_ctrlDbg (s : State) :
    (clearDone s).ctrlDbg = s.ctrlDbg := rfl
@[simp] theorem clearDone_done (s : State) :
    (clearDone s).done = false := rfl
@[simp] theorem clearDone_err (s : State) :
    (clearDone s).err = s.err := rfl
@[simp] theorem clearDone_lastCmd (s : State) :
    (clearDone s).lastCmd = s.lastCmd := rfl
@[simp] theorem clearDone_intEn (s : State) :
    (clearDone s).intEn = s.intEn := rfl
@[simp] theorem clearDone_errInfo (s : State) :
    (clearDone s).errInfo = s.errInfo := rfl
@[simp] theorem clearDone_busy (s : State) :
    (clearDone s).busy = s.busy := rfl
@[simp] theorem clearDone_pend (s : State) :
    (clearDone s).pend = s.pend := rfl
@[simp] theorem clearDone_pdbg (s : State) :
    (clearDone s).pdbg = s.pdbg := rfl
@[simp] theorem clearDone_events (s : State) :
    (clearDone s).events = s.events := rfl
@[simp] theorem clearDone_resp (s : State) :
    (clearDone s).resp = s.resp := rfl
@[simp] theorem clearDone_undef (s : State) :
    (clearDone s).undef = s.undef := rfl
@[simp] theorem clearDone_freeCount (s : State) :
    (clearDone s).freeCount = s.freeCount := rfl

/-! ### noteUndefined -/

@[simp] theorem noteUndefined_words (u : ModelFault) (s : State) :
    (noteUndefined u s).words = s.words := rfl
@[simp] theorem noteUndefined_written (u : ModelFault) (s : State) :
    (noteUndefined u s).written = s.written := rfl
@[simp] theorem noteUndefined_ctrlDbg (u : ModelFault) (s : State) :
    (noteUndefined u s).ctrlDbg = s.ctrlDbg := rfl
@[simp] theorem noteUndefined_done (u : ModelFault) (s : State) :
    (noteUndefined u s).done = s.done := rfl
@[simp] theorem noteUndefined_err (u : ModelFault) (s : State) :
    (noteUndefined u s).err = s.err := rfl
@[simp] theorem noteUndefined_lastCmd (u : ModelFault) (s : State) :
    (noteUndefined u s).lastCmd = s.lastCmd := rfl
@[simp] theorem noteUndefined_intEn (u : ModelFault) (s : State) :
    (noteUndefined u s).intEn = s.intEn := rfl
@[simp] theorem noteUndefined_errInfo (u : ModelFault) (s : State) :
    (noteUndefined u s).errInfo = s.errInfo := rfl
@[simp] theorem noteUndefined_busy (u : ModelFault) (s : State) :
    (noteUndefined u s).busy = s.busy := rfl
@[simp] theorem noteUndefined_pend (u : ModelFault) (s : State) :
    (noteUndefined u s).pend = s.pend := rfl
@[simp] theorem noteUndefined_pdbg (u : ModelFault) (s : State) :
    (noteUndefined u s).pdbg = s.pdbg := rfl
@[simp] theorem noteUndefined_events (u : ModelFault) (s : State) :
    (noteUndefined u s).events = s.events := rfl
@[simp] theorem noteUndefined_resp (u : ModelFault) (s : State) :
    (noteUndefined u s).resp = s.resp := rfl
@[simp] theorem noteUndefined_undef (u : ModelFault) (s : State) :
    (noteUndefined u s).undef = (s.undef <|> some u) := rfl
@[simp] theorem noteUndefined_freeCount (u : ModelFault) (s : State) :
    (noteUndefined u s).freeCount = s.freeCount := rfl

/-! ### writeFree -/

@[simp] theorem writeFree_words (k : WordIdx) (s : State) :
    (writeFree k s).words = s.words.set k.val (Config.undefinedResult s.freeCount) := rfl
@[simp] theorem writeFree_written (k : WordIdx) (s : State) :
    (writeFree k s).written = s.written.set k.val (Vector.replicate 6 true) := rfl
@[simp] theorem writeFree_ctrlDbg (k : WordIdx) (s : State) :
    (writeFree k s).ctrlDbg = s.ctrlDbg := rfl
@[simp] theorem writeFree_done (k : WordIdx) (s : State) :
    (writeFree k s).done = s.done := rfl
@[simp] theorem writeFree_err (k : WordIdx) (s : State) :
    (writeFree k s).err = s.err := rfl
@[simp] theorem writeFree_lastCmd (k : WordIdx) (s : State) :
    (writeFree k s).lastCmd = s.lastCmd := rfl
@[simp] theorem writeFree_intEn (k : WordIdx) (s : State) :
    (writeFree k s).intEn = s.intEn := rfl
@[simp] theorem writeFree_errInfo (k : WordIdx) (s : State) :
    (writeFree k s).errInfo = s.errInfo := rfl
@[simp] theorem writeFree_busy (k : WordIdx) (s : State) :
    (writeFree k s).busy = s.busy := rfl
@[simp] theorem writeFree_pend (k : WordIdx) (s : State) :
    (writeFree k s).pend = s.pend := rfl
@[simp] theorem writeFree_pdbg (k : WordIdx) (s : State) :
    (writeFree k s).pdbg = s.pdbg := rfl
@[simp] theorem writeFree_events (k : WordIdx) (s : State) :
    (writeFree k s).events = s.events := rfl
@[simp] theorem writeFree_resp (k : WordIdx) (s : State) :
    (writeFree k s).resp = s.resp := rfl
@[simp] theorem writeFree_undef (k : WordIdx) (s : State) :
    (writeFree k s).undef = s.undef := rfl
@[simp] theorem writeFree_freeCount (k : WordIdx) (s : State) :
    (writeFree k s).freeCount = s.freeCount + 1 := rfl

/-! ### accept -/

@[simp] theorem accept_words (c : BitVec 32) (s : State) :
    (accept c s).words = s.words := rfl
@[simp] theorem accept_written (c : BitVec 32) (s : State) :
    (accept c s).written = s.written := rfl
@[simp] theorem accept_ctrlDbg (c : BitVec 32) (s : State) :
    (accept c s).ctrlDbg = s.ctrlDbg := rfl
@[simp] theorem accept_done (c : BitVec 32) (s : State) :
    (accept c s).done = false := rfl
@[simp] theorem accept_err (c : BitVec 32) (s : State) :
    (accept c s).err = s.err := rfl
@[simp] theorem accept_lastCmd (c : BitVec 32) (s : State) :
    (accept c s).lastCmd = c := rfl
@[simp] theorem accept_intEn (c : BitVec 32) (s : State) :
    (accept c s).intEn = s.intEn := rfl
@[simp] theorem accept_errInfo (c : BitVec 32) (s : State) :
    (accept c s).errInfo = s.errInfo := rfl
@[simp] theorem accept_busy (c : BitVec 32) (s : State) :
    (accept c s).busy = true := rfl
@[simp] theorem accept_pend (c : BitVec 32) (s : State) :
    (accept c s).pend = c := rfl
@[simp] theorem accept_pdbg (c : BitVec 32) (s : State) :
    (accept c s).pdbg = s.ctrlDbg := rfl
@[simp] theorem accept_events (c : BitVec 32) (s : State) :
    (accept c s).events = s.events := rfl
@[simp] theorem accept_resp (c : BitVec 32) (s : State) :
    (accept c s).resp = s.resp := rfl
@[simp] theorem accept_undef (c : BitVec 32) (s : State) :
    (accept c s).undef = s.undef := rfl
@[simp] theorem accept_freeCount (c : BitVec 32) (s : State) :
    (accept c s).freeCount = s.freeCount := rfl

/-! ### finish -/

@[simp] theorem finish_words (s : State) :
    (finish s).words = s.words := rfl
@[simp] theorem finish_written (s : State) :
    (finish s).written = s.written := rfl
@[simp] theorem finish_ctrlDbg (s : State) :
    (finish s).ctrlDbg = s.ctrlDbg := rfl
@[simp] theorem finish_done (s : State) :
    (finish s).done = true := rfl
@[simp] theorem finish_err (s : State) :
    (finish s).err = s.err := rfl
@[simp] theorem finish_lastCmd (s : State) :
    (finish s).lastCmd = s.lastCmd := rfl
@[simp] theorem finish_intEn (s : State) :
    (finish s).intEn = s.intEn := rfl
@[simp] theorem finish_errInfo (s : State) :
    (finish s).errInfo = s.errInfo := rfl
@[simp] theorem finish_busy (s : State) :
    (finish s).busy = false := rfl
@[simp] theorem finish_pend (s : State) :
    (finish s).pend = s.pend := rfl
@[simp] theorem finish_pdbg (s : State) :
    (finish s).pdbg = s.pdbg := rfl
@[simp] theorem finish_events (s : State) :
    (finish s).events = s.events := rfl
@[simp] theorem finish_resp (s : State) :
    (finish s).resp = s.resp := rfl
@[simp] theorem finish_undef (s : State) :
    (finish s).undef = s.undef := rfl
@[simp] theorem finish_freeCount (s : State) :
    (finish s).freeCount = s.freeCount := rfl

/-! ### softReset -/

@[simp] theorem softReset_words (s : State) :
    (softReset s).words = s.words := rfl
@[simp] theorem softReset_written (s : State) :
    (softReset s).written = s.written := rfl
@[simp] theorem softReset_ctrlDbg (s : State) :
    (softReset s).ctrlDbg = false := rfl
@[simp] theorem softReset_done (s : State) :
    (softReset s).done = false := rfl
@[simp] theorem softReset_err (s : State) :
    (softReset s).err = false := rfl
@[simp] theorem softReset_lastCmd (s : State) :
    (softReset s).lastCmd = 0#32 := rfl
@[simp] theorem softReset_intEn (s : State) :
    (softReset s).intEn = ⟨false, false⟩ := rfl
@[simp] theorem softReset_errInfo (s : State) :
    (softReset s).errInfo = ⟨.none, 0#32⟩ := rfl
@[simp] theorem softReset_busy (s : State) :
    (softReset s).busy = false := rfl
@[simp] theorem softReset_pend (s : State) :
    (softReset s).pend = 0#32 := rfl
@[simp] theorem softReset_pdbg (s : State) :
    (softReset s).pdbg = false := rfl
@[simp] theorem softReset_events (s : State) :
    (softReset s).events = s.events := rfl
@[simp] theorem softReset_resp (s : State) :
    (softReset s).resp = s.resp := rfl
@[simp] theorem softReset_undef (s : State) :
    (softReset s).undef = s.undef := rfl
@[simp] theorem softReset_freeCount (s : State) :
    (softReset s).freeCount = s.freeCount := rfl

/-! ### powerOnReset -/

@[simp] theorem powerOnReset_words (s : State) :
    (powerOnReset s).words = Vector.ofFn (fun k : Fin 64 => Config.powerOnWord s.freeCount k) := rfl
@[simp] theorem powerOnReset_written (s : State) :
    (powerOnReset s).written = Vector.replicate 64 (Vector.replicate 6 false) := rfl
@[simp] theorem powerOnReset_ctrlDbg (s : State) :
    (powerOnReset s).ctrlDbg = false := rfl
@[simp] theorem powerOnReset_done (s : State) :
    (powerOnReset s).done = false := rfl
@[simp] theorem powerOnReset_err (s : State) :
    (powerOnReset s).err = false := rfl
@[simp] theorem powerOnReset_lastCmd (s : State) :
    (powerOnReset s).lastCmd = 0#32 := rfl
@[simp] theorem powerOnReset_intEn (s : State) :
    (powerOnReset s).intEn = ⟨false, false⟩ := rfl
@[simp] theorem powerOnReset_errInfo (s : State) :
    (powerOnReset s).errInfo = ⟨.none, 0#32⟩ := rfl
@[simp] theorem powerOnReset_busy (s : State) :
    (powerOnReset s).busy = false := rfl
@[simp] theorem powerOnReset_pend (s : State) :
    (powerOnReset s).pend = 0#32 := rfl
@[simp] theorem powerOnReset_pdbg (s : State) :
    (powerOnReset s).pdbg = false := rfl
@[simp] theorem powerOnReset_events (s : State) :
    (powerOnReset s).events = s.events := by simp only [powerOnReset]
@[simp] theorem powerOnReset_resp (s : State) :
    (powerOnReset s).resp = none := rfl
@[simp] theorem powerOnReset_undef (s : State) :
    (powerOnReset s).undef = s.undef := by simp only [powerOnReset]
@[simp] theorem powerOnReset_freeCount (s : State) :
    (powerOnReset s).freeCount = s.freeCount + 1 := rfl

/-! ### respond -/

@[simp] theorem respond_words (r : BusResp) (s : State) :
    (respond r s).words = s.words := rfl
@[simp] theorem respond_written (r : BusResp) (s : State) :
    (respond r s).written = s.written := rfl
@[simp] theorem respond_ctrlDbg (r : BusResp) (s : State) :
    (respond r s).ctrlDbg = s.ctrlDbg := rfl
@[simp] theorem respond_done (r : BusResp) (s : State) :
    (respond r s).done = s.done := rfl
@[simp] theorem respond_err (r : BusResp) (s : State) :
    (respond r s).err = s.err := rfl
@[simp] theorem respond_lastCmd (r : BusResp) (s : State) :
    (respond r s).lastCmd = s.lastCmd := rfl
@[simp] theorem respond_intEn (r : BusResp) (s : State) :
    (respond r s).intEn = s.intEn := rfl
@[simp] theorem respond_errInfo (r : BusResp) (s : State) :
    (respond r s).errInfo = s.errInfo := rfl
@[simp] theorem respond_busy (r : BusResp) (s : State) :
    (respond r s).busy = s.busy := rfl
@[simp] theorem respond_pend (r : BusResp) (s : State) :
    (respond r s).pend = s.pend := rfl
@[simp] theorem respond_pdbg (r : BusResp) (s : State) :
    (respond r s).pdbg = s.pdbg := rfl
@[simp] theorem respond_events (r : BusResp) (s : State) :
    (respond r s).events = s.events := rfl
@[simp] theorem respond_resp (r : BusResp) (s : State) :
    (respond r s).resp = some r := rfl
@[simp] theorem respond_undef (r : BusResp) (s : State) :
    (respond r s).undef = s.undef := rfl
@[simp] theorem respond_freeCount (r : BusResp) (s : State) :
    (respond r s).freeCount = s.freeCount := rfl

/-! ### popEvent -/

@[simp] theorem popEvent_words (s : State) :
    (popEvent s).words = s.words := rfl
@[simp] theorem popEvent_written (s : State) :
    (popEvent s).written = s.written := rfl
@[simp] theorem popEvent_ctrlDbg (s : State) :
    (popEvent s).ctrlDbg = s.ctrlDbg := rfl
@[simp] theorem popEvent_done (s : State) :
    (popEvent s).done = s.done := rfl
@[simp] theorem popEvent_err (s : State) :
    (popEvent s).err = s.err := rfl
@[simp] theorem popEvent_lastCmd (s : State) :
    (popEvent s).lastCmd = s.lastCmd := rfl
@[simp] theorem popEvent_intEn (s : State) :
    (popEvent s).intEn = s.intEn := rfl
@[simp] theorem popEvent_errInfo (s : State) :
    (popEvent s).errInfo = s.errInfo := rfl
@[simp] theorem popEvent_busy (s : State) :
    (popEvent s).busy = s.busy := rfl
@[simp] theorem popEvent_pend (s : State) :
    (popEvent s).pend = s.pend := rfl
@[simp] theorem popEvent_pdbg (s : State) :
    (popEvent s).pdbg = s.pdbg := rfl
@[simp] theorem popEvent_events (s : State) :
    (popEvent s).events = s.events.tail := rfl
@[simp] theorem popEvent_resp (s : State) :
    (popEvent s).resp = s.resp := rfl
@[simp] theorem popEvent_undef (s : State) :
    (popEvent s).undef = s.undef := rfl
@[simp] theorem popEvent_freeCount (s : State) :
    (popEvent s).freeCount = s.freeCount := rfl

end Sys2Proof.Machine
end

