-- ==== Sys2Proof/Laws/Ops.lean ====
section
/-! SUPPORT. What the named operations of Machine/Ops.lean do, said once: reading a word or a flag after
each update, limbs of a word, and the frames. -/

namespace Sys2Proof.Machine

/-! ### Reading after a command's write -/

theorem readWord_writeWord (k k' : WordIdx) (v : Word) (s : State) :
    readWord k' (writeWord k v s) = if k = k' then v else readWord k' s := by
  simp only [readWord, writeWord_words, Vector.getElem_set, Fin.val_inj]

theorem limbWritten_writeWord (k k' : WordIdx) (v : Word) (j : LimbIdx) (s : State) :
    limbWritten k' j (writeWord k v s) = if k = k' then true else limbWritten k' j s := by
  simp only [limbWritten, writeWord_written, Vector.getElem_set, Fin.val_inj]
  split <;> simp

@[simp] theorem readWord_writeWord_self (k : WordIdx) (v : Word) (s : State) :
    readWord k (writeWord k v s) = v := by simp [readWord_writeWord]

@[simp] theorem limbWritten_writeWord_self (k : WordIdx) (v : Word) (j : LimbIdx) (s : State) :
    limbWritten k j (writeWord k v s) = true := by simp [limbWritten_writeWord]

theorem readWord_writeWord_of_ne {k k' : WordIdx} (h : k' ≠ k) (v : Word) (s : State) :
    readWord k' (writeWord k v s) = readWord k' s := by simp [readWord_writeWord, h.symm]

theorem limbWritten_writeWord_of_ne {k k' : WordIdx} (h : k' ≠ k) (v : Word) (j : LimbIdx)
    (s : State) : limbWritten k' j (writeWord k v s) = limbWritten k' j s := by
  simp [limbWritten_writeWord, h.symm]

/-- The frame of a command's write. -/
theorem writeWord_wordsKept (k : WordIdx) (v : Word) (s : State) :
    WordsKept [k] s (writeWord k v s) := fun k' hk' =>
  have h : k' ≠ k := by simpa using hk'
  ⟨readWord_writeWord_of_ne h v s, fun j => limbWritten_writeWord_of_ne h v j s⟩

/-! ### A word has been written when its six flags are set -/

theorem wordWritten_iff (k : WordIdx) (s : State) :
    wordWritten k s = true ↔ ∀ j, limbWritten k j s = true := by
  simp only [wordWritten, limbWritten, beq_iff_eq]
  constructor
  · intro h j; simp [h]
  · intro h; ext i hi; simpa using h ⟨i, hi⟩

/-! ### Limbs -/

theorem getLsbD_limb (v : Word) (j : LimbIdx) (i : Nat) :
    (limb v j).getLsbD i = (decide (i < 64) && v.getLsbD (64 * j.val + i)) := by
  simp only [limb, BitVec.getLsbD_extractLsb']

/-- Two words with the same six limbs are the same word. -/
theorem word_ext {v w : Word} (h : ∀ j, limb v j = limb w j) : v = w := by
  apply BitVec.eq_of_getLsbD_eq
  intro i hi
  have hj : i / 64 < 6 := by omega
  have hlimb := congrArg (fun x => x.getLsbD (i % 64)) (h ⟨i / 64, hj⟩)
  have hm : i % 64 < 64 := by omega
  have hdm : 64 * (i / 64) + i % 64 = i := by omega
  simpa only [getLsbD_limb, hm, hdm, decide_true, Bool.true_and] using hlimb

/-- setLimb bit by bit: the 64 bits of limb j come from x, the others from v. -/
theorem getLsbD_setLimb (v : Word) (j : LimbIdx) (x : Limb) (i : Nat) (hi : i < 384) :
    (setLimb v j x).getLsbD i =
      if 64 * j.val ≤ i ∧ i < 64 * j.val + 64 then x.getLsbD (i - 64 * j.val) else v.getLsbD i := by
  simp only [setLimb, BitVec.getLsbD_or, BitVec.getLsbD_and, BitVec.getLsbD_not,
    BitVec.getLsbD_shiftLeft, BitVec.getLsbD_setWidth, BitVec.getLsbD_allOnes, hi, decide_true,
    Bool.true_and]
  by_cases h1 : i < 64 * j.val
  · have h2 : ¬ (64 * j.val ≤ i ∧ i < 64 * j.val + 64) := by omega
    simp [h1, h2]
  · by_cases h3 : i < 64 * j.val + 64
    · have h2 : 64 * j.val ≤ i ∧ i < 64 * j.val + 64 := by omega
      have h4 : i - 64 * j.val < 64 := by omega
      have h5 : i - 64 * j.val < 384 := by omega
      simp [h1, h2, h4, h5]
    · have h2 : ¬ (64 * j.val ≤ i ∧ i < 64 * j.val + 64) := by omega
      have h4 : ¬ i - 64 * j.val < 64 := by omega
      have h6 : 64 ≤ i - 64 * j.val := by omega
      simp [h1, h2, h4, BitVec.getLsbD_of_ge x _ h6]

theorem limb_setLimb (v : Word) (j j' : LimbIdx) (x : Limb) :
    limb (setLimb v j x) j' = if j' = j then x else limb v j' := by
  apply BitVec.eq_of_getLsbD_eq
  intro i hi
  have hlt : 64 * j'.val + i < 384 := by omega
  rw [getLsbD_limb, getLsbD_setLimb v j x _ hlt]
  by_cases h : j' = j
  · subst h
    have hc : 64 * j'.val ≤ 64 * j'.val + i ∧ 64 * j'.val + i < 64 * j'.val + 64 := by omega
    simp only [hi, hc, and_self, if_true, decide_true, Bool.true_and, Nat.add_sub_cancel_left]
  · have hne : j'.val ≠ j.val := fun e => h (Fin.ext e)
    have hc : ¬ (64 * j.val ≤ 64 * j'.val + i ∧ 64 * j'.val + i < 64 * j.val + 64) := by omega
    rw [if_neg hc, if_neg h, getLsbD_limb]

/-! ### Reading after a Host's write -/

theorem readWord_writeLimb (k k' : WordIdx) (j : LimbIdx) (x : Limb) (s : State) :
    readWord k' (writeLimb k j x s) =
      if k = k' then setLimb (readWord k s) j x else readWord k' s := by
  simp only [readWord, writeLimb_words, Vector.getElem_set, Fin.val_inj]

theorem limbWritten_writeLimb (k k' : WordIdx) (j j' : LimbIdx) (x : Limb) (s : State) :
    limbWritten k' j' (writeLimb k j x s) =
      if k = k' ∧ j = j' then true else limbWritten k' j' s := by
  simp only [limbWritten, writeLimb_written, Vector.getElem_set, Fin.val_inj]
  by_cases hk : k = k'
  · subst hk
    simp [Vector.getElem_set, Fin.val_inj]
  · simp [hk]

/-! ### Updates that leave the operand words alone -/

theorem readWord_congr {s t : State} (h : t.words = s.words) (k : WordIdx) :
    readWord k t = readWord k s := by simp only [readWord, h]

theorem limbWritten_congr {s t : State} (h : t.written = s.written) (k : WordIdx) (j : LimbIdx) :
    limbWritten k j t = limbWritten k j s := by simp only [limbWritten, h]

theorem wordWritten_congr {s t : State} (h : t.written = s.written) (k : WordIdx) :
    wordWritten k t = wordWritten k s := by simp only [wordWritten, h]

/-- An update that leaves `words` and `written` alone keeps every word, whatever list is exempt. -/
theorem wordsKept_of_eq {s t : State} (ds : List WordIdx) (hw : t.words = s.words)
    (hf : t.written = s.written) : WordsKept ds s t := fun k _ =>
  ⟨readWord_congr hw k, fun j => limbWritten_congr hf k j⟩

theorem wordsKept_trans {ds : List WordIdx} {s t u : State} (h : WordsKept ds s t)
    (h' : WordsKept ds t u) : WordsKept ds s u := fun k hk =>
  ⟨((h' k hk).1).trans (h k hk).1, fun j => ((h' k hk).2 j).trans ((h k hk).2 j)⟩

theorem wordsKept_mono {ds ds' : List WordIdx} {s t : State} (hsub : ∀ k ∈ ds, k ∈ ds')
    (h : WordsKept ds s t) : WordsKept ds' s t := fun k hk => h k (fun hm => hk (hsub k hm))

@[simp] theorem readWord_raiseError (k : WordIdx) (c : ErrCode) (i : BitVec 32) (s : State) :
    readWord k (raiseError c i s) = readWord k s := rfl

@[simp] theorem limbWritten_raiseError (k : WordIdx) (j : LimbIdx) (c : ErrCode) (i : BitVec 32)
    (s : State) : limbWritten k j (raiseError c i s) = limbWritten k j s := rfl

@[simp] theorem readWord_noteUndefined (k : WordIdx) (u : ModelFault) (s : State) :
    readWord k (noteUndefined u s) = readWord k s := rfl

@[simp] theorem limbWritten_noteUndefined (k : WordIdx) (j : LimbIdx) (u : ModelFault)
    (s : State) : limbWritten k j (noteUndefined u s) = limbWritten k j s := rfl

/-! ### A free value's write is a write -/

theorem writeFree_eq (k : WordIdx) (s : State) :
    writeFree k s =
      writeWord k (Config.undefinedResult s.freeCount) { s with freeCount := s.freeCount + 1 } := rfl

theorem writeFree_wordsKept (k : WordIdx) (s : State) : WordsKept [k] s (writeFree k s) :=
  writeWord_wordsKept k _ { s with freeCount := s.freeCount + 1 }

@[simp] theorem limbWritten_writeFree_self (k : WordIdx) (j : LimbIdx) (s : State) :
    limbWritten k j (writeFree k s) = true := limbWritten_writeWord_self k _ j _

end Sys2Proof.Machine
end

