-- ==== Sys2Proof/Laws/Bus.lean ====
section
/-! SUPPORT. The register map and the bus, said once: where offsets lead (spec/20_memory.md R51, R52), INFO
of an access, the registers as numbers (spec/10_state.md R28 to R32), and the frames of a Host access. -/

namespace Sys2Proof.Machine

/-! ### The register map (R51, R52) -/

theorem target_operand {off : Nat} (h : 0x1000 ≤ off) :
    target off = if hj : offsetLimb off < 6 then .limb (offsetWord off) ⟨offsetLimb off, hj⟩
      else .padding (offsetWord off) := by
  unfold target
  rw [if_neg (by omega), if_neg (by omega), if_neg (by omega), if_neg (by omega), if_neg (by omega),
    if_neg (by omega), if_neg (by omega)]

/-- R52: limb j of word k, padding included, sits at 0x1000 + 0x40·k + 8·j. -/
theorem offsetWord_eq (k : WordIdx) {j : Nat} (hj : j < 8) :
    offsetWord (0x1000 + 0x40 * k.val + 8 * j) = k := by
  have hk := k.isLt
  apply Fin.ext
  simp only [offsetWord, Fin.ofNat]
  omega

theorem offsetLimb_eq (k : WordIdx) {j : Nat} (hj : j < 8) :
    offsetLimb (0x1000 + 0x40 * k.val + 8 * j) = j := by
  simp only [offsetLimb]
  omega

theorem target_limb (k : WordIdx) (j : LimbIdx) :
    target (0x1000 + 0x40 * k.val + 8 * j.val) = .limb k j := by
  have hj := j.isLt
  rw [target_operand (by omega), dif_pos (by rw [offsetLimb_eq k (by omega)]; exact hj)]
  simp only [offsetLimb_eq k (show j.val < 8 by omega), offsetWord_eq k (show j.val < 8 by omega)]

theorem target_padding (k : WordIdx) {j : Nat} (h6 : 6 ≤ j) (h8 : j < 8) :
    target (0x1000 + 0x40 * k.val + 8 * j) = .padding k := by
  rw [target_operand (by omega), dif_neg (by rw [offsetLimb_eq k h8]; omega), offsetWord_eq k h8]

theorem target_reserved {off : Nat} (h : 0x030 ≤ off) (h' : off < 0x1000) :
    target off = .reserved := by
  unfold target
  rw [if_neg (by omega), if_neg (by omega), if_neg (by omega), if_neg (by omega), if_neg (by omega),
    if_neg (by omega), if_pos h']

/-- R59: the operand-word region is 0x1000 and above. -/
theorem isOperand_iff {off : Nat} (h8 : off % 8 = 0) :
    (target off).isOperand = true ↔ 0x1000 ≤ off := by
  constructor
  · intro h
    by_contra hlt
    have hcases : off = 0x000 ∨ off = 0x008 ∨ off = 0x010 ∨ off = 0x018 ∨ off = 0x020 ∨ off = 0x028 ∨
        0x030 ≤ off := by omega
    rcases hcases with rfl | rfl | rfl | rfl | rfl | rfl | h3
    all_goals first | exact absurd h (by decide) | skip
    rw [target_reserved h3 (by omega)] at h
    exact absurd h (by decide)
  · intro h
    rw [target_operand h]
    split <;> rfl

/-- Only offset 0x018 is CMD. -/
theorem target_eq_cmd {off : Nat} : target off = .cmd ↔ off = 0x018 := by
  constructor
  · intro h; unfold target at h; repeat (split at h; · first | assumption | cases h)
    cases h
  · rintro rfl; rfl

/-- Only offset 0x008 is CTRL. -/
theorem target_eq_ctrl {off : Nat} : target off = .ctrl ↔ off = 0x008 := by
  constructor
  · intro h; unfold target at h; repeat (split at h; · first | assumption | cases h)
    cases h
  · rintro rfl; rfl

theorem legalAccess_iff {off size : Nat} :
    legalAccess off size = true ↔ size = 8 ∧ off % 8 = 0 := by
  simp [legalAccess]

/-! ### INFO of an access (R56, R59) -/

theorem accessInfo_read {off : Nat} (h : off < 0x2000) :
    accessInfo off false = BitVec.ofNat 32 off := by
  rw [accessInfo, Nat.mod_eq_of_lt h]
  simp

theorem accessInfo_write {off : Nat} (h : off < 0x2000) :
    accessInfo off true = BitVec.ofNat 32 (off + 2 ^ 16) := by
  have hor : off ||| 1 <<< 16 = off + 2 ^ 16 := by
    rw [Nat.or_comm, ← Nat.shiftLeft_add_eq_or_of_lt (show off < 2 ^ 16 by omega)]
    omega
  rw [accessInfo, Nat.mod_eq_of_lt h]
  apply BitVec.eq_of_toNat_eq
  rw [BitVec.toNat_or, BitVec.toNat_ofNat, Nat.mod_eq_of_lt (by omega),
    show ((BitVec.ofBool true).setWidth 32 <<< 16).toNat = 1 <<< 16 by decide, hor, BitVec.toNat_ofNat,
    Nat.mod_eq_of_lt (by omega)]

/-! ### Registers as numbers (R28 to R32) -/

theorem toNat_statusReg (s : State) :
    (statusReg s).toNat = s.busy.toNat + 2 * s.done.toNat + 4 * s.err.toNat := by
  simp only [statusReg]
  cases s.busy <;> cases s.done <;> cases s.err <;> decide

theorem toNat_ctrlReg (s : State) : (ctrlReg s).toNat = s.ctrlDbg.toNat := by
  simp only [ctrlReg]
  cases s.ctrlDbg <;> decide

theorem toNat_intEnReg (s : State) :
    (intEnReg s).toNat = s.intEn.doneIe.toNat + 2 * s.intEn.errIe.toNat := by
  simp only [intEnReg]
  cases s.intEn.doneIe <;> cases s.intEn.errIe <;> decide

theorem toNat_cmdReg (s : State) : (cmdReg s).toNat = s.lastCmd.toNat := by
  have := s.lastCmd.isLt
  rw [cmdReg, BitVec.toNat_setWidth, Nat.mod_eq_of_lt (by omega)]

theorem toNat_errInfoReg (s : State) :
    (errInfoReg s).toNat = s.errInfo.code.toByte.toNat + 2 ^ 32 * s.errInfo.info.toNat := by
  have hc := s.errInfo.code.toByte.isLt
  have hi := s.errInfo.info.isLt
  rw [errInfoReg, BitVec.toNat_or, BitVec.toNat_shiftLeft, BitVec.toNat_setWidth, BitVec.toNat_setWidth,
    Nat.mod_eq_of_lt (show s.errInfo.code.toByte.toNat < 2 ^ 64 by omega),
    Nat.mod_eq_of_lt (show s.errInfo.info.toNat < 2 ^ 64 by omega),
    Nat.mod_eq_of_lt (by rw [Nat.shiftLeft_eq]; omega), Nat.or_comm,
    ← Nat.shiftLeft_add_eq_or_of_lt (show s.errInfo.code.toByte.toNat < 2 ^ 32 by omega),
    Nat.shiftLeft_eq]
  omega

/-! ### What a Host access can do (R50, R56, R58, R59) -/

theorem inWindow_iff {a : Access} : a.inWindow = true ↔ a.off < 0x2000 := decide_eq_true_iff

/-- R50: an offset at or above 0x2000 is no access to this block. -/
theorem hostAccess_outside {a : Access} (h : 0x2000 ≤ a.off) (s : State) :
    hostAccess a s = .fault (.outsideWindow a.off) := by
  have hw : a.inWindow = false := by rw [← Bool.not_eq_true, inWindow_iff]; omega
  simp only [hostAccess, hw, Bool.false_eq_true, if_false]

theorem hostAccess_read {off : Nat} (h : off < 0x2000) (size : Nat) (s : State) :
    hostAccess (.read off size) s = .next (busRead off size s) := by
  simp only [hostAccess, Access.inWindow, Access.off, Config.windowSize, h, decide_true, if_true]

theorem hostAccess_write {off : Nat} (h : off < 0x2000) (size : Nat) (v : BitVec 64) (s : State) :
    hostAccess (.write off size v) s = .next (busWrite off size v s) := by
  simp only [hostAccess, Access.inWindow, Access.off, Config.windowSize, h, decide_true, if_true]

/-- R56: an illegal read. -/
theorem busRead_illegal {off size : Nat} (h : size ≠ 8 ∨ off % 8 ≠ 0) (s : State) :
    busRead off size s = respond (.read 0#64 true) (raiseError .busAccess (accessInfo off false) s) := by
  have hl : legalAccess off size = false := by rw [← Bool.not_eq_true, legalAccess_iff]; omega
  simp [busRead, hl]

/-- R56: an illegal write. -/
theorem busWrite_illegal {off size : Nat} (h : size ≠ 8 ∨ off % 8 ≠ 0) (v : BitVec 64) (s : State) :
    busWrite off size v s = respond (.write true) (raiseError .busAccess (accessInfo off true) s) := by
  have hl : legalAccess off size = false := by rw [← Bool.not_eq_true, legalAccess_iff]; omega
  simp [busWrite, hl]

/-- R59: a legal read of a locked offset. -/
theorem busRead_locked {off : Nat} {s : State} (h8 : off % 8 = 0) (ho : 0x1000 ≤ off)
    (hb : s.busy = true) : busRead off 8 s =
      respond (.read 0#64 false) (raiseError .accessWhileBusy (accessInfo off false) s) := by
  have hl : legalAccess off 8 = true := legalAccess_iff.2 ⟨rfl, h8⟩
  simp [busRead, hl, hb, (isOperand_iff h8).2 ho]

/-- R59: a legal write of a locked offset. -/
theorem busWrite_locked {off : Nat} {s : State} (h8 : off % 8 = 0) (ho : 0x1000 ≤ off)
    (hb : s.busy = true) (v : BitVec 64) : busWrite off 8 v s =
      respond (.write false) (raiseError .accessWhileBusy (accessInfo off true) s) := by
  have hl : legalAccess off 8 = true := legalAccess_iff.2 ⟨rfl, h8⟩
  simp [busWrite, hl, hb, (isOperand_iff h8).2 ho]

/-- A legal read that BUSY does not lock out (R51 to R53, R58). -/
theorem busRead_open {off : Nat} {s : State} (h8 : off % 8 = 0) (h : off < 0x1000 ∨ s.busy = false) :
    busRead off 8 s =
      respond (.read (targetValue s (target off)) false) (noteUninitRead (target off) s) := by
  have hl : legalAccess off 8 = true := legalAccess_iff.2 ⟨rfl, h8⟩
  have hk : (s.busy && (target off).isOperand) = false := by
    rw [← Bool.not_eq_true, Bool.and_eq_true, isOperand_iff h8]
    rintro ⟨hb, ho⟩
    rcases h with h | h
    · omega
    · rw [h] at hb; cases hb
  simp only [busRead, hl, hk, Bool.not_true, Bool.false_eq_true, if_false]

/-- A legal write that BUSY does not lock out (R51 to R53). -/
theorem busWrite_open {off : Nat} {s : State} (h8 : off % 8 = 0) (h : off < 0x1000 ∨ s.busy = false)
    (v : BitVec 64) :
    busWrite off 8 v s = respond (.write false) (writeTarget v s (target off)) := by
  have hl : legalAccess off 8 = true := legalAccess_iff.2 ⟨rfl, h8⟩
  have hk : (s.busy && (target off).isOperand) = false := by
    rw [← Bool.not_eq_true, Bool.and_eq_true, isOperand_iff h8]
    rintro ⟨hb, ho⟩
    rcases h with h | h
    · omega
    · rw [h] at hb; cases hb
  simp only [busWrite, hl, hk, Bool.not_true, Bool.false_eq_true, if_false]

/-- A read of a register or of a padding limb records nothing. -/
theorem noteUninitRead_of_not_limb {t : Target} (h : ∀ k j, t ≠ .limb k j) (s : State) :
    noteUninitRead t s = s := by
  cases t with
  | limb k j => exact absurd rfl (h k j)
  | _ => rfl

/-- Inside the window a Host access always answers a next state. -/
theorem hostAccess_next {a : Access} (h : a.inWindow = true) (s : State) :
    ∃ t, hostAccess a s = .next t := by
  cases a <;> simp [hostAccess, h]

/-- A read changes ERR, ERRINFO, the response and the record of R252, and nothing else (R58). -/
theorem busRead_eq (off size : Nat) (s : State) :
    busRead off size s = { s with
      err := (busRead off size s).err
      errInfo := (busRead off size s).errInfo
      resp := (busRead off size s).resp
      undef := (busRead off size s).undef } := by
  simp only [busRead]
  split
  · rfl
  · split
    · rfl
    · unfold noteUninitRead
      split
      · split <;> rfl
      all_goals rfl

/-! ### Bytes of the window (R54) -/

theorem windowByte_inside {off b : Nat} (h8 : off % 8 = 0) (hlt : off < 0x2000) (hb : b < 8)
    (s : State) : windowByte (Config.base + off + b) s = some (byteOf (peek off s) b) := by
  have hw : Config.windowSize = 0x2000 := rfl
  have h1 : Config.base + off + b - Config.base = off + b := by omega
  have h2 : (off + b) % 8 = b := by omega
  rw [windowByte, if_pos ⟨by omega, by omega⟩, h1]
  simp only [h2, Nat.add_sub_cancel]

theorem windowByte_outside {a : Nat} (h : a < Config.base ∨ Config.base + 0x2000 ≤ a) (s : State) :
    windowByte a s = none := by
  have hw : Config.windowSize = 0x2000 := rfl
  rw [windowByte, if_neg (by omega)]

end Sys2Proof.Machine
end

