-- ==== Sys2Proof/Laws/Constants.lean ====
section
/-! SUPPORT. Numeric facts about the constant store (spec/00_scope.md R13, R14), and the powers of two
that the later proofs meet as numerals. -/

namespace Sys2Proof.Laws

open Config

/-- 2^384 as the numeral that R abbreviates. Tactics do not evaluate a power this large by themselves. -/
theorem two_pow_384 : 2 ^ 384 = R := by decide +kernel

theorem R_pos : 0 < R := by decide +kernel

theorem Q_lt_R : Q < R := by decide +kernel

theorem N_lt_R : N < R := by decide +kernel

theorem N_lt_Q : N < Q := by decide +kernel

theorem two_lt_Q : 2 < Q := by decide +kernel

theorem two_lt_N : 2 < N := by decide +kernel

/-- R14: Q is above 2^383. -/
theorem R_lt_two_Q : R < 2 * Q := by decide +kernel

/-- R13: HALF_Q = (Q+1)/2. -/
theorem two_HALF_Q : 2 * HALF_Q = Q + 1 := by decide +kernel

theorem two_HALF_Q_lt_R : 2 * HALF_Q < R := by decide +kernel

/-- Either modulus is positive. -/
theorem value_pos (m : Modulus) : 0 < m.value := by cases m <;> decide +kernel

theorem one_lt_value (m : Modulus) : 1 < m.value := by cases m <;> decide +kernel

/-- R14: every residue fits in a u384. -/
theorem value_lt_R (m : Modulus) : m.value < R := by cases m <;> decide +kernel

theorem value_lt_two_pow (m : Modulus) : m.value < 2 ^ 384 := two_pow_384 ▸ value_lt_R m

/-- R15, R17: the model's constants are inv_Q(R) and inv_N(R). -/
theorem rInv_spec (m : Modulus) : IsInverse m.value R m.rInv := by
  cases m <;> exact ⟨by decide +kernel, by decide +kernel, by decide +kernel⟩

/-- Multiplying by R and then by inv_m(R) is multiplying by 1. -/
theorem R_mul_rInv_modEq (m : Modulus) : R * m.rInv ≡ 1 [MOD m.value] := by
  rw [Nat.ModEq, (rInv_spec m).2.2, Nat.mod_eq_of_lt (one_lt_value m)]

/-- R13: RR_N = R^2 mod N. -/
theorem RR_N_eq : RR_N = R ^ 2 % N := by decide +kernel

theorem RR_Q_eq : RR_Q = R ^ 2 % Q := by decide +kernel

theorem R_MOD_Q_eq : R_MOD_Q = R % Q := by decide +kernel

theorem R_MOD_N_eq : R_MOD_N = R % N := by decide +kernel

set_option exponentiation.threshold 400 in
/-- A residue narrowed to a u384 is itself. -/
theorem toNat_ofNat_of_lt {n : Nat} (h : n < R) : (BitVec.ofNat 384 n).toNat = n :=
  (BitVec.toNat_ofNat n 384).trans (Nat.mod_eq_of_lt (two_pow_384.symm ▸ h))

set_option exponentiation.threshold 400 in
theorem toNat_lt_R (w : Word) : w.toNat < R := two_pow_384 ▸ w.isLt

/-- A word is the narrowing of its own value. -/
theorem ofNat_toNat (w : Word) : BitVec.ofNat 384 w.toNat = w := BitVec.ofNat_toNat 384 w |>.trans (BitVec.setWidth_eq w)

theorem word_eq_iff_toNat {v w : Word} : v = w ↔ v.toNat = w.toNat := BitVec.toNat_inj.symm

set_option exponentiation.threshold 400 in
theorem ne_zero_iff_toNat {w : Word} : w ≠ 0#384 ↔ w.toNat ≠ 0 := by
  rw [Ne, word_eq_iff_toNat, show (0#384).toNat = 0 from rfl]

end Sys2Proof.Laws
end

