-- ==== Sys2Proof/Laws/FieldArith.lean ====
section
/-! SUPPORT. The pseudocode of R110 to R115 computes the residues the rules give, on in-range operands. -/

namespace Sys2Proof.Laws

open Config Machine

/-! ### The limb-vector primitives as numbers (R103) -/

theorem add384_fst (x y : Word) : (add384 x y).1.toNat = (x.toNat + y.toNat) % R := by
  simp only [add384, BitVec.toNat_add, two_pow_384]

theorem add384_snd (x y : Word) : (add384 x y).2 = decide (R ≤ x.toNat + y.toNat) := rfl

theorem sub384_fst (x y : Word) : (sub384 x y).1.toNat = (R - y.toNat + x.toNat) % R := by
  simp only [sub384, BitVec.toNat_sub, two_pow_384]

theorem sub384_snd (x y : Word) : (sub384 x y).2 = decide (x.toNat < y.toNat) := rfl

theorem toNat_qWord : qWord.toNat = Q := toNat_ofNat_of_lt Q_lt_R

theorem toNat_halfQWord : halfQWord.toNat = HALF_Q :=
  toNat_ofNat_of_lt (by have := two_HALF_Q_lt_R; omega)

/-! ### Reduction of a sum below 2m -/

/-- A number below 2m reduces by at most one subtraction. -/
theorem mod_of_lt_two_mul {n m : Nat} (h : n < 2 * m) : n % m = if n < m then n else n - m := by
  split
  · exact Nat.mod_eq_of_lt ‹_›
  · rw [Nat.mod_eq_sub_mod (by omega), Nat.mod_eq_of_lt (by omega)]

/-- select on a condition whose value is known. -/
theorem select_eq {c : Bool} {x y : Word} (b : Bool) (h : c = b) :
    select c x y = if b then x else y := by rw [h, select]

/-- R110: the pseudocode gives (a + b) mod Q. -/
theorem toNat_faddValue {a b : Word} (ha : a.toNat < Q) (hb : b.toNat < Q) :
    (faddValue a b).toNat = (a.toNat + b.toNat) % Q := by
  have hQ := Q_lt_R
  have h2 := R_lt_two_Q
  have hsum := add384_fst a b
  have hred := sub384_fst (add384 a b).1 qWord
  have hbor := sub384_snd (add384 a b).1 qWord
  rw [toNat_qWord] at hred hbor
  rw [mod_of_lt_two_mul (show a.toNat + b.toNat < 2 * R by omega)] at hsum
  rw [mod_of_lt_two_mul (show a.toNat + b.toNat < 2 * Q by omega), faddValue]
  by_cases hq : a.toNat + b.toNat < Q
  · rw [if_pos (by omega)] at hsum
    rw [select_eq false (by simp [add384_snd, hbor, hsum]; omega), if_neg (by simp), if_pos hq, hsum]
  · rw [select_eq true (by simp [add384_snd, hbor, hsum]; split <;> omega), if_pos rfl, if_neg hq,
      hred]
    by_cases hc : a.toNat + b.toNat < R
    · rw [if_pos hc] at hsum
      rw [hsum, mod_of_lt_two_mul (by omega), if_neg (by omega)]; omega
    · rw [if_neg hc] at hsum
      rw [hsum, Nat.mod_eq_of_lt (by omega)]; omega

/-- R111: the pseudocode gives (a - b) mod Q. -/
theorem toNat_fsubValue {a b : Word} (ha : a.toNat < Q) (hb : b.toNat < Q) :
    (fsubValue a b).toNat = (a.toNat + (Q - b.toNat)) % Q := by
  have hQ := Q_lt_R
  have hdiff := sub384_fst a b
  have hup := add384_fst (sub384 a b).1 qWord
  rw [toNat_qWord] at hup
  rw [mod_of_lt_two_mul (by omega)] at hdiff
  rw [mod_of_lt_two_mul (show a.toNat + (Q - b.toNat) < 2 * Q by omega), fsubValue]
  by_cases hlt : a.toNat < b.toNat
  · rw [if_pos (by omega)] at hdiff
    rw [select_eq true (by simpa [sub384_snd] using hlt), if_pos rfl, if_pos (by omega), hup, hdiff,
      mod_of_lt_two_mul (by omega), if_neg (by omega)]
    omega
  · rw [if_neg (by omega)] at hdiff
    rw [select_eq false (by simpa [sub384_snd] using hlt), if_neg (by simp), if_neg (by omega), hdiff]
    omega

set_option exponentiation.threshold 400 in
/-- R112: the pseudocode gives (Q - a) mod Q. -/
theorem toNat_fnegValue {a : Word} (ha : a.toNat < Q) :
    (fnegValue a).toNat = (Q - a.toNat) % Q := by
  have hQ := Q_lt_R
  have hsub := sub384_fst qWord a
  rw [toNat_qWord, mod_of_lt_two_mul (by omega)] at hsub
  by_cases h0 : a = 0#384
  · rw [fnegValue, select_eq true (by simp [isZero, h0]), if_pos rfl, h0]
    exact (Nat.mod_self Q).symm
  · have hpos : a.toNat ≠ 0 := ne_zero_iff_toNat.1 h0
    rw [Nat.mod_eq_of_lt (by omega), fnegValue, select_eq false (by simp [isZero, h0]),
      if_neg (by simp), hsub, if_neg (by omega)]
    omega

/-- R113: the pseudocode gives (2a) mod Q. -/
theorem toNat_fdblValue {a : Word} (ha : a.toNat < Q) : (fdblValue a).toNat = 2 * a.toNat % Q := by
  rw [fdblValue, toNat_faddValue ha ha, two_mul]

/-- R114: the pseudocode gives (3a) mod Q. -/
theorem toNat_ftplValue {a : Word} (ha : a.toNat < Q) : (ftplValue a).toNat = 3 * a.toNat % Q := by
  have hd := toNat_faddValue ha ha
  have hlt : (faddValue a a).toNat < Q := by rw [hd]; exact Nat.mod_lt _ (value_pos .field)
  rw [ftplValue, toNat_faddValue hlt ha, hd, Nat.mod_add_mod]
  congr 1; omega

/-- R115: the carry is 0 for every u384. -/
theorem fhalfSum_snd (a : Word) : (fhalfSum a).2 = false := by
  have hR := toNat_lt_R a
  have hH := two_HALF_Q_lt_R
  rw [fhalfSum, add384_snd, toNat_halfQWord, BitVec.toNat_ushiftRight, Nat.shiftRight_eq_div_pow]
  exact decide_eq_false (by omega)

/-- R115: half of an even operand; half of a + Q for an odd one. -/
theorem toNat_fhalfValue {a : Word} (ha : a.toNat < Q) :
    (fhalfValue a).toNat = if a.toNat % 2 = 1 then (a.toNat + Q) / 2 else a.toNat / 2 := by
  have hQR := Q_lt_R
  have hQ := two_HALF_Q
  have hsh : (a >>> 1).toNat = a.toNat / 2 := by
    rw [BitVec.toNat_ushiftRight, Nat.shiftRight_eq_div_pow, pow_one]
  have hbit : a.getLsbD 0 = decide (a.toNat % 2 = 1) := by
    rw [BitVec.getLsbD, Nat.testBit_zero]
  simp only [fhalfValue, select, hbit, decide_eq_true_eq]
  split
  · rw [fhalfSum, add384_fst, hsh, toNat_halfQWord, Nat.mod_eq_of_lt (by omega)]
    omega
  · exact hsh

/-- R115: the result is a residue, and twice the result is a. -/
theorem fhalfValue_spec {a : Word} (ha : a.toNat < Q) :
    (fhalfValue a).toNat < Q ∧ 2 * (fhalfValue a).toNat % Q = a.toNat := by
  have hQ := two_HALF_Q
  rw [toNat_fhalfValue ha]
  split
  · have h : 2 * ((a.toNat + Q) / 2) = a.toNat + Q := by omega
    rw [h, Nat.add_mod_right, Nat.mod_eq_of_lt ha]
    omega
  · have h : 2 * (a.toNat / 2) = a.toNat := by omega
    rw [h, Nat.mod_eq_of_lt ha]
    omega

end Sys2Proof.Laws
end

