-- ==== Sys2Proof/Laws/Commands.lean ====
section
/-! SUPPORT. What a command can do, said once: the cases of the one shared order of R101, and the one form
that the meanings of the fifteen modular commands have. -/

namespace Sys2Proof.Machine

/-! ### The validity record (R24) -/

/-- Recording the sources' validity changes `undef` only. -/
theorem noteUninit_eq (srcs : List WordIdx) (s : State) :
    noteUninit srcs s = { s with undef := (noteUninit srcs s).undef } := by
  rw [noteUninit]; split <;> rfl

@[simp] theorem noteUninit_words (srcs : List WordIdx) (s : State) :
    (noteUninit srcs s).words = s.words := by rw [noteUninit_eq]

@[simp] theorem noteUninit_written (srcs : List WordIdx) (s : State) :
    (noteUninit srcs s).written = s.written := by rw [noteUninit_eq]

@[simp] theorem noteUninit_freeCount (srcs : List WordIdx) (s : State) :
    (noteUninit srcs s).freeCount = s.freeCount := by rw [noteUninit_eq]

@[simp] theorem readWord_noteUninit (k : WordIdx) (srcs : List WordIdx) (s : State) :
    readWord k (noteUninit srcs s) = readWord k s := readWord_congr (noteUninit_words srcs s) k

theorem noteUninit_errorKept (srcs : List WordIdx) (s : State) :
    ErrorKept s (noteUninit srcs s) := by rw [noteUninit_eq]; exact ⟨rfl, rfl⟩

theorem noteUninit_controlKept (srcs : List WordIdx) (s : State) :
    ControlKept s (noteUninit srcs s) := by
  rw [noteUninit_eq]; exact ⟨rfl, rfl, rfl, rfl, rfl, rfl, rfl, rfl, rfl⟩

theorem noteUninit_wordsKept (ds srcs : List WordIdx) (s : State) :
    WordsKept ds s (noteUninit srcs s) :=
  wordsKept_of_eq ds (noteUninit_words srcs s) (noteUninit_written srcs s)

/-- With every source written, nothing is recorded. -/
theorem noteUninit_of_written {srcs : List WordIdx} {s : State}
    (h : ∀ k ∈ srcs, wordWritten k s = true) : noteUninit srcs s = s := by
  rw [noteUninit, List.find?_eq_none.2 (by simpa using h)]

/-- The first source with a clear flag is the one recorded. -/
theorem noteUninit_undef_of_first {pre post : List WordIdx} {k : WordIdx} {s : State}
    (hpre : ∀ k' ∈ pre, wordWritten k' s = true) (hk : wordWritten k s = false) :
    (noteUninit (pre ++ k :: post) s).undef = (s.undef <|> some (.uninitOperand k)) := by
  have hnone : pre.find? (fun k' => !wordWritten k' s) = none :=
    List.find?_eq_none.2 (by simpa using hpre)
  rw [noteUninit, List.find?_append, hnone]
  simp [hk]

/-! ### The order of R101 -/

/-- Everything a modular command can do (R24, R100, R179, R250). -/
theorem runModularWith_cases (extra : Option WordIdx) (op : Opcode) (m : Modulus)
    (srcs : List WordIdx) (rd : WordIdx) (v : Word) (s : State) :
    (firstOutOfRange m srcs s = none ∧ (extra = none ∨ s.pdbg = false) ∧
      runModularWith extra op m srcs rd v s = writeWord rd v (noteUninit srcs s)) ∨
    (∃ k, s.pdbg = true ∧
      (firstOutOfRange m srcs s = some k ∨ firstOutOfRange m srcs s = none ∧ extra = some k) ∧
      runModularWith extra op m srcs rd v s = invariantError k (noteUninit srcs s)) ∨
    (∃ k, s.pdbg = false ∧ firstOutOfRange m srcs s = some k ∧
      runModularWith extra op m srcs rd v s =
        writeFree rd (noteUndefined (.operandOutOfRange op k) (noteUninit srcs s))) := by
  simp only [runModularWith]
  cases hf : firstOutOfRange m srcs s with
  | some k => cases hd : s.pdbg <;> simp
  | none => cases extra <;> cases hd : s.pdbg <;> simp

/-- R100: no source word is out of range exactly when every source value is below m. -/
theorem firstOutOfRange_eq_none {m : Modulus} {srcs : List WordIdx} {s : State} :
    firstOutOfRange m srcs s = none ↔ ∀ k ∈ srcs, (readWord k s).toNat < m.value := by
  simp [firstOutOfRange, List.find?_eq_none, inRange]

/-- R243: the failing source word reported is the first one in the order of reading. -/
theorem firstOutOfRange_of_first {m : Modulus} {pre post : List WordIdx} {k : WordIdx} {s : State}
    (hpre : ∀ k' ∈ pre, (readWord k' s).toNat < m.value) (hk : m.value ≤ (readWord k s).toNat) :
    firstOutOfRange m (pre ++ k :: post) s = some k := by
  have hnone : pre.find? (fun k' => !inRange m k' s) = none :=
    List.find?_eq_none.2 (by simpa [inRange] using hpre)
  rw [firstOutOfRange, List.find?_append, hnone]
  simp [inRange, hk]

/-- On in-range operands the value is written, whatever pdbg is, if no further invariant fails. -/
theorem runModular_inRange {op : Opcode} {m : Modulus} {srcs : List WordIdx} {rd : WordIdx}
    {v : Word} {s : State} (h : ∀ k ∈ srcs, (readWord k s).toNat < m.value) :
    runModular op m srcs rd v s = writeWord rd v (noteUninit srcs s) := by
  rw [runModular]
  rcases runModularWith_cases none op m srcs rd v s with ⟨-, -, h1⟩ | ⟨k, -, h1, -⟩ | ⟨k, -, h1, -⟩
  · exact h1
  · simp [firstOutOfRange_eq_none.2 h] at h1
  · simp [firstOutOfRange_eq_none.2 h] at h1

/-! ### The one form of the fifteen modular commands -/

/-- R115, R250: FHALF's own invariant never fails. -/
theorem fhalfInvariant_eq_none (rs1 : WordIdx) (s : State) : fhalfInvariant rs1 s = none := by
  rw [fhalfInvariant, Laws.fhalfSum_snd]; rfl

/-- The value that a modular command computes from the words of `s`. -/
def resultWord (i : Instr) (s : State) : Word :=
  match i with
  | .fadd _ rs1 rs2 => faddValue (readWord rs1 s) (readWord rs2 s)
  | .fsub _ rs1 rs2 => fsubValue (readWord rs1 s) (readWord rs2 s)
  | .fneg _ rs1 => fnegValue (readWord rs1 s)
  | .fhalf _ rs1 => fhalfValue (readWord rs1 s)
  | .fdbl _ rs1 => fdblValue (readWord rs1 s)
  | .ftpl _ rs1 => ftplValue (readWord rs1 s)
  | .fmul _ rs1 rs2 => toWord (montEngine .field (operand rs1 s) (operand rs2 s))
  | .fsqr _ rs1 => toWord (montEngine .field (operand rs1 s) (operand rs1 s))
  | .fsqrmul _ rs1 rs2 k => toWord (sqrMul .field (operand rs1 s) k.toNat (operand rs2 s))
  | .finv _ rs1 => toWord (finvValue (operand rs1 s))
  | .smul _ rs1 rs2 => toWord (montEngine .scalar (operand rs1 s) (operand rs2 s))
  | .ssqr _ rs1 => toWord (montEngine .scalar (operand rs1 s) (operand rs1 s))
  | .stomont _ rs1 => toWord (montEngine .scalar (operand rs1 s) Config.RR_N)
  | .ssqrmul _ rs1 rs2 k => toWord (sqrMul .scalar (operand rs1 s) k.toNat (operand rs2 s))
  | .sinv _ rs1 => toWord (sinvValue (operand rs1 s))
  | .psel _ _ _ => 0#384

/-- A well-formed modular command is runModular on its sources, its one destination and its value. -/
theorem exec_modular {i : Instr} {m : Modulus} (s : State) (hwf : i.wf = true)
    (hm : operandModulus i = some m) :
    ∃ rd, dests i = [rd] ∧
      exec i s = .next (runModular i.opcode m (sources i) rd (resultWord i s) s) := by
  cases i with
  | fsqrmul rd rs1 rs2 k =>
    have hk : countOk k = true := hwf
    cases hm
    exact ⟨rd, rfl, by simp only [exec, execFsqrmul, hk, if_true]; rfl⟩
  | ssqrmul rd rs1 rs2 k =>
    have hk : countOk k = true := hwf
    cases hm
    exact ⟨rd, rfl, by simp only [exec, execSsqrmul, hk, if_true]; rfl⟩
  | fhalf rd rs1 =>
    cases hm
    exact ⟨rd, rfl, by simp only [exec, execFhalf, fhalfInvariant_eq_none]; rfl⟩
  | psel => cases hm
  | fadd rd | fsub rd | fneg rd | fdbl rd | ftpl rd | fmul rd | fsqr rd | finv rd | smul rd
  | ssqr rd | stomont rd | sinv rd => cases hm; exact ⟨rd, rfl, rfl⟩

/-- On in-range operands a modular command writes its value and leaves every other word and register. -/
theorem exec_wrote {i : Instr} {m : Modulus} (s : State) (hwf : i.wf = true)
    (hm : operandModulus i = some m) (h : ∀ k ∈ sources i, (readWord k s).toNat < m.value) :
    ∃ rd t, dests i = [rd] ∧ exec i s = .next t ∧
      t = writeWord rd (resultWord i s) (noteUninit (sources i) s) ∧
      Wrote rd (resultWord i s) s t := by
  obtain ⟨rd, hd, he⟩ := exec_modular s hwf hm
  rw [runModular_inRange h] at he
  refine ⟨rd, _, hd, he, rfl, readWord_writeWord_self _ _ _,
    fun j => limbWritten_writeWord_self _ _ _ _, ?_, ?_, ?_⟩
  · exact wordsKept_trans (noteUninit_wordsKept _ _ s) (writeWord_wordsKept rd _ _)
  · exact noteUninit_errorKept (sources i) s
  · exact noteUninit_controlKept (sources i) s

/-- The two meanings that can refuse do so only on a term that is no command. -/
theorem exec_next_of_wf {i : Instr} (s : State) (hwf : i.wf = true) : ∃ t, exec i s = .next t := by
  cases hm : operandModulus i with
  | some m => obtain ⟨rd, -, he⟩ := exec_modular s hwf hm; exact ⟨_, he⟩
  | none =>
    cases i with
    | psel rd rs1 rs2 =>
      simp only [Instr.wf] at hwf
      exact ⟨runPsel rd rs1 rs2 s, by simp only [exec, execPsel, hwf, if_true]⟩
    | _ => cases hm

/-- A term that answers a next state is well-formed. -/
theorem wf_of_exec_next {i : Instr} {s t : State} (h : exec i s = .next t) : i.wf = true := by
  cases i with
  | fsqrmul rd rs1 rs2 k =>
    simp only [exec, execFsqrmul] at h
    split at h
    · assumption
    · cases h
  | ssqrmul rd rs1 rs2 k =>
    simp only [exec, execSsqrmul] at h
    split at h
    · assumption
    · cases h
  | psel rd rs1 rs2 =>
    simp only [exec, execPsel] at h
    split at h
    · assumption
    · cases h
  | _ => rfl

/-! ### PSEL -/

/-- Everything PSEL can do (R220, R250). -/
theorem runPsel_cases (rd rs1 rs2 : WordIdx) (s : State) :
    (s.pdbg = true ∧ indexOk rs2 s = false ∧
      runPsel rd rs1 rs2 s = invariantError rs2 (noteUninit (sources (.psel rd rs1 rs2)) s)) ∨
    ((s.pdbg = false ∨ indexOk rs2 s = true) ∧
      runPsel rd rs1 rs2 s = writePoint rd (pselCoord rs1 rs2 0 s) (pselCoord rs1 rs2 1 s)
        (pselCoord rs1 rs2 2 s) (noteUninit (sources (.psel rd rs1 rs2)) s)) := by
  simp only [runPsel]
  cases s.pdbg <;> cases indexOk rs2 s <;> simp

/-- R220: the mask of entry e is all ones exactly for the index e + 1. -/
theorem pselMask_eq (i : Word) {e : Nat} (he : e < 16) :
    pselMask i e = if i.toNat = e + 1 then BitVec.allOnes 384 else 0#384 := by
  have hv : (BitVec.ofNat 384 (e + 1)).toNat = e + 1 :=
    Laws.toNat_ofNat_of_lt (lt_trans (by omega) (show 17 < Config.R by decide +kernel))
  simp only [pselMask, beq_iff_eq, Laws.word_eq_iff_toNat, hv]

/-- R220: the OR of the masked entries is the selected entry, or zero if no mask matched. -/
theorem foldl_select {f : Nat → Word} {i n : Nat} (acc : Word) :
    (List.range n).foldl
      (fun out e => out ||| (f e &&& if i = e + 1 then BitVec.allOnes 384 else 0#384)) acc =
      acc ||| (if 1 ≤ i ∧ i ≤ n then f (i - 1) else 0#384) := by
  induction n with
  | zero =>
    have h : ¬ (1 ≤ i ∧ i ≤ 0) := by omega
    rw [if_neg h]; simp
  | succ n ih =>
    rw [List.range_succ, List.foldl_append, ih, List.foldl_cons, List.foldl_nil]
    by_cases h1 : i = n + 1
    · subst h1
      have h2 : ¬ (1 ≤ n + 1 ∧ n + 1 ≤ n) := by omega
      have h3 : 1 ≤ n + 1 ∧ n + 1 ≤ n + 1 := by omega
      rw [if_neg h2, if_pos rfl, if_pos h3, BitVec.or_zero, BitVec.and_allOnes, Nat.add_sub_cancel]
    · by_cases h3 : 1 ≤ i ∧ i ≤ n
      · have h4 : 1 ≤ i ∧ i ≤ n + 1 := by omega
        simp [h1, h3, h4]
      · have h4 : ¬ (1 ≤ i ∧ i ≤ n + 1) := by omega
        simp [h1, h3, h4]

/-- R220: coordinate c of the result is that of entry i - 1, or 0 for an index outside 1..16. -/
theorem pselCoord_eq (rs1 rs2 : WordIdx) (c : Nat) (s : State) :
    pselCoord rs1 rs2 c s =
      if 1 ≤ (readWord rs2 s).toNat ∧ (readWord rs2 s).toNat ≤ 16 then
        readWord (wordAfter rs1 (3 * ((readWord rs2 s).toNat - 1) + c)) s else 0#384 := by
  have hcongr : ∀ (l : List Nat) (acc : Word), (∀ e ∈ l, e < 16) →
      l.foldl (fun out e => out ||| (readWord (wordAfter rs1 (3 * e + c)) s &&&
        pselMask (readWord rs2 s) e)) acc =
      l.foldl (fun out e => out ||| (readWord (wordAfter rs1 (3 * e + c)) s &&&
        if (readWord rs2 s).toNat = e + 1 then BitVec.allOnes 384 else 0#384)) acc := by
    intro l
    induction l with
    | nil => intro acc _; rfl
    | cons e l ih =>
      intro acc h
      rw [List.foldl_cons, List.foldl_cons, pselMask_eq _ (h e (by simp)),
        ih _ fun e' he' => h e' (by simp [he'])]
  rw [pselCoord, hcongr _ _ (by simp), foldl_select]
  simp

/-- The three destinations of a command that passes R80 are three words. -/
theorem wordAfter_val {k : WordIdx} {n : Nat} (h : k.val + n < 64) :
    (wordAfter k n).val = k.val + n := by
  simp [wordAfter, Nat.mod_eq_of_lt h]

theorem writePoint_wordsKept (rd : WordIdx) (x y z : Word) (s : State) :
    WordsKept [rd, wordAfter rd 1, wordAfter rd 2] s (writePoint rd x y z s) := by
  refine wordsKept_trans (wordsKept_mono (by simp) (writeWord_wordsKept rd x s)) ?_
  refine wordsKept_trans (wordsKept_mono (by simp) (writeWord_wordsKept (wordAfter rd 1) y _)) ?_
  exact wordsKept_mono (by simp) (writeWord_wordsKept (wordAfter rd 2) z _)

/-- What the three destinations hold after PSEL's write. -/
theorem readWord_writePoint {rd : WordIdx} (h : rd.val ≤ 61) (x y z : Word) (s : State) :
    readWord rd (writePoint rd x y z s) = x ∧
    readWord (wordAfter rd 1) (writePoint rd x y z s) = y ∧
    readWord (wordAfter rd 2) (writePoint rd x y z s) = z ∧
    ∀ j, limbWritten rd j (writePoint rd x y z s) = true ∧
      limbWritten (wordAfter rd 1) j (writePoint rd x y z s) = true ∧
      limbWritten (wordAfter rd 2) j (writePoint rd x y z s) = true := by
  have h1 := wordAfter_val (k := rd) (n := 1) (by omega)
  have h2 := wordAfter_val (k := rd) (n := 2) (by omega)
  have e1 : wordAfter rd 1 ≠ rd := fun e => by rw [e] at h1; omega
  have e2 : wordAfter rd 2 ≠ rd := fun e => by rw [e] at h2; omega
  have e3 : wordAfter rd 2 ≠ wordAfter rd 1 := fun e => by rw [e] at h2; omega
  simp [writePoint, readWord_writeWord, limbWritten_writeWord, e1, e2, e3]

/-! ### Where a command reaches a model fault (R252) -/

/-- With every source written and the result defined, a command reaches no model fault. -/
theorem exec_undef_of_defined {i : Instr} {s t : State} (hw : SourcesWritten i s)
    (hd : ResultDefined i s) (h : exec i s = .next t) : t.undef = s.undef := by
  have hwf := wf_of_exec_next h
  cases hm : operandModulus i with
  | some m =>
    obtain ⟨rd, -, he⟩ := exec_modular s hwf hm
    rw [he] at h
    cases h
    rw [runModular]
    rcases runModularWith_cases none i.opcode m (sources i) rd (resultWord i s) s with
      ⟨-, -, h1⟩ | ⟨k, -, -, h1⟩ | ⟨k, hp, hf, h1⟩
    · rw [h1, noteUninit_of_written hw]; rfl
    · rw [h1, noteUninit_of_written hw]; rfl
    · rcases hd with hd | hd
      · rw [hp] at hd; cases hd
      · rw [firstOutOfRange_eq_none.2 (hd m hm)] at hf; cases hf
  | none =>
    cases i with
    | psel rd rs1 rs2 =>
      simp only [Instr.wf] at hwf
      simp only [exec, execPsel, hwf, if_true] at h
      cases h
      rcases runPsel_cases rd rs1 rs2 s with ⟨-, -, h1⟩ | ⟨-, h1⟩ <;>
        rw [h1, noteUninit_of_written hw] <;> rfl
    | _ => cases hm

/-! ### Frames in sequence, and the one error of a completion -/

theorem errorKept_trans {s t u : State} (h : ErrorKept s t) (h' : ErrorKept t u) : ErrorKept s u :=
  ⟨h'.1.trans h.1, h'.2.trans h.2⟩

theorem controlKept_trans {s t u : State} (h : ControlKept s t) (h' : ControlKept t u) :
    ControlKept s u := by
  obtain ⟨a1, a2, a3, a4, a5, a6, a7, a8, a9⟩ := h
  obtain ⟨b1, b2, b3, b4, b5, b6, b7, b8, b9⟩ := h'
  exact ⟨b1.trans a1, b2.trans a2, b3.trans a3, b4.trans a4, b5.trans a5, b6.trans a6, b7.trans a7,
    b8.trans a8, b9.trans a9⟩

/-- INVARIANT at completion records its source word if no error was recorded before (R241, R250). -/
theorem invariantError_errInfo (srcs : List WordIdx) (k : WordIdx) (s : State) :
    (invariantError k (noteUninit srcs s)).err = true ∧
    (invariantError k (noteUninit srcs s)).errInfo =
      if s.err then s.errInfo else ⟨.invariant, BitVec.ofNat 32 k.val⟩ := by
  have h := noteUninit_errorKept srcs s
  refine ⟨rfl, ?_⟩
  simp only [invariantError, raiseError, wordInfo, h.1, h.2]

end Sys2Proof.Machine
end

