-- ==== Sys2Proof/Laws/Decode.lean ====
section
/-! SUPPORT. The encoding as digits: a command word and its fields as numbers (spec/30_encoding.md R71,
R84), and the fields of an encoded word. -/

namespace Sys2Proof.Laws

open Sys2Proof

/-! ### Fields as digits (R71) -/

theorem toNat_opField (c : BitVec 32) : (opField c).toNat = c.toNat % 64 := by
  simp [opField, BitVec.extractLsb'_toNat]

theorem val_idxField (lo : Nat) (c : BitVec 32) :
    (idxField lo c).val = c.toNat / 2 ^ lo % 64 := by
  simp [idxField, Nat.shiftRight_eq_div_pow]

theorem toNat_immField (c : BitVec 32) : (immField c).toNat = c.toNat / 2 ^ 24 % 256 := by
  simp [immField, BitVec.extractLsb'_toNat, Nat.shiftRight_eq_div_pow]

theorem toNat_cmdWord (v : BitVec 64) : (cmdWord v).toNat = v.toNat % 2 ^ 32 := by
  simp [cmdWord, BitVec.extractLsb'_toNat]

theorem toNat_cmdHigh (v : BitVec 64) : (cmdHigh v).toNat = v.toNat / 2 ^ 32 := by
  have := v.isLt
  simp [cmdHigh, BitVec.extractLsb'_toNat, Nat.shiftRight_eq_div_pow]
  omega

/-! ### An encoded word as a sum (R84) -/

/-- OR of a number below 2^i and a multiple of 2^i is their sum. -/
theorem or_shift_eq_add {x i : Nat} (y : Nat) (h : x < 2 ^ i) : x ||| y <<< i = x + y * 2 ^ i := by
  rw [Nat.or_comm, ← Nat.shiftLeft_add_eq_or_of_lt h y, Nat.shiftLeft_eq, Nat.add_comm]

theorem toNat_enc (op : Opcode) (rd rs1 rs2 : WordIdx) (k : BitVec 8) :
    (enc op rd rs1 rs2 k).toNat =
      op.toNat + rd.val * 2 ^ 6 + rs1.val * 2 ^ 12 + rs2.val * 2 ^ 18 + k.toNat * 2 ^ 24 := by
  have h0 := op.isLt
  have h1 := rd.isLt
  have h2 := rs1.isLt
  have h3 := rs2.isLt
  have h4 := k.isLt
  have hm : ∀ x i : Nat, x <<< i < 2 ^ 32 → x <<< i % 2 ^ 32 = x <<< i :=
    fun _ _ h => Nat.mod_eq_of_lt h
  simp only [enc, BitVec.toNat_or, BitVec.toNat_shiftLeft, BitVec.toNat_setWidth, BitVec.toNat_ofNat]
  rw [Nat.mod_eq_of_lt (show op.toNat < 2 ^ 32 by omega),
    Nat.mod_eq_of_lt (show rd.val < 2 ^ 32 by omega), Nat.mod_eq_of_lt (show rs1.val < 2 ^ 32 by omega),
    Nat.mod_eq_of_lt (show rs2.val < 2 ^ 32 by omega), Nat.mod_eq_of_lt (show k.toNat < 2 ^ 32 by omega),
    hm _ 6 (by rw [Nat.shiftLeft_eq]; omega), hm _ 12 (by rw [Nat.shiftLeft_eq]; omega),
    hm _ 18 (by rw [Nat.shiftLeft_eq]; omega), hm _ 24 (by rw [Nat.shiftLeft_eq]; omega),
    or_shift_eq_add rd.val (show op.toNat < 2 ^ 6 by omega),
    or_shift_eq_add rs1.val (show op.toNat + rd.val * 2 ^ 6 < 2 ^ 12 by omega),
    or_shift_eq_add rs2.val (show op.toNat + rd.val * 2 ^ 6 + rs1.val * 2 ^ 12 < 2 ^ 18 by omega),
    or_shift_eq_add k.toNat
      (show op.toNat + rd.val * 2 ^ 6 + rs1.val * 2 ^ 12 + rs2.val * 2 ^ 18 < 2 ^ 24 by omega)]

/-! ### The fields of an encoded word -/

section
variable (op : Opcode) (rd rs1 rs2 : WordIdx) (k : BitVec 8)

@[simp] theorem opField_enc : opField (enc op rd rs1 rs2 k) = op := by
  have := op.isLt
  apply BitVec.eq_of_toNat_eq
  rw [toNat_opField, toNat_enc]
  omega

@[simp] theorem rdField_enc : rdField (enc op rd rs1 rs2 k) = rd := by
  have h0 := op.isLt
  have h1 := rd.isLt
  apply Fin.ext
  rw [rdField, val_idxField, toNat_enc]
  omega

@[simp] theorem rs1Field_enc : rs1Field (enc op rd rs1 rs2 k) = rs1 := by
  have h0 := op.isLt
  have h1 := rd.isLt
  have h2 := rs1.isLt
  apply Fin.ext
  rw [rs1Field, val_idxField, toNat_enc]
  omega

@[simp] theorem rs2Field_enc : rs2Field (enc op rd rs1 rs2 k) = rs2 := by
  have h0 := op.isLt
  have h1 := rd.isLt
  have h2 := rs1.isLt
  have h3 := rs2.isLt
  apply Fin.ext
  rw [rs2Field, val_idxField, toNat_enc]
  omega

@[simp] theorem immField_enc : immField (enc op rd rs1 rs2 k) = k := by
  have h0 := op.isLt
  have h1 := rd.isLt
  have h2 := rs1.isLt
  have h3 := rs2.isLt
  have h4 := k.isLt
  apply BitVec.eq_of_toNat_eq
  rw [toNat_immField, toNat_enc]
  omega

end

/-- A command word is its fields (R71). -/
theorem enc_fields (c : BitVec 32) :
    enc (opField c) (rdField c) (rs1Field c) (rs2Field c) (immField c) = c := by
  have := c.isLt
  apply BitVec.eq_of_toNat_eq
  rw [toNat_enc, toNat_opField, rdField, rs1Field, rs2Field, val_idxField, val_idxField, val_idxField,
    toNat_immField]
  omega

/-! ### Masks as bounds (R75) -/

/-- No bit of c at or above place lo is set exactly when c < 2^lo. -/
theorem and_high_mask_eq_zero {c : BitVec 32} {lo : Nat} (hlo : lo ≤ 32) :
    c &&& (BitVec.allOnes 32 <<< lo) = 0#32 ↔ c.toNat < 2 ^ lo := by
  constructor
  · intro h
    refine Nat.lt_pow_two_of_testBit _ fun i hi => ?_
    by_cases h32 : i < 32
    · have hb := congrArg (fun x => x.getLsbD i) h
      simp only [BitVec.getLsbD_and, BitVec.getLsbD_shiftLeft, BitVec.getLsbD_allOnes,
        BitVec.getLsbD_zero, h32, Nat.not_lt.2 hi, decide_true, decide_false, Bool.not_false,
        show i - lo < 32 by omega, Bool.and_true] at hb
      exact hb
    · exact Nat.testBit_lt_two_pow (lt_of_lt_of_le c.isLt (Nat.pow_le_pow_right (by omega) (by omega)))
  · intro h
    apply BitVec.eq_of_getLsbD_eq
    intro i hi
    by_cases hil : i < lo
    · simp [hi, hil]
    · have : c.getLsbD i = false :=
        Nat.testBit_lt_two_pow (lt_of_lt_of_le h (Nat.pow_le_pow_right (by omega) (by omega)))
      simp [this]

/-- IMM8 must be zero (R75). -/
theorem and_imm_mask (c : BitVec 32) : c &&& 0xFF000000#32 = 0#32 ↔ c.toNat / 2 ^ 24 = 0 := by
  rw [show (0xFF000000#32) = BitVec.allOnes 32 <<< 24 by decide, and_high_mask_eq_zero (by omega)]
  omega

/-- RS2 and IMM8 must be zero (R75). -/
theorem and_rs2_imm_mask (c : BitVec 32) : c &&& 0xFFFC0000#32 = 0#32 ↔ c.toNat / 2 ^ 18 = 0 := by
  rw [show (0xFFFC0000#32) = BitVec.allOnes 32 <<< 18 by decide, and_high_mask_eq_zero (by omega)]
  omega

/-! ### A CMD value made of a command word (R70) -/

theorem cmdWord_setWidth (c : BitVec 32) : cmdWord (c.setWidth 64) = c := by
  have := c.isLt
  apply BitVec.eq_of_toNat_eq
  rw [toNat_cmdWord, BitVec.toNat_setWidth]
  omega

theorem cmdHigh_setWidth (c : BitVec 32) : cmdHigh (c.setWidth 64) = 0#32 := by
  have := c.isLt
  apply BitVec.eq_of_toNat_eq
  rw [toNat_cmdHigh, BitVec.toNat_setWidth]
  simp
  omega

theorem setWidth_eq_cmdWord (v : BitVec 64) : v.setWidth 32 = cmdWord v := by
  apply BitVec.eq_of_toNat_eq
  rw [toNat_cmdWord, BitVec.toNat_setWidth]

/-! ### Decoding an encoded word (R81, R84) -/

/-- The opcode map read backwards finds the command that was encoded. -/
theorem assemble_fields (i : Instr) :
    assemble (opField (encode i)) (rdField (encode i)) (rs1Field (encode i)) (rs2Field (encode i))
      (immField (encode i)) = some i := by
  cases i <;> simp only [encode, opField_enc, rdField_enc, rs1Field_enc, rs2Field_enc, immField_enc] <;>
    rfl

/-- No must-be-zero bit of an encoded word is set (R75). -/
theorem zeroMask_encode (i : Instr) : encode i &&& i.zeroMask = 0#32 := by
  cases i with
  | fsqrmul | ssqrmul => simp [Instr.zeroMask]
  | fadd rd rs1 rs2 | fsub rd rs1 rs2 | fmul rd rs1 rs2 | smul rd rs1 rs2 | psel rd rs1 rs2 =>
    have h1 := rd.isLt
    have h2 := rs1.isLt
    have h3 := rs2.isLt
    rw [Instr.zeroMask, encode, and_imm_mask, toNat_enc]
    simp [Op.fadd, Op.fsub, Op.fmul, Op.smul, Op.psel]
    omega
  | fneg rd rs1 | fhalf rd rs1 | fdbl rd rs1 | ftpl rd rs1 | fsqr rd rs1 | finv rd rs1 | ssqr rd rs1
  | stomont rd rs1 | sinv rd rs1 =>
    have h1 := rd.isLt
    have h2 := rs1.isLt
    rw [Instr.zeroMask, encode, and_rs2_imm_mask, toNat_enc]
    simp [Op.fneg, Op.fhalf, Op.fdbl, Op.ftpl, Op.fsqr, Op.finv, Op.ssqr, Op.stomont, Op.sinv]
    omega

/-- The only check that the encoding of a term can fail is its operand check (R79, R80). -/
theorem decode_cmdValue (i : Instr) :
    decode (cmdValue i) =
      match operandError i with
      | some e => .error e
      | none => .ok i := by
  simp only [decode, cmdValue, cmdWord_setWidth, cmdHigh_setWidth, assemble_fields, zeroMask_encode]
  rfl

/-- A term passes its operand check exactly when it is well-formed. -/
theorem operandError_eq_none (i : Instr) : operandError i = none ↔ i.wf = true := by
  cases i <;> simp [Instr.wf, operandError]

end Sys2Proof.Laws
end

