-- ==== Sys2Proof/Laws/Mont.lean ====
section
/-! SUPPORT. The Montgomery primitives of R17 as maps: a Montgomery product of encodings is the encoding of
the product, so the chains of R160 and R200 compute the powers that their exponents say. -/

namespace Sys2Proof.Laws

open Config Machine

variable (m : Modulus)

/-! ### The engine (R17, R130) -/

theorem mm_lt (a b : Nat) : mm m a b < m.value := Nat.mod_lt _ (value_pos m)

theorem toMont_lt (x : Nat) : toMont m x < m.value := Nat.mod_lt _ (value_pos m)

theorem unMont_lt (x : Nat) : unMont m x < m.value := Nat.mod_lt _ (value_pos m)

/-- The Montgomery product times R is the product, mod m. -/
theorem mm_mul_R_modEq (a b : Nat) : mm m a b * R ≡ a * b [MOD m.value] := by
  have h : a * b * m.rInv * R ≡ a * b [MOD m.value] := by
    rw [mul_assoc, mul_comm m.rInv R]
    simpa using (R_mul_rInv_modEq m).mul_left (a * b)
  exact ((Nat.mod_modEq _ _).mul_right R).trans h

/-- Multiplication by R can be cancelled mod m. -/
theorem modEq_of_mul_R {x y : Nat} (h : x * R ≡ y * R [MOD m.value]) : x ≡ y [MOD m.value] := by
  have hx : ∀ z : Nat, z * R * m.rInv ≡ z [MOD m.value] := fun z => by
    rw [mul_assoc]; simpa using (R_mul_rInv_modEq m).mul_left z
  exact ((hx x).symm.trans (h.mul_right m.rInv)).trans (hx y)

/-- The Montgomery product is the only residue whose product by R is a·b. -/
theorem mm_unique {a b v : Nat} (hv : v < m.value) (h : v * R ≡ a * b [MOD m.value]) :
    v = mm m a b :=
  (modEq_of_mul_R m (h.trans (mm_mul_R_modEq m a b).symm)).eq_of_lt_of_lt hv (mm_lt m a b)

theorem toMont_modEq (x : Nat) : toMont m x ≡ x * R [MOD m.value] := Nat.mod_modEq _ _

theorem toMont_congr {x y : Nat} (h : x ≡ y [MOD m.value]) : toMont m x = toMont m y :=
  h.mul_right R

@[simp] theorem toMont_mod (x : Nat) : toMont m (x % m.value) = toMont m x :=
  toMont_congr m (Nat.mod_modEq _ _)

/-- R17: MM_m(Mont_m(x), Mont_m(y)) = Mont_m(x·y mod m). -/
theorem mm_toMont (x y : Nat) : mm m (toMont m x) (toMont m y) = toMont m (x * y) := by
  refine (mm_unique m (toMont_lt m _) ?_).symm
  calc toMont m (x * y) * R ≡ x * y * R * R [MOD m.value] := (toMont_modEq m _).mul_right R
    _ = x * R * (y * R) := by ring
    _ ≡ toMont m x * toMont m y [MOD m.value] :=
        (toMont_modEq m x).symm.mul (toMont_modEq m y).symm

/-- R17: decoding an encoding gives the residue back. -/
theorem unMont_toMont {x : Nat} (hx : x < m.value) : unMont m (toMont m x) = x := by
  have h : toMont m x * m.rInv ≡ x [MOD m.value] := by
    refine ((toMont_modEq m x).mul_right m.rInv).trans ?_
    rw [mul_assoc]; simpa using (R_mul_rInv_modEq m).mul_left x
  exact Nat.mod_eq_of_modEq h hx

/-- Every residue is an encoding: that of its decoding. -/
theorem toMont_unMont {y : Nat} (hy : y < m.value) : toMont m (unMont m y) = y := by
  have h : unMont m y * R ≡ y [MOD m.value] := by
    refine ((Nat.mod_modEq _ _).mul_right R).trans ?_
    rw [mul_assoc, mul_comm m.rInv R]; simpa using (R_mul_rInv_modEq m).mul_left y
  exact Nat.mod_eq_of_modEq h hy

/-- MExp_m in terms of the encoding (R17). -/
theorem mExp_eq (a e : Nat) : mExp m a e = toMont m (unMont m a ^ e) := toMont_mod m _

/-! ### Repeated squaring (R142, R183) -/

/-- k squarings of an encoding encode the 2^k-th power. -/
theorem sqrTimes_toMont (k x : Nat) : sqrTimes m k (toMont m x) = toMont m (x ^ 2 ^ k) := by
  induction k generalizing x with
  | zero => simp [sqrTimes]
  | succ k ih =>
    rw [sqrTimes, montEngine, mm_toMont, ih, pow_succ' 2 k, pow_mul, sq]

/-- R142, R183, closed form: SM(Mont(x), k, Mont(y)) = Mont(x^(2^k)·y). -/
theorem sqrMul_toMont (x k y : Nat) :
    sqrMul m (toMont m x) k (toMont m y) = toMont m (x ^ 2 ^ k * y) := by
  rw [sqrMul, montEngine, sqrTimes_toMont, mm_toMont]

/-- SM on encoded powers adds up exponents as R160's table does. -/
theorem sqrMul_pow (x e k f : Nat) :
    sqrMul m (toMont m (x ^ e)) k (toMont m (x ^ f)) = toMont m (x ^ smExponent e k f) := by
  rw [sqrMul_toMont, smExponent, pow_add, pow_mul]

/-! ### The chains (R160, R200) -/

/-- Every step of a chain that starts from n results refers to an earlier result. -/
def chainRefs : Nat → List ChainStep → Bool
  | _, [] => true
  | n, c :: cs => decide (c.x < n) && decide (c.y < n) && chainRefs (n + 1) cs

theorem getD_map_of_lt {f : Nat → Nat} {l : List Nat} {i : Nat} (h : i < l.length) :
    (l.map f).getD i 0 = f (l.getD i 0) := by
  simp [List.getD_eq_getElem?_getD, h]

theorem getLastD_map_of_ne_nil {f : Nat → Nat} {l : List Nat} (h : l ≠ []) :
    (l.map f).getLastD 0 = f (l.getLastD 0) := by
  rw [List.getLastD_eq_getLast?, List.getLastD_eq_getLast?, List.getLast?_map,
    List.getLast?_eq_some_getLast h, Option.map_some, Option.getD_some, Option.getD_some]

/-- A chain over encoded powers of x encodes the powers that the same chain computes as exponents. -/
theorem runChain_pow (x : Nat) (cs : List ChainStep) (es : List Nat)
    (h : chainRefs es.length cs = true) :
    runChain (sqrMul m) cs (es.map fun e => toMont m (x ^ e)) =
      (runChain smExponent cs es).map fun e => toMont m (x ^ e) := by
  induction cs generalizing es with
  | nil => rfl
  | cons c cs ih =>
    simp only [chainRefs, Bool.and_eq_true, decide_eq_true_eq] at h
    rw [runChain, runChain, getD_map_of_lt h.1.1, getD_map_of_lt h.1.2, sqrMul_pow,
      ← ih _ (by simpa using h.2), List.map_append]
    rfl

/-- A window walk over encoded powers of x encodes the power that the same walk computes. -/
theorem runWindows_pow (x : Nat) (ds : List Nat) (ws : List Window) (e : Nat)
    (h : ∀ w ∈ ws, w.digitIndex < ds.length) :
    runWindows (sqrMul m) (ds.map fun d => toMont m (x ^ d)) ws (toMont m (x ^ e)) =
      toMont m (x ^ runWindows smExponent ds ws e) := by
  induction ws generalizing e with
  | nil => rfl
  | cons w ws ih =>
    rw [runWindows, runWindows, getD_map_of_lt (h w (by simp)), sqrMul_pow]
    exact ih _ fun w' hw' => h w' (by simp [hw'])

theorem fchain_refs : chainRefs 1 FCHAIN = true := by decide

theorem fchain_exponent : (runChain smExponent FCHAIN [1]).getLastD 0 = Q - 2 := by decide +kernel

theorem schain_refs : ∀ w ∈ SCHAIN, w.digitIndex < digitExponents.length := by decide +kernel

theorem schain_exponent : windowWalk smExponent digitExponents SCHAIN = N - 2 := by decide +kernel

/-- R161: the chain's value is Mont_Q(UnMont_Q(a)^(Q-2)). -/
theorem finvValue_eq {a : Nat} (ha : a < Q) :
    finvValue a = toMont .field (unMont .field a ^ (Q - 2)) := by
  have hrun := runChain_pow .field (unMont .field a) FCHAIN [1] fchain_refs
  have hstart : [1].map (fun e => toMont .field (unMont .field a ^ e)) = [a] := by
    rw [List.map_singleton, pow_one, toMont_unMont .field ha]
  rw [hstart] at hrun
  have hne : runChain smExponent FCHAIN [1] ≠ [] := by decide
  rw [finvValue, hrun, getLastD_map_of_ne_nil hne, fchain_exponent]

/-- STOMONT's product by RR_N is the encoding (R182). -/
theorem mm_RR_N (a : Nat) : mm .scalar a RR_N = toMont .scalar a := by
  refine (mm_unique .scalar (toMont_lt .scalar a) ?_).symm
  have hRR : RR_N ≡ R ^ 2 [MOD Modulus.scalar.value] := by
    rw [RR_N_eq]; exact Nat.mod_modEq _ _
  calc toMont .scalar a * R ≡ a * R * R [MOD Modulus.scalar.value] :=
        (toMont_modEq .scalar a).mul_right R
    _ = a * R ^ 2 := by ring
    _ ≡ a * RR_N [MOD Modulus.scalar.value] := hRR.symm.mul_left a

/-- The Host's product by R^2 mod Q is the encoding (R143). -/
theorem mm_RR_Q (a : Nat) : mm .field a RR_Q = toMont .field a := by
  refine (mm_unique .field (toMont_lt .field a) ?_).symm
  have hRR : RR_Q ≡ R ^ 2 [MOD Modulus.field.value] := by
    rw [RR_Q_eq]; exact Nat.mod_modEq _ _
  calc toMont .field a * R ≡ a * R * R [MOD Modulus.field.value] :=
        (toMont_modEq .field a).mul_right R
    _ = a * R ^ 2 := by ring
    _ ≡ a * RR_Q [MOD Modulus.field.value] := hRR.symm.mul_left a

/-- A product by 1 is the decoding (R140, R143). -/
theorem mm_one (a : Nat) : mm m a 1 = unMont m a := by rw [mm, unMont, mul_one]

/-- R199: SDIGITS are the encoded powers 1, 3, 5, 7, 15 of a. -/
theorem scalarDigits_eq (a : Nat) :
    scalarDigits a = digitExponents.map fun d => toMont .scalar (a ^ d) := by
  have h1 : montEngine .scalar a RR_N = toMont .scalar (a ^ 1) := by rw [pow_one]; exact mm_RR_N a
  have hm : ∀ e f : Nat, montEngine .scalar (toMont .scalar (a ^ e)) (toMont .scalar (a ^ f)) =
      toMont .scalar (a ^ (e + f)) := fun e f => by rw [montEngine, mm_toMont, pow_add]
  simp only [scalarDigits, h1, hm, sqrMul_pow, smExponent, digitExponents, List.map_cons,
    List.map_nil, Nat.reduceAdd, Nat.reduceMul, Nat.reducePow]

/-- R201: the walk's value is Mont_N(a^(N-2)). -/
theorem sinvValue_eq (a : Nat) : sinvValue a = toMont .scalar (a ^ (N - 2)) := by
  rw [← schain_exponent, sinvValue, scalarDigits_eq]
  have hrefs := schain_refs
  cases hws : SCHAIN with
  | nil => exact absurd hws (by decide)
  | cons w ws =>
    rw [hws] at hrefs
    rw [windowWalk, windowWalk, getD_map_of_lt (hrefs w (by simp))]
    exact runWindows_pow .scalar a digitExponents ws _ fun w' hw' => hrefs w' (by simp [hw'])

end Sys2Proof.Laws
end

