-- ==== Sys2Proof/Laws/PerInstr.lean ====
section
/-! SUPPORT. One lemma per command, for the families that LAWS.json names.

RowSelects: the encoded word of a command is selected by the command's own row of
spec/opcode_table.json, `(c & mask) == match` (spec/30_encoding.md R75).
-/

namespace Sys2Proof.Laws

/-- R75: the command's word selects the command's row. -/
def RowSelects.Statement (i : Instr) : Prop := encode i &&& i.rowMask = i.rowMatch

/-- Masking OP and IMM8 leaves OP when IMM8 is zero. -/
theorem RowSelects.of_imm (op : Opcode) (rd rs1 rs2 : WordIdx) :
    enc op rd rs1 rs2 0#8 &&& (0x3F#32 ||| 0xFF000000#32) = op.setWidth 32 := by
  have h0 := op.isLt
  have h : enc op rd rs1 rs2 0#8 &&& 0xFF000000#32 = 0#32 :=
    (and_imm_mask _).2 (by rw [toNat_enc]; simp; omega)
  rw [BitVec.and_or_distrib_left, h, BitVec.or_zero, show (0x3F#32) = BitVec.ofNat 32 (2 ^ 6 - 1) by rfl]
  apply BitVec.eq_of_toNat_eq
  rw [BitVec.toNat_and, BitVec.toNat_setWidth, toNat_enc,
    show (BitVec.ofNat 32 (2 ^ 6 - 1)).toNat = 2 ^ 6 - 1 by rfl, Nat.and_two_pow_sub_one_eq_mod]
  omega

/-- Masking OP, RS2 and IMM8 leaves OP when RS2 and IMM8 are zero. -/
theorem RowSelects.of_rs2_imm (op : Opcode) (rd rs1 : WordIdx) :
    enc op rd rs1 0 0#8 &&& (0x3F#32 ||| 0xFFFC0000#32) = op.setWidth 32 := by
  have h0 := op.isLt
  have h : enc op rd rs1 0 0#8 &&& 0xFFFC0000#32 = 0#32 :=
    (and_rs2_imm_mask _).2 (by rw [toNat_enc]; simp; omega)
  rw [BitVec.and_or_distrib_left, h, BitVec.or_zero, show (0x3F#32) = BitVec.ofNat 32 (2 ^ 6 - 1) by rfl]
  apply BitVec.eq_of_toNat_eq
  rw [BitVec.toNat_and, BitVec.toNat_setWidth, toNat_enc,
    show (BitVec.ofNat 32 (2 ^ 6 - 1)).toNat = 2 ^ 6 - 1 by rfl, Nat.and_two_pow_sub_one_eq_mod]
  omega

/-- Masking OP leaves OP. -/
theorem RowSelects.of_op (op : Opcode) (rd rs1 rs2 : WordIdx) (k : BitVec 8) :
    enc op rd rs1 rs2 k &&& (0x3F#32 ||| 0#32) = op.setWidth 32 := by
  have h0 := op.isLt
  rw [BitVec.or_zero, show (0x3F#32) = BitVec.ofNat 32 (2 ^ 6 - 1) by rfl]
  apply BitVec.eq_of_toNat_eq
  rw [BitVec.toNat_and, BitVec.toNat_setWidth, toNat_enc,
    show (BitVec.ofNat 32 (2 ^ 6 - 1)).toNat = 2 ^ 6 - 1 by rfl, Nat.and_two_pow_sub_one_eq_mod]
  omega

theorem RowSelects.fadd (rd rs1 rs2 : WordIdx) : RowSelects.Statement (.fadd rd rs1 rs2) :=
  RowSelects.of_imm _ rd rs1 rs2
theorem RowSelects.fsub (rd rs1 rs2 : WordIdx) : RowSelects.Statement (.fsub rd rs1 rs2) :=
  RowSelects.of_imm _ rd rs1 rs2
theorem RowSelects.fneg (rd rs1 : WordIdx) : RowSelects.Statement (.fneg rd rs1) :=
  RowSelects.of_rs2_imm _ rd rs1
theorem RowSelects.fhalf (rd rs1 : WordIdx) : RowSelects.Statement (.fhalf rd rs1) :=
  RowSelects.of_rs2_imm _ rd rs1
theorem RowSelects.fdbl (rd rs1 : WordIdx) : RowSelects.Statement (.fdbl rd rs1) :=
  RowSelects.of_rs2_imm _ rd rs1
theorem RowSelects.ftpl (rd rs1 : WordIdx) : RowSelects.Statement (.ftpl rd rs1) :=
  RowSelects.of_rs2_imm _ rd rs1
theorem RowSelects.fmul (rd rs1 rs2 : WordIdx) : RowSelects.Statement (.fmul rd rs1 rs2) :=
  RowSelects.of_imm _ rd rs1 rs2
theorem RowSelects.fsqr (rd rs1 : WordIdx) : RowSelects.Statement (.fsqr rd rs1) :=
  RowSelects.of_rs2_imm _ rd rs1
theorem RowSelects.fsqrmul (rd rs1 rs2 : WordIdx) (k : BitVec 8) :
    RowSelects.Statement (.fsqrmul rd rs1 rs2 k) := RowSelects.of_op _ rd rs1 rs2 k
theorem RowSelects.finv (rd rs1 : WordIdx) : RowSelects.Statement (.finv rd rs1) :=
  RowSelects.of_rs2_imm _ rd rs1
theorem RowSelects.smul (rd rs1 rs2 : WordIdx) : RowSelects.Statement (.smul rd rs1 rs2) :=
  RowSelects.of_imm _ rd rs1 rs2
theorem RowSelects.ssqr (rd rs1 : WordIdx) : RowSelects.Statement (.ssqr rd rs1) :=
  RowSelects.of_rs2_imm _ rd rs1
theorem RowSelects.stomont (rd rs1 : WordIdx) : RowSelects.Statement (.stomont rd rs1) :=
  RowSelects.of_rs2_imm _ rd rs1
theorem RowSelects.ssqrmul (rd rs1 rs2 : WordIdx) (k : BitVec 8) :
    RowSelects.Statement (.ssqrmul rd rs1 rs2 k) := RowSelects.of_op _ rd rs1 rs2 k
theorem RowSelects.sinv (rd rs1 : WordIdx) : RowSelects.Statement (.sinv rd rs1) :=
  RowSelects.of_rs2_imm _ rd rs1
theorem RowSelects.psel (rd rs1 rs2 : WordIdx) : RowSelects.Statement (.psel rd rs1 rs2) :=
  RowSelects.of_imm _ rd rs1 rs2

end Sys2Proof.Laws
end

