-- ==== Sys2Proof/Laws/Primality.lean ====
section
/-! SUPPORT. Q and N are prime (spec/00_scope.md R14), by Pocklington's criterion with base 2 along a chain
of primes down to six digits, and what follows for the inversions of R161 and R201 (Fermat). -/

namespace Sys2Proof.Laws

open Config Machine

/-! ### Pocklington's criterion -/

/-- 2^e mod n by repeated squaring, on `fuel` bits of e. -/
def powTwoMod (n : Nat) : Nat → Nat → Nat
  | 0, _ => 1 % n
  | fuel + 1, e =>
    let h := powTwoMod n fuel (e / 2)
    if e % 2 = 0 then h * h % n else 2 * (h * h) % n

theorem powTwoMod_eq (n fuel e : Nat) (h : e < 2 ^ fuel) : powTwoMod n fuel e = 2 ^ e % n := by
  induction fuel generalizing e with
  | zero => rw [pow_zero] at h; rw [powTwoMod, Nat.lt_one_iff.1 h, pow_zero]
  | succ fuel ih =>
    have hlt : e / 2 < 2 ^ fuel := by rw [pow_succ] at h; omega
    simp only [powTwoMod, ih (e / 2) hlt]
    split
    · rw [← Nat.mul_mod, ← pow_add]; congr 2; omega
    · have hsq : 2 ^ (e / 2) % n * (2 ^ (e / 2) % n) ≡ 2 ^ (e / 2) * 2 ^ (e / 2) [MOD n] :=
        (Nat.mod_modEq _ _).mul (Nat.mod_modEq _ _)
      have he : 2 * (2 ^ (e / 2) * 2 ^ (e / 2)) = 2 ^ e := by
        rw [← pow_add, ← pow_succ']; congr 1; omega
      rw [← he]
      exact hsq.mul_left 2

/-- If 2^(n-1) = 1 mod n and 2^((n-1)/q) - 1 is prime to n, then q divides p - 1 for every prime p | n. -/
theorem prime_dvd_sub_one {n q p : Nat} (hn : 1 < n) (hq : q.Prime) (hqn : q ∣ n - 1)
    (h1 : 2 ^ (n - 1) % n = 1) (h2 : Nat.Coprime (2 ^ ((n - 1) / q) % n + (n - 1)) n) (hp : p.Prime)
    (hpn : p ∣ n) : q ∣ p - 1 := by
  have := Fact.mk hp
  have hpow : (2 : ZMod p) ^ (n - 1) = 1 := by
    have hmod : 2 ^ (n - 1) ≡ 1 [MOD n] := by rw [Nat.ModEq, h1, Nat.mod_eq_of_lt hn]
    simpa using (ZMod.natCast_eq_natCast_iff _ _ _).2 (hmod.of_dvd hpn)
  have hne : (2 : ZMod p) ^ ((n - 1) / q) ≠ 1 := by
    intro he
    have hmod : 2 ^ ((n - 1) / q) ≡ 1 [MOD p] := by
      apply (ZMod.natCast_eq_natCast_iff _ _ _).1; simpa using he
    have hdvd : p ∣ 2 ^ ((n - 1) / q) % n + (n - 1) := by
      apply (Nat.modEq_zero_iff_dvd).1
      calc 2 ^ ((n - 1) / q) % n + (n - 1) ≡ 1 + (n - 1) [MOD p] :=
            (((Nat.mod_modEq _ n).of_dvd hpn).trans hmod).add_right _
        _ = n := by omega
        _ ≡ 0 [MOD p] := (Nat.modEq_zero_iff_dvd).2 hpn
    exact hp.one_lt.ne' (Nat.dvd_one.1 (h2 ▸ Nat.dvd_gcd hdvd hpn))
  have hord : orderOf (2 : ZMod p) ∣ p - 1 := by
    apply orderOf_dvd_of_pow_eq_one
    apply ZMod.pow_card_sub_one_eq_one
    intro h0
    rw [h0, zero_pow (by omega)] at hpow
    exact zero_ne_one hpow
  refine dvd_trans ?_ hord
  by_contra hnd
  have hco : Nat.Coprime (orderOf (2 : ZMod p)) q := ((Nat.Prime.coprime_iff_not_dvd hq).2 hnd).symm
  have hdvd : orderOf (2 : ZMod p) ∣ (n - 1) / q := by
    have := orderOf_dvd_of_pow_eq_one hpow
    rw [← Nat.mul_div_cancel' hqn] at this
    exact hco.dvd_of_dvd_mul_left this
  exact hne (orderOf_dvd_iff_pow_eq_one.1 hdvd)

/-- The three computations of Pocklington's criterion for the prime factor q of n - 1. -/
def pocklingtonCheck (n q : Nat) : Bool :=
  decide (1 < n) && decide ((n - 1) % q = 0) && decide (n < 2 ^ 400) &&
    decide (powTwoMod n 400 (n - 1) = 1) &&
    decide (Nat.gcd (powTwoMod n 400 ((n - 1) / q) + (n - 1)) n = 1)

theorem pocklingtonCheck_dvd {n q p : Nat} (hq : q.Prime) (h : pocklingtonCheck n q = true)
    (hp : p.Prime) (hpn : p ∣ n) : q ∣ p - 1 := by
  simp only [pocklingtonCheck, Bool.and_eq_true, decide_eq_true_eq] at h
  obtain ⟨⟨⟨⟨hn, hqn⟩, hlt⟩, h1⟩, h2⟩ := h
  rw [powTwoMod_eq n 400 _ (by omega)] at h1
  rw [powTwoMod_eq n 400 _ (lt_of_le_of_lt (Nat.div_le_self _ _) (by omega))] at h2
  exact prime_dvd_sub_one hn hq (Nat.dvd_of_mod_eq_zero hqn) h1 h2 hp hpn

theorem one_lt_of_check {n q : Nat} (h : pocklingtonCheck n q = true) : 1 < n := by
  simp only [pocklingtonCheck, Bool.and_eq_true, decide_eq_true_eq] at h
  exact h.1.1.1.1

/-- n is prime if f divides p - 1 for every prime p | n and (f+1)^2 > n. -/
theorem prime_of_dvd_sub_one {n f : Nat} (hn : 1 < n) (hf : n < (f + 1) * (f + 1))
    (h : ∀ p, p.Prime → p ∣ n → f ∣ p - 1) : n.Prime := by
  by_contra hnp
  have hmp := Nat.minFac_prime hn.ne'
  have hle := Nat.le_of_dvd (by have := hmp.two_le; omega) (h _ hmp (Nat.minFac_dvd n))
  have hsq := Nat.minFac_sq_le_self (by omega) hnp
  have h1 : f + 1 ≤ n.minFac := by have := hmp.two_le; omega
  have := Nat.mul_le_mul h1 h1
  rw [sq] at hsq
  omega

/-- Pocklington's criterion with one prime factor of n - 1. -/
theorem pocklington_one {n q : Nat} (hq : q.Prime)
    (h : (pocklingtonCheck n q && decide (n < (q + 1) * (q + 1))) = true) : n.Prime := by
  rw [Bool.and_eq_true, decide_eq_true_eq] at h
  exact prime_of_dvd_sub_one (one_lt_of_check h.1) h.2 fun p hp hpn =>
    pocklingtonCheck_dvd hq h.1 hp hpn

/-- Pocklington's criterion with two prime factors of n - 1. -/
theorem pocklington_two {n q r : Nat} (hq : q.Prime) (hr : r.Prime)
    (h : (pocklingtonCheck n q && pocklingtonCheck n r && decide (q ≠ r) &&
      decide (n < (q * r + 1) * (q * r + 1))) = true) : n.Prime := by
  simp only [Bool.and_eq_true, decide_eq_true_eq] at h
  obtain ⟨⟨⟨h1, h2⟩, hne⟩, hlt⟩ := h
  exact prime_of_dvd_sub_one (one_lt_of_check h1) hlt fun p hp hpn =>
    ((Nat.coprime_primes hq hr).2 hne).mul_dvd_of_dvd_of_dvd (pocklingtonCheck_dvd hq h1 hp hpn)
      (pocklingtonCheck_dvd hr h2 hp hpn)

/-! ### The chain of primes -/

theorem prime_513928823 : Nat.Prime 513928823 :=
  pocklington_two (by norm_num : Nat.Prime 59)
    (by norm_num : Nat.Prime 599) (by decide +kernel)

theorem prime_53448597593 : Nat.Prime 53448597593 :=
  pocklington_one prime_513928823 (by decide +kernel)

theorem prime_135729185979_19 : Nat.Prime 1357291859799823621 :=
  pocklington_one prime_53448597593 (by decide +kernel)

theorem prime_532247449 : Nat.Prime 532247449 :=
  pocklington_one (by norm_num : Nat.Prime 363557) (by decide +kernel)

theorem prime_44925942675193 : Nat.Prime 44925942675193 :=
  pocklington_one prime_532247449 (by decide +kernel)

theorem prime_355814586440_23 : Nat.Prime 35581458644053887931343 :=
  pocklington_one prime_44925942675193 (by decide +kernel)

theorem prime_239646105371_29 : Nat.Prime 23964610537191310276190549303 :=
  pocklington_one prime_355814586440_23 (by decide +kernel)

theorem prime_862725979338_30 : Nat.Prime 862725979338887169942859774909 :=
  pocklington_one prime_239646105371_29 (by decide +kernel)

theorem prime_207054235041_32 : Nat.Prime 20705423504133292078628634597817 :=
  pocklington_one prime_862725979338_30 (by decide +kernel)

theorem prime_413244619895_42 : Nat.Prime 413244619895455989650825325680172591660047 :=
  pocklington_one prime_207054235041_32 (by decide +kernel)

theorem prime_123973385968_44 : Nat.Prime 12397338596863679689524759770405177749801411 :=
  pocklington_one prime_413244619895_42 (by decide +kernel)

theorem prime_191737902980_101 : Nat.Prime 19173790298027098165721053155794528970226934547887232785722672956982046098136719667167519737147526097 :=
  pocklington_two prime_135729185979_19
    prime_123973385968_44 (by decide +kernel)

theorem Q_prime_numeral : Nat.Prime 39402006196394479212279040100143613805079739270465446667948293404245721771496870329047266088258938001861606973112319 :=
  pocklington_one prime_191737902980_101 (by decide +kernel)

theorem prime_272109983 : Nat.Prime 272109983 :=
  pocklington_two (by norm_num : Nat.Prime 73)
    (by norm_num : Nat.Prime 233) (by decide +kernel)

theorem prime_228572385721 : Nat.Prime 228572385721 :=
  pocklington_one prime_272109983 (by decide +kernel)

theorem prime_23314383343543 : Nat.Prime 23314383343543 :=
  pocklington_one prime_228572385721 (by decide +kernel)

theorem prime_426632512014_21 : Nat.Prime 426632512014427833817 :=
  pocklington_one prime_23314383343543 (by decide +kernel)

theorem prime_149519933976_28 : Nat.Prime 1495199339761412565498084319 :=
  pocklington_one prime_426632512014_21 (by decide +kernel)

theorem prime_179423920771_29 : Nat.Prime 17942392077136950785977011829 :=
  pocklington_one prime_149519933976_28 (by decide +kernel)

theorem prime_105939265494_61 : Nat.Prime 1059392654943455286185473617842338478315215895509773412096307 :=
  pocklington_two (by norm_num : Nat.Prime 251)
    prime_179423920771_29 (by decide +kernel)

theorem prime_305546578814_85 : Nat.Prime 3055465788140352002733946906144561090641249606160407884365391979704929268480326390471 :=
  pocklington_one prime_105939265494_61 (by decide +kernel)

theorem N_prime_numeral : Nat.Prime 39402006196394479212279040100143613805079739270465446667946905279627659399113263569398956308152294913554433653942643 :=
  pocklington_one prime_305546578814_85 (by decide +kernel)

/-- R14: Q is prime. -/
theorem Q_prime : Nat.Prime Q := Q_prime_numeral

/-- R14: N is prime. -/
theorem N_prime : Nat.Prime N := N_prime_numeral

theorem value_prime (m : Modulus) : Nat.Prime m.value := by
  cases m
  · exact Q_prime
  · exact N_prime

/-! ### Fermat's inverse -/

/-- x^(m-2) is inv_m(x) for a residue x that is not 0 (R161, R201). -/
theorem pow_sub_two_isInverse (m : Modulus) {x : Nat} (h0 : x ≠ 0) (hx : x < m.value) :
    IsInverse m.value x (x ^ (m.value - 2) % m.value) := by
  have hp := value_prime m
  have h2 := hp.two_le
  have hco : Nat.Coprime x m.value := (Nat.coprime_of_lt_prime h0 hx hp).symm
  have hfer : x * (x ^ (m.value - 2) % m.value) ≡ 1 [MOD m.value] := by
    refine ((Nat.mod_modEq _ _).mul_left x).trans ?_
    rw [← pow_succ', show m.value - 2 + 1 = m.value - 1 by omega, ← Nat.totient_prime hp]
    exact Nat.ModEq.pow_totient hco
  have h1 : x * (x ^ (m.value - 2) % m.value) % m.value = 1 :=
    Nat.mod_eq_of_modEq hfer (one_lt_value m)
  refine ⟨Nat.one_le_iff_ne_zero.2 fun hz => ?_, Nat.mod_lt _ (value_pos m), h1⟩
  rw [hz, mul_zero, Nat.zero_mod] at h1
  exact zero_ne_one h1

/-- inv_m(x) is unique (R15). -/
theorem IsInverse.unique {m x y z : Nat} (hy : IsInverse m x y) (hz : IsInverse m x z) : y = z := by
  have hm : 1 < m := by obtain ⟨h1, h2, -⟩ := hy; omega
  have h1 : x * y ≡ 1 [MOD m] := by rw [Nat.ModEq, hy.2.2, Nat.mod_eq_of_lt hm]
  have h2 : x * z ≡ 1 [MOD m] := by rw [Nat.ModEq, hz.2.2, Nat.mod_eq_of_lt hm]
  have hyz : y ≡ z [MOD m] := by
    calc y ≡ y * (x * z) [MOD m] := by simpa using (h2.symm.mul_left y)
      _ = x * y * z := by ring
      _ ≡ z [MOD m] := by simpa using h1.mul_right z
  exact hyz.eq_of_lt_of_lt hy.2.1 hz.2.1

end Sys2Proof.Laws
end

