-- ==== Sys2Proof/Laws/Step.lean ====
section
/-! SUPPORT. What one step can do, said once: the event it takes, the completion step
(spec/70_reset_and_hazards.md R280), and where `modelStep` stops (spec/60_exceptions.md R252). -/

namespace Sys2Proof.Machine

/-! ### The event that a step takes -/

theorem step_access {s : State} {a : Access} {es : List Event} (h : s.events = .access a :: es) :
    step s = hostAccess a { s with events := es } := by
  simp only [step, takeEvent, h, stepEvent, popEvent, List.tail_cons]

theorem step_powerOn {s : State} {es : List Event} (h : s.events = .powerOn :: es) :
    step s = .next (powerOnReset { s with events := es }) := by
  simp only [step, takeEvent, h, stepEvent, popEvent, List.tail_cons]

/-- A completion slot, or no event left. -/
theorem step_slot {s : State} (h : s.events = [] ∨ s.events.head? = some .complete) :
    step s = completionSlot { s with events := s.events.tail } := by
  rcases h with h | h
  · have hs : s = { s with events := [] } := by rw [← h]
    rw [hs]; rfl
  · cases he : s.events with
    | nil => rw [he] at h; cases h
    | cons e es =>
      rw [he, List.head?_cons] at h
      cases Option.some.inj h
      simp only [step, takeEvent, he, stepEvent, popEvent, List.tail_cons]

/-! ### Completion (R280) -/

/-- A pending word that decodes is a well-formed command. -/
theorem wf_of_decode {v : BitVec 64} {i : Instr} (h : decode v = .ok i) : i.wf = true := by
  simp only [decode] at h
  split at h
  · cases h
  · rename_i j hj
    split at h
    · cases h
    · split at h
      · cases h
      · rename_i hnone
        cases h
        cases i with
        | fsqrmul rd rs1 rs2 k | ssqrmul rd rs1 rs2 k =>
          simp only [operandError] at hnone
          split at hnone
          · assumption
          · cases hnone
        | psel rd rs1 rs2 =>
          simp only [operandError] at hnone
          split at hnone
          · assumption
          · cases hnone
        | _ => rfl

/-- A busy Core with a command pending completes it, and the completion answers a next state. -/
theorem completionSlot_busy {s : State} {i : Instr} (hb : s.busy = true)
    (hd : decode (s.pend.setWidth 64) = .ok i) :
    ∃ t, exec i s = .next t ∧ completionSlot s = .next (finish t) := by
  obtain ⟨t, ht⟩ := exec_next_of_wf s (wf_of_decode hd)
  exact ⟨t, ht, by simp only [completionSlot, hb, if_true, complete, hd, ht]⟩

/-- On an idle block a completion slot passes. -/
theorem completionSlot_idle {s : State} (hb : s.busy = false) : completionSlot s = .next s := by
  simp only [completionSlot, hb, Bool.false_eq_true, if_false]

/-- Everything a completion slot can do. -/
theorem completionSlot_cases {s t : State} (h : completionSlot s = .next t) :
    (s.busy = false ∧ t = s) ∨
    (s.busy = true ∧ ∃ i u, decode (s.pend.setWidth 64) = .ok i ∧ exec i s = .next u ∧
      t = finish u) := by
  simp only [completionSlot, complete] at h
  split at h
  · rename_i hb
    right
    refine ⟨hb, ?_⟩
    split at h
    · cases h
    · rename_i i hd
      split at h
      · rename_i u hu
        cases h
        exact ⟨i, u, hd, hu, rfl⟩
      · cases h
      · cases h
  · rename_i hb
    cases h
    exact .inl ⟨by simpa using hb, rfl⟩

/-! ### Everything a Host access and a step can do -/

/-- The outcome of a Host access that answers a next state (R50, R56, R59). -/
theorem hostAccess_cases {a : Access} {s t : State} (h : hostAccess a s = .next t) :
    (∃ off size, a = .read off size ∧ off < 0x2000 ∧ t = busRead off size s) ∨
    (∃ off size v, a = .write off size v ∧ (size ≠ 8 ∨ off % 8 ≠ 0) ∧
      t = respond (.write true) (raiseError .busAccess (accessInfo off true) s)) ∨
    (∃ off v, a = .write off 8 v ∧ off % 8 = 0 ∧ 0x1000 ≤ off ∧ s.busy = true ∧
      t = respond (.write false) (raiseError .accessWhileBusy (accessInfo off true) s)) ∨
    (∃ off v, a = .write off 8 v ∧ off % 8 = 0 ∧ (off < 0x1000 ∨ s.busy = false) ∧
      t = respond (.write false) (writeTarget v s (target off))) := by
  by_cases hw : a.off < 0x2000
  · cases a with
    | read off size =>
      change off < 0x2000 at hw
      rw [hostAccess_read hw] at h
      cases h
      exact .inl ⟨_, _, rfl, hw, rfl⟩
    | write off size v =>
      change off < 0x2000 at hw
      rw [hostAccess_write hw] at h
      cases h
      by_cases hl : size ≠ 8 ∨ off % 8 ≠ 0
      · exact .inr (.inl ⟨_, _, _, rfl, hl, busWrite_illegal hl _ _⟩)
      · have h8 : off % 8 = 0 := by omega
        obtain rfl : size = 8 := by omega
        by_cases hk : off < 0x1000 ∨ s.busy = false
        · exact .inr (.inr (.inr ⟨_, _, rfl, h8, hk, busWrite_open h8 hk v⟩))
        · have hb : s.busy = true := Bool.of_not_eq_false fun hb => hk (.inr hb)
          exact .inr (.inr (.inl ⟨_, _, rfl, h8, by omega, hb, busWrite_locked h8 (by omega) hb v⟩))
  · rw [hostAccess_outside (by omega)] at h
    cases h

/-- A step takes a Host access, a completion slot or a power-on reset. -/
theorem step_cases {s t : State} (h : step s = .next t) :
    (∃ a es, s.events = .access a :: es ∧ hostAccess a { s with events := es } = .next t) ∨
    ((s.events = [] ∨ s.events.head? = some .complete) ∧
      completionSlot { s with events := s.events.tail } = .next t) ∨
    (∃ es, s.events = .powerOn :: es ∧ t = powerOnReset { s with events := es }) := by
  cases he : s.events with
  | nil => rw [step_slot (.inl he), he] at h; exact .inr (.inl ⟨.inl rfl, h⟩)
  | cons e es =>
    cases e with
    | access a => rw [step_access he] at h; exact .inl ⟨a, es, rfl, h⟩
    | complete =>
      rw [step_slot (.inr (by rw [he]; rfl)), he] at h
      exact .inr (.inl ⟨.inr rfl, h⟩)
    | powerOn =>
      rw [step_powerOn he] at h
      exact .inr (.inr ⟨es, rfl, (Host.Outcome.next.inj h).symm⟩)

/-! ### The stop at a model fault (R252) -/

/-- Everything `modelStep` can do after a next state of `step`: it stops exactly at a model fault. -/
theorem modelStep_of_step {s t : State} (h : step s = .next t) :
    modelStep s = match t.undef with | none => .ok (.next t) | some u => .error u := by
  cases hu : t.undef <;> simp [modelStep, h, hu]

theorem modelStep_of_defined {s t : State} (h : step s = .next t) (hu : t.undef = none) :
    modelStep s = .ok (.next t) := by rw [modelStep_of_step h, hu]

theorem modelStep_of_modelFault {s t : State} {u : ModelFault} (h : step s = .next t)
    (hu : t.undef = some u) : modelStep s = .error u := by rw [modelStep_of_step h, hu]

/-- `modelStep` goes on exactly where `step` does and no model fault has been reached. -/
theorem modelStep_next_iff {s t : State} :
    modelStep s = .ok (.next t) ↔ step s = .next t ∧ t.undef = none := by
  refine ⟨fun h => ?_, fun h => modelStep_of_defined h.1 h.2⟩
  cases hs : step s with
  | next u =>
    rw [modelStep_of_step hs] at h
    cases hu : u.undef with
    | none => rw [hu] at h; cases h; exact ⟨rfl, hu⟩
    | some m => rw [hu] at h; cases h
  | fault f => simp only [modelStep, hs] at h; cases h
  | refused r => simp only [modelStep, hs] at h; cases h

end Sys2Proof.Machine
end

