-- ==== Sys2Proof/Machine/Asm.lean ====
section
/-! DEFINITION. What the Host writes: the assembler syntax (spec/30_encoding.md R82) and the Host macros as
lists of events (R83). Neither is part of the block; a program is loaded as such a list (log entry 2).
-/

namespace Sys2Proof.Machine

/-! ### Assembler syntax (R82) -/

/-- R82: a word operand is `w` and the index in decimal. -/
def asmWord (k : WordIdx) : String := "w" ++ Nat.repr k.val

/-- R82: the count is `#` and k in decimal. -/
def asmCount (k : BitVec 8) : String := "#" ++ Nat.repr k.toNat

/-- A mnemonic with two word operands. -/
def asm2 (m : String) (rd rs1 : WordIdx) : String := m ++ " " ++ asmWord rd ++ ", " ++ asmWord rs1

/-- A mnemonic with three word operands. -/
def asm3 (m : String) (rd rs1 rs2 : WordIdx) : String := asm2 m rd rs1 ++ ", " ++ asmWord rs2

/-- A mnemonic with three word operands and a count. -/
def asm4 (m : String) (rd rs1 rs2 : WordIdx) (k : BitVec 8) : String :=
  asm3 m rd rs1 rs2 ++ ", " ++ asmCount k

/-- R82: the text of a command. -/
def asm : Instr → String
  | .fadd rd rs1 rs2 => asm3 "fadd" rd rs1 rs2
  | .fsub rd rs1 rs2 => asm3 "fsub" rd rs1 rs2
  | .fneg rd rs1 => asm2 "fneg" rd rs1
  | .fhalf rd rs1 => asm2 "fhalf" rd rs1
  | .fdbl rd rs1 => asm2 "fdbl" rd rs1
  | .ftpl rd rs1 => asm2 "ftpl" rd rs1
  | .fmul rd rs1 rs2 => asm3 "fmul" rd rs1 rs2
  | .fsqr rd rs1 => asm2 "fsqr" rd rs1
  | .fsqrmul rd rs1 rs2 k => asm4 "fsqrmul" rd rs1 rs2 k
  | .finv rd rs1 => asm2 "finv" rd rs1
  | .smul rd rs1 rs2 => asm3 "smul" rd rs1 rs2
  | .ssqr rd rs1 => asm2 "ssqr" rd rs1
  | .stomont rd rs1 => asm2 "stomont" rd rs1
  | .ssqrmul rd rs1 rs2 k => asm4 "ssqrmul" rd rs1 rs2 k
  | .sinv rd rs1 => asm2 "sinv" rd rs1
  | .psel rd rs1 rs2 => asm3 "psel" rd rs1 rs2

/-! ### Host macros (R83) -/

/-- `st OFF, V`: MemWrite(OFF, 8, V). -/
def hostSt (off : Nat) (v : BitVec 64) : List Event := [.access (.write off 8 v)]

/-- `ld OFF`: MemRead(OFF, 8). -/
def hostLd (off : Nat) : List Event := [.access (.read off 8)]

/-- `stw wK, X`: `st 0x1000+0x40K+8j, limb(X, j)` for j = 0..5. -/
def hostStw (k : WordIdx) (x : Word) : List Event :=
  (List.finRange 6).flatMap fun j => hostSt (limbOffset k j) (limb x j)

/-- `ldw wK`: `ld 0x1000+0x40K+8j` for j = 0..5. -/
def hostLdw (k : WordIdx) : List Event := (List.finRange 6).flatMap fun j => hostLd (limbOffset k j)

/-- `issue <command>`: `st 0x018, zext_64(enc(<command>))`. -/
def hostIssue (i : Instr) : List Event := hostSt 0x018 (cmdValue i)

/-- `.cmd <hex>` (R82): submit a raw command word, legal or not. -/
def hostRaw (c : BitVec 32) : List Event := hostSt 0x018 (c.setWidth 64)

/-- `wait`, in a run in which n polls of STATUS find BUSY = 1 before the Core completes and the last one
finds it 0 (R281). The poll loop is the Host's; a run unrolls it. -/
def hostWait (n : Nat) : List Event :=
  (List.replicate n (hostLd 0x010)).flatten ++ .complete :: hostLd 0x010

end Sys2Proof.Machine
end

