-- ==== Sys2Proof/Tests/Slice0.lean ====
section
/-! SUPPORT. Tests of the model, each a named theorem about one step or one word, and the witnesses of the
statements' hypotheses. Expected results are the vectors of spec/95_test_vectors.md, or follow from the rule
named; none is the model's own answer. -/

namespace Sys2Proof.Tests

open Sys2Proof Sys2Proof.Machine

-- One theorem after another: checking these many evaluations at once asks for more threads than the memory
-- limit of the check allows.
set_option Elab.async false

/-! ### Small states -/

/-- W0 = a, W1 = b, both written; every other word as after reset. -/
def operands (a b : Nat) : State := writeWord 1 (toWord b) (writeWord 0 (toWord a) State.reset)

/-- The next state of an outcome. -/
def nextOf (o : Host.Outcome State Fault Refusal) : Option State :=
  match o with
  | .next t => some t
  | .fault _ => none
  | .refused _ => none

/-- Each of these words written with the bits it holds. -/
def supplyWords (ks : List WordIdx) (s : State) : State :=
  ks.foldl (fun u k => writeWord k (readWord k u) u) s

/-- W2 as a number after a command on W0 = a, W1 = b. -/
def result (i : Instr) (a b : Nat) : Option Nat :=
  (nextOf (exec i (operands a b))).map fun t => (readWord 2 t).toNat

/-- The reset state with these events to come. -/
def withEvents (es : List Event) : State := { State.reset with events := es }

/-- A state with `fadd w2, w0, w1` accepted and running. -/
def running (es : List Event) : State :=
  { operands 1 2 with
    busy := true, pend := 0x00040081#32, lastCmd := 0x00040081#32, events := es }

/-- The registers after one step: STATUS, ERRINFO and LAST_CMD as numbers. -/
def registersAfter (s : State) : Option (Nat × Nat × Nat) :=
  (nextOf (step s)).map fun t =>
    ((statusReg t).toNat, (errInfoReg t).toNat, t.lastCmd.toNat)

/-- One write of v to CMD on an idle block. -/
def submitted (v : BitVec 64) : Option (Nat × Nat × Nat) :=
  registersAfter (withEvents [.access (.write 0x018 8 v)])

/-- `spec/95_test_vectors.md`'s sample operands. -/
def A : Nat := 0x123456789abcdeffedcba987654321000112233445566778899aabbccddeeff0f1e2d3c4b5a69788796a5b4c3d2e1f0
def B : Nat := 0xfedcba98765432100123456789abcdef8899aabbccddeeff0011223344556677f0e1d2c3b4a5968778695a4b3c2d1e0f
def S : Nat := 0xc0ffee00c0ffee00c0ffee00c0ffee00c0ffee00c0ffee00c0ffee00c0ffee00c0ffee00c0ffee00c0ffee00c0ffee
def montQ2 : Nat := 0x200000001fffffffffffffffe00000002
def montN2 : Nat := 0x713964fc1791a4414fcbe49b6e9eb10a2627cd2a6675ad1a
def two383 : Nat := 0x800000000000000000000000000000000000000000000000000000000000000000000000000000000000000000000000

/-! ### WellFormed: one ill-formed term for each check -/

theorem test_wf_refuses_fsqrmul_count_zero : (Instr.fsqrmul 2 0 1 0#8).wf = false := by decide
theorem test_wf_refuses_ssqrmul_count_zero : (Instr.ssqrmul 2 0 1 0#8).wf = false := by decide
theorem test_wf_refuses_psel_table_17 : (Instr.psel 0 17 0).wf = false := by decide
theorem test_wf_refuses_psel_result_62 : (Instr.psel 62 16 0).wf = false := by decide
theorem test_wf_takes_psel_at_its_bounds : (Instr.psel 61 16 63).wf = true := by decide

/-! ### Decoding: table 3.1, every command; and one word of each family bit by bit from R71 and R74 -/

theorem test_decode_fadd : decode 0x00040081#64 = .ok (.fadd 2 0 1) := by decide
theorem test_decode_fsub : decode 0x00103142#64 = .ok (.fsub 5 3 4) := by decide
theorem test_decode_fneg : decode 0x000061C3#64 = .ok (.fneg 7 6) := by decide
theorem test_decode_fhalf : decode 0x0003EFC4#64 = .ok (.fhalf 63 62) := by decide
theorem test_decode_fdbl : decode 0x00001045#64 = .ok (.fdbl 1 1) := by decide
theorem test_decode_ftpl : decode 0x00008246#64 = .ok (.ftpl 9 8) := by decide
theorem test_decode_fmul : decode 0x000400C8#64 = .ok (.fmul 3 0 1) := by decide
theorem test_decode_fsqr : decode 0x00004109#64 = .ok (.fsqr 4 4) := by decide
theorem test_decode_fsqrmul : decode 0x2130B28A#64 = .ok (.fsqrmul 10 11 12 33#8) := by decide
theorem test_decode_finv : decode 0x0000310B#64 = .ok (.finv 4 3) := by decide
theorem test_decode_smul : decode 0x00083110#64 = .ok (.smul 4 3 2) := by decide
theorem test_decode_ssqr : decode 0x000031D1#64 = .ok (.ssqr 7 3) := by decide
theorem test_decode_stomont : decode 0x000000D2#64 = .ok (.stomont 3 0) := by decide
theorem test_decode_ssqrmul : decode 0xFF104193#64 = .ok (.ssqrmul 6 4 4 255#8) := by decide
theorem test_decode_sinv : decode 0x00000094#64 = .ok (.sinv 2 0) := by decide
theorem test_decode_psel : decode 0x00010060#64 = .ok (.psel 1 16 0) := by decide

/- Fields from the left: IMM8, RS2, RS1, RD, OP. -/
theorem test_decode_fadd_bits :
    decode 0b00000000_000001_000000_000010_000001#64 = .ok (.fadd 2 0 1) := by decide
theorem test_decode_fsqrmul_bits :
    decode 0b00100001_001100_001011_001010_001010#64 = .ok (.fsqrmul 10 11 12 33#8) := by decide
theorem test_decode_finv_bits :
    decode 0b00000000_000000_000011_000100_001011#64 = .ok (.finv 4 3) := by decide
theorem test_decode_smul_bits :
    decode 0b00000000_000010_000011_000100_010000#64 = .ok (.smul 4 3 2) := by decide
theorem test_decode_sinv_bits :
    decode 0b00000000_000000_000000_000010_010100#64 = .ok (.sinv 2 0) := by decide
theorem test_decode_psel_bits :
    decode 0b00000000_111111_010000_111101_100000#64 = .ok (.psel 61 16 63) := by decide

/-- R84's worked example. -/
theorem test_encode_fadd : encode (.fadd 2 0 1) = 0x00040081#32 := by decide

/-- The host's numbering of a table word, and a table word that no command has (X-7). -/
theorem test_table_word : decodeTableWord 32 0x00010060 = some (.psel 1 16 0) ∧
    decodeTableWord 32 0x0004008A = none := by decide

theorem test_asm_texts : asm (.fadd 2 0 1) = "fadd w2, w0, w1" ∧
    asm (.fsqrmul 10 11 12 33#8) = "fsqrmul w10, w11, w12, #33" ∧ asm (.finv 4 3) = "finv w4, w3" := by
  decide +kernel

/-- Program P1's `stw w1, R2Q`: the six writes it lists. -/
theorem test_stw : hostStw 1 (toWord Config.RR_Q) =
    [.access (.write 0x1040 8 0xFFFFFFFE00000001#64), .access (.write 0x1048 8 0x0000000200000000#64),
     .access (.write 0x1050 8 0xFFFFFFFE00000000#64), .access (.write 0x1058 8 0x0000000200000000#64),
     .access (.write 0x1060 8 0x0000000000000001#64), .access (.write 0x1068 8 0x0000000000000000#64)] := by
  decide +kernel

/-! ### Rejections: vectors X-1 to X-18 (STATUS, ERRINFO, LAST_CMD after one CMD write) -/

theorem test_x1_rejected : submitted 0x0000000000000000#64 = some (0x4, 0x0000000000000001, 0) := by decide +kernel
theorem test_x2_rejected : submitted 0x0000000000000007#64 = some (0x4, 0x0000000700000001, 0) := by decide +kernel
theorem test_x5_rejected : submitted 0x0000000001000081#64 = some (0x4, 0x0100008100000002, 0) := by decide +kernel
theorem test_x6_rejected : submitted 0x0000000000040083#64 = some (0x4, 0x0004008300000002, 0) := by decide +kernel
theorem test_x7_rejected : submitted 0x000000000004008A#64 = some (0x4, 0x0004008A00000003, 0) := by decide +kernel
theorem test_x8_rejected : submitted 0x0000000100040081#64 = some (0x4, 0x0004008100000002, 0) := by decide +kernel
theorem test_x9_rejected : submitted 0x0000000000011020#64 = some (0x4, 0x0001102000000004, 0) := by decide +kernel
theorem test_x10_rejected : submitted 0x0000000000010FA0#64 = some (0x4, 0x00010FA000000004, 0) := by decide +kernel
theorem test_x11_rejected : submitted 0x0000000001000007#64 = some (0x4, 0x0100000700000001, 0) := by decide +kernel
theorem test_x12_rejected : submitted 0x0000000001011020#64 = some (0x4, 0x0101102000000002, 0) := by decide +kernel
theorem test_x16_rejected : submitted 0x0000000000040093#64 = some (0x4, 0x0004009300000003, 0) := by decide +kernel
theorem test_x13_accepted : submitted 0x00000000FF04008A#64 = some (0x1, 0, 0xFF04008A) := by
  decide +kernel
theorem test_x18_busy_first : registersAfter (running [.access (.write 0x018 8 0x7#64)]) =
    some (0x5, 0x0000000700000005, 0x00040081) := by decide +kernel

/-! ### One or two vectors per command (sections 2.1 to 2.16): W2 on W0 = a, W1 = b -/

theorem test_fadd_carry_path : result (.fadd 2 0 1) (Config.Q - 1) (Config.Q - 1) =
    some (Config.Q - 2) := by decide +kernel
theorem test_fadd_A_B : result (.fadd 2 0 1) A B =
    some 0xffffffffffffffffffffffffffffffff88aaccef1133557688aaccef11335576ffffffffffffffffffffffffffffffff := by decide +kernel
theorem test_fsub_borrow_path : result (.fsub 2 0 1) A B =
    some 0x2468acf13579bdffdb97530eca86420777777777777777888888888888888861e3c5a7796b4d2f10f2d4b6a87a5c3e0 := by decide +kernel
theorem test_fsub_no_borrow : result (.fsub 2 0 1) 5 5 =
    some 0 := by decide +kernel
theorem test_fneg_zero : result (.fneg 2 0) 0 0 =
    some 0 := by decide +kernel
theorem test_fneg_one : result (.fneg 2 0) 1 0 =
    some (Config.Q - 1) := by decide +kernel
theorem test_fdbl_carry : result (.fdbl 2 0) two383 0 =
    some Config.R_MOD_Q := by decide +kernel
theorem test_fdbl_A : result (.fdbl 2 0) A 0 =
    some 0x2468acf13579bdffdb97530eca864200022446688aaccef1133557799bbddfe1e3c5a7896b4d2f10f2d4b6987a5c3e0 := by decide +kernel
theorem test_ftpl_third : result (.ftpl 2 0) 0x5555555555555555555555555555555555555555555555555555555555555554ffffffffaaaaaaaaaaaaaaab00000000 0 =
    some 1 := by decide +kernel
theorem test_ftpl_top : result (.ftpl 2 0) (Config.Q - 1) 0 =
    some (Config.Q - 3) := by decide +kernel
theorem test_fhalf_odd : result (.fhalf 2 0) (Config.Q - 2) 0 =
    some (Config.Q - 1) := by decide +kernel
theorem test_fhalf_A : result (.fhalf 2 0) A 0 =
    some 0x91a2b3c4d5e6f7ff6e5d4c3b2a190800089119a22ab33bc44cd55de66ef77f878f169e25ad34bc43cb52da61e970f8 := by decide +kernel
theorem test_fmul_A_B : result (.fmul 2 0 1) A B =
    some 0xf386d0c247b72492f51365da18176b9d3efd01b48a0665b4b0ed3af50ffd3253bec765e7b017cb8df54787bd2077ecb8 := by decide +kernel
theorem test_fmul_into_mont : result (.fmul 2 0 1) 2 Config.RR_Q =
    some montQ2 := by decide +kernel
theorem test_fsqr_A : result (.fsqr 2 0) A 0 =
    some 0x5da948899f38c7877cbf1b211e8c3e6a1e303e67d74c4335a9dd6e771d191bf61eba809f02e93f81a15a852c2d5352c2 := by decide +kernel
theorem test_fsqr_minus_one : result (.fsqr 2 0) (Config.Q - 1) 0 =
    some Config.RINV_Q := by decide +kernel
theorem test_fsqrmul_255 : result (.fsqrmul 2 0 1 255#8) montQ2 Config.R_MOD_Q =
    some 0x75b815d9be17ccf266d8229fee5c06cd37bd15f98c1756f9cb0da4bb603a6575df9703bf177be2180ee5886461f77f91 := by decide +kernel
theorem test_fsqrmul_A_B : result (.fsqrmul 2 0 1 1#8) A B =
    some 0x2308b0c116915abcbfca06b109a7b8a5c4c779e068071c334e9c7c2cf5a5a103eb7482f31737fc13c19c5dc12ba4c0e2 := by decide +kernel
theorem test_finv_two : result (.finv 2 0) montQ2 0 =
    some two383 := by decide +kernel
theorem test_finv_A : result (.finv 2 0) A 0 =
    some 0xf08e2fb179f61664de8db38eddb8fbe301fc0993268bff91872291359f06c3572f6f42e2fc27b3727f5fd06e211522a5 := by decide +kernel
theorem test_smul_two_three : result (.smul 2 0 1) montN2 0xa9d6177a235a7661f7b1d6e925ee098f393bb3bf99b083a7 =
    some 0x153ac2ef446b4ecc3ef63add24bdc131e7277677f3361074e := by decide +kernel
theorem test_smul_out_of_mont : result (.smul 2 0 1) S 1 =
    some 0x17f676ebb1aa65ea959312f8ee2deb691d83a769427cd461165ebaf058e1af70d54504192bbcf607a426c365457a16e := by decide +kernel
theorem test_ssqr_two : result (.ssqr 2 0) montN2 0 =
    some 0xe272c9f82f2348829f97c936dd3d62144c4f9a54cceb5a34 := by decide +kernel
theorem test_ssqr_minus_one : result (.ssqr 2 0) (Config.N - 1) 0 =
    some Config.RINV_N := by decide +kernel
theorem test_stomont_A : result (.stomont 2 0) A 0 =
    some 0xe2c67b01b546ad892c4d015dd350717392c87541166e19e124735193b571b60f4df5c1080b570ab9810e94cd650d36c2 := by decide +kernel
theorem test_stomont_top : result (.stomont 2 0) (Config.N - 1) 0 =
    some (Config.N - Config.R_MOD_N) := by decide +kernel
theorem test_ssqrmul_12 : result (.ssqrmul 2 0 1 1#8) montN2 0xa9d6177a235a7661f7b1d6e925ee098f393bb3bf99b083a7 =
    some 0x2a7585de88d69d987dec75ba497b8263ce4eecefe66c20e9c := by decide +kernel
theorem test_ssqrmul_255 : result (.ssqrmul 2 0 1 255#8) Config.R_MOD_N Config.R_MOD_N =
    some Config.R_MOD_N := by decide +kernel
theorem test_sinv_S : result (.sinv 2 0) S 0 =
    some 0x36a38d6c3d19a715ce991c396fbc03ebf1fcaee4b6dd3eb9ceb70b9824f4267ab2490d2b6dda969bdea8b8af9b103391 := by decide +kernel
theorem test_sinv_zero : result (.sinv 2 0) 0 0 =
    some 0 := by decide +kernel

/-- The table of section 2.16 in W16 to W63, the index in W0, and 0xaaaa in W1 to W3. -/
def pselState (i : Nat) (pdbg : Bool) : State :=
  { State.reset with
    pdbg := pdbg
    words := Vector.ofFn fun k : Fin 64 =>
      if k.val = 0 then toWord i
      else if k.val < 16 then 0xaaaa#384
      else toWord (100 * ((k.val - 16) % 3) + (k.val - 16) / 3 + 1) }

/-- (W1, W2, W3) after `psel w1, w16, w0`. -/
def pselResult (i : Nat) (pdbg : Bool) : Option (Nat × Nat × Nat) :=
  (nextOf (exec (.psel 1 16 0) (pselState i pdbg))).map fun t =>
    ((readWord 1 t).toNat, (readWord 2 t).toNat, (readWord 3 t).toNat)

/-- V-PSEL-1 to V-PSEL-5, V-PSEL-7. -/
theorem test_psel_selects : pselResult 0 false = some (0, 0, 0) ∧
    pselResult 1 false = some (0x1, 0x65, 0xc9) ∧ pselResult 5 false = some (0x5, 0x69, 0xcd) ∧
    pselResult 16 false = some (0x10, 0x74, 0xd8) ∧ pselResult 17 false = some (0, 0, 0) ∧
    pselResult 0x10000000000000001 false = some (0, 0, 0) := by decide +kernel

/-- V-PSEL-8, and the aliasing vector `psel w16, w16, w0` with i = 2. -/
theorem test_psel_debug_and_alias : pselResult 17 true = some (0xaaaa, 0xaaaa, 0xaaaa) ∧
    (nextOf (exec (.psel 16 16 0) (pselState 2 false))).map (fun t =>
      ((readWord 16 t).toNat, (readWord 17 t).toNat, (readWord 18 t).toNat, (readWord 19 t).toNat)) =
      some (0x2, 0x66, 0xca, 0x2) := by decide +kernel

/-! ### Debug checks and model faults (section 3.3; vectors Z-2, Z-3) -/

/-- X-14a: `fadd w10, w9, w0` with W9 = Q and pdbg = 1, completed by a step. -/
theorem test_x14a_invariant : registersAfter
    { writeWord 9 (toWord Config.Q) (running [.complete]) with
      pend := 0x00009281#32, lastCmd := 0x00009281#32, pdbg := true } =
    some (0x6, 0x0000000900000007, 0x00009281) := by decide +kernel

/-- X-14b with pdbg = 0, on the hardware: the command completes with no error and writes its destination. -/
theorem test_x14b_hardware_goes_on :
    (nextOf (exec (.fsub 2 0 1) (operands 1 (Config.R - 1)))).map
      (fun t => (t.undef, t.err, limbWritten 2 5 t)) =
      some (some (.operandOutOfRange Op.fsub 1), false, true) := by decide +kernel

/-- The model fault that a run of the model stops with at this step (R252). -/
def stopsWith (s : State) : Option ModelFault :=
  match modelStep s with
  | .ok _ => none
  | .error u => some u

/-- A state with the command word c accepted and about to complete. -/
def completing (c : BitVec 32) (s : State) : State :=
  { s with busy := true, pend := c, lastCmd := c, events := [.complete] }

/-- X-14b, X-14d and X-14f with pdbg = 0: the model stops with OperandOutOfRange. -/
theorem test_x14_model_stops :
    stopsWith (completing 0x00040082#32 (operands 1 (Config.R - 1))) = some (.operandOutOfRange Op.fsub 1) ∧
    stopsWith (completing 0x00000092#32 (operands Config.N 0)) = some (.operandOutOfRange Op.stomont 0) ∧
    stopsWith (completing 0x00040088#32 (operands Config.Q Config.Q)) =
      some (.operandOutOfRange Op.fmul 0) := by decide +kernel

/-- X-14g, for either pdbg, and Z-3: at FINV of a word never written the model stops with UninitOperand. -/
theorem test_z3_model_stops :
    stopsWith (completing 0x0000008B#32 State.reset) = some (.uninitOperand 0) ∧
    stopsWith { completing 0x0000008B#32 State.reset with pdbg := true } = some (.uninitOperand 0) := by
  decide +kernel

/-- R24, R252: "The hardware raises no error event for them when pdbg = 0". FINV of a word never written
completes with no error and writes its destination. -/
theorem test_z3_hardware_goes_on :
    (nextOf (step (completing 0x0000008B#32 State.reset))).map
      (fun t => ((statusReg t).toNat, limbWritten 2 0 t, t.errInfo.code)) =
      some (0x2, true, .none) := by decide +kernel

/-- Z-2: at a read of a limb never written the model stops with UninitRead, and the bus returns the stored
bits with no error; a written limb is returned with no stop. -/
theorem test_z2_read :
    stopsWith (withEvents [.access (.read 0x1000 8)]) = some (.uninitRead 0 0) ∧
    (nextOf (step { withEvents [.access (.read 0x1000 8)] with
      words := State.reset.words.set 0 (toWord 7) })).map (fun t => (t.resp, t.err)) =
      some (some (.read 7#64 false), false) ∧
    stopsWith { operands 7 2 with events := [.access (.read 0x1000 8)] } = none := by decide +kernel

/-- PSEL reads all 49 source words: one unwritten table word is UninitOperand (R220). -/
theorem test_psel_unwritten_table_word :
    let s := supplyWords ((sources (.psel 1 16 0)).erase 40) (pselState 1 false)
    stopsWith (completing 0x00010060#32 s) = some (.uninitOperand 40) ∧
    stopsWith (completing 0x00010060#32 (supplyWords [40] s)) = none ∧
    (nextOf (step (completing 0x00010060#32 s))).map (fun t => (readWord 2 t).toNat) = some 0x65 := by
  decide +kernel

/-! ### Bus and reset vectors (sections 3.4, 3.5) -/

/-- B-1 and B-2: the response to a read. -/
theorem test_b1_b2_reads :
    (nextOf (step (withEvents [.access (.read 0x000 8)]))).map (fun t => t.resp) =
      some (some (.read 0x0040400134383350#64 false)) ∧
    (nextOf (step (withEvents [.access (.read 0x004 8)]))).map (fun t => (t.resp, t.errInfo)) =
      some (some (.read 0#64 true), ⟨.busAccess, 0x4#32⟩) := by decide +kernel

/-- B-3 and B-4: illegal writes. -/
theorem test_b3_b4_writes :
    registersAfter (withEvents [.access (.write 0x1000 4 1#64)]) = some (0x4, 0x0001100000000008, 0) ∧
    registersAfter (withEvents [.access (.write 0x00C 8 0#64)]) = some (0x4, 0x0001000C00000008, 0) := by
  decide +kernel

/-- B-7 and B-8: the locked operand words. -/
theorem test_b7_b8_locked :
    registersAfter (running [.access (.read 0x1000 8)]) =
      some (0x5, 0x0000100000000006, 0x00040081) ∧
    registersAfter (running [.access (.write 0x1048 8 9#64)]) =
      some (0x5, 0x0001104800000006, 0x00040081) := by decide +kernel

/-- B-12: little-endian bytes. -/
theorem test_b12_bytes :
    (nextOf (step (withEvents [.access (.write 0x1000 8 0x0807060504030201#64)]))).map
      (fun t => (storedByte 0x1000 t, storedByte 0x1007 t)) = some (0x01#8, 0x08#8) := by decide +kernel

/-- Z-6: a CTRL write of 3 is a soft reset. -/
theorem test_z6_soft_reset :
    (nextOf (step (running [.access (.write 0x008 8 0x3#64)]))).map
      (fun t => (t.busy, t.ctrlDbg, t.lastCmd, (readWord 0 t).toNat)) = some (false, false, 0#32, 1) := by
  decide +kernel

/-- Z-7: DONE_IE and a completion raise irq. -/
theorem test_z7_irq :
    (nextOf (step { running [.complete] with intEn := ⟨true, false⟩ })).map irq = some true := by
  decide +kernel

/-- The host's question: a placed word is the first thing the reset machine runs, PSEL and FINV too; one that
is no command raises its error (X-7). -/
theorem test_withFetchWord :
    registersAfter (State.reset.withFetchWord 32 0x00040081) = some (0x2, 0, 0x00040081) ∧
    registersAfter (State.reset.withFetchWord 32 0x00010060) = some (0x2, 0, 0x00010060) ∧
    registersAfter (State.reset.withFetchWord 32 0x0004008A) = some (0x4, 0x0004008A00000003, 0) := by
  decide +kernel

/-! ### Witnesses: for each statement with hypotheses, a state and operands that meet them all -/

theorem witness_PowerOnResetClearsEverything :
    (running [.powerOn, .complete]).events = .powerOn :: [.complete] := rfl

theorem witness_CtrlWriteSetsDebugOrResets :
    ((running [.access (.write 0x008 8 3#64)]).events = .access (.write 0x008 8 3#64) :: [] ∧
      (3#64).getLsbD 1 = true) ∧
    ((running [.access (.write 0x008 8 1#64)]).events = .access (.write 0x008 8 1#64) :: [] ∧
      (1#64).getLsbD 1 = false) := by decide +kernel

/-- Every clause, with the reserved range at both ends. -/
theorem witness_RegisterReadsReturnTheirFields :
    ∀ off ∈ [0x000, 0x008, 0x010, 0x018, 0x020, 0x028, 0x030, 0xFF8],
      off % 8 = 0 ∧ off < 0x1000 ∧
      (withEvents [.access (.read off 8)]).events = .access (.read off 8) :: [] := by decide +kernel

theorem witness_StatusWriteClearsDoneAndError :
    (running [.access (.write 0x010 8 6#64)]).events = .access (.write 0x010 8 6#64) :: [] := rfl

theorem witness_InterruptEnablesAndTheInterruptLine :
    (running [.access (.write 0x020 8 3#64)]).events = .access (.write 0x020 8 3#64) :: [] := rfl

theorem witness_ReadOnlyAndReservedWritesAreIgnored :
    ∀ off ∈ [0x000, 0x028, 0x030, 0xFF8], off % 8 = 0 ∧ (off = 0x000 ∨ (0x028 ≤ off ∧ off < 0x1000)) ∧
      (withEvents [.access (.write off 8 7#64)]).events = .access (.write off 8 7#64) :: [] := by
  decide +kernel

theorem witness_LimbWriteStoresOneLimb :
    ∀ k ∈ [(0 : WordIdx), 63], ∀ j ∈ [(0 : LimbIdx), 5],
      let a := Event.access (.write (0x1000 + 0x40 * k.val + 8 * j.val) 8 7#64)
      (withEvents [a]).busy = false ∧ (withEvents [a]).events = a :: [] := by decide +kernel

/-- An unwritten limb and a written one. -/
theorem witness_LimbReadReturnsTheStoredLimb :
    ∀ k ∈ [(0 : WordIdx), 63], ∀ j ∈ [(0 : LimbIdx), 5],
      let a := Event.access (.read (0x1000 + 0x40 * k.val + 8 * j.val) 8)
      (∀ s ∈ [withEvents [a], supplyWords [k] (withEvents [a])],
        s.undef = none ∧ s.busy = false ∧ s.events = a :: []) ∧
      limbWritten k j (withEvents [a]) = false ∧
      limbWritten k j (supplyWords [k] (withEvents [a])) = true := by decide +kernel

theorem witness_PaddingLimbsReadZeroAndIgnoreWrites :
    ∀ k ∈ [(0 : WordIdx), 63], ∀ j ∈ [6, 7], (j = 6 ∨ j = 7) ∧
      ∀ a ∈ [Event.access (.read (0x1000 + 0x40 * k.val + 8 * j) 8),
             .access (.write (0x1000 + 0x40 * k.val + 8 * j) 8 7#64)],
        (withEvents [a]).busy = false ∧ (withEvents [a]).events = a :: [] := by decide +kernel

theorem witness_BytesAreLittleEndian :
    ((withEvents [.access (.read 0x1FF8 8)]).events = .access (.read 0x1FF8 8) :: []) ∧
    (0x1FF8 % 8 = 0 ∧ 0x1FF8 < 0x2000 ∧ 7 < 8) ∧
    (Config.base + 0x2000 < Config.base ∨ Config.base + 0x2000 ≤ Config.base + 0x2000) :=
  ⟨rfl, by omega, by omega⟩

/-- A bad size, a bad offset, and both at the end of the window. -/
theorem witness_IllegalAccessRaisesBusAccess :
    ∀ p ∈ [(0x1000, 4), (0x00C, 8), (0x1FFF, 0)], p.1 < 0x2000 ∧ (p.2 ≠ 8 ∨ p.1 % 8 ≠ 0) ∧
      (running [.access (.read p.1 p.2)]).events = .access (.read p.1 p.2) :: [] ∧
      (running [.access (.write p.1 p.2 7#64)]).events = .access (.write p.1 p.2 7#64) :: [] := by
  decide +kernel

theorem witness_BusyLocksTheOperandWords :
    ∀ off ∈ [0x1000, 0x1FF8], (running []).busy = true ∧ off % 8 = 0 ∧ 0x1000 ≤ off ∧ off < 0x2000 ∧
      (running [.access (.read off 8)]).events = .access (.read off 8) :: [] ∧
      (running [.access (.write off 8 7#64)]).events = .access (.write off 8 7#64) :: [] := by
  decide +kernel

theorem witness_AccessOutsideTheWindowStops :
    0x2000 ≤ (Access.read 0x2000 8).off ∧
      (withEvents [.access (.read 0x2000 8)]).events = .access (.read 0x2000 8) :: [] := by decide +kernel

theorem witness_DecodeOfEncodeIsTheCommand :
    ∀ i ∈ [Instr.fadd 63 63 63, .fsqrmul 63 63 63 1#8, .ssqrmul 0 0 0 255#8, .psel 61 16 63],
      i.wf = true := by decide

theorem witness_EveryDecodedValueIsItsEncoding : decode 0x00FD0F60#64 = .ok (.psel 61 16 63) := by decide

/-- One value for each of the five outcomes. -/
theorem witness_DecoderNamesTheFirstFailingCheck :
    decode 0x7#64 = .error .illegalOp ∧ decode 0x01011020#64 = .error .reservedField ∧
    decode 0x0004008A#64 = .error .badImm ∧ decode 0x00010FA0#64 = .error .range ∧
    decode 0x00010F60#64 = .ok (.psel 61 16 0) := by decide

theorem witness_IllFormedCommandsNeverExecute :
    (16 < (17 : WordIdx).val ∨ 61 < (0 : WordIdx).val) ∧ (16 < (0 : WordIdx).val ∨ 61 < (62 : WordIdx).val) := by
  decide

theorem witness_ErrorEventRecordsTheFirstCause :
    State.reset.err = false ∧ (raiseError .busy 0#32 State.reset).err = true := by decide

/-- While busy, with each of the four rejections, and with a command. -/
theorem witness_CommandSubmission :
    ((running [.access (.write 0x018 8 7#64)]).events = .access (.write 0x018 8 7#64) :: [] ∧
      (running []).busy = true) ∧
    ((withEvents [.access (.write 0x018 8 7#64)]).events = .access (.write 0x018 8 7#64) :: [] ∧
      (withEvents []).busy = false ∧ decode 7#64 = .error .illegalOp ∧
      decode 0x01000081#64 = .error .reservedField ∧ decode 0x0004008A#64 = .error .badImm ∧
      decode 0x00011020#64 = .error .range) ∧
    ((withEvents [.access (.write 0x018 8 0x00040081#64)]).events =
        .access (.write 0x018 8 0x00040081#64) :: [] ∧
      (withEvents []).busy = false ∧ decode 0x00040081#64 = .ok (.fadd 2 0 1)) :=
  by decide +kernel

/-- A completion with written in-range sources, at a slot and with no event left, and one that reaches a
model fault. -/
theorem witness_StepRunsTheAcceptedCommand :
    ((running []).undef = none ∧ SourcesWritten (.fadd 2 0 1) (running []) ∧
      ResultDefined (.fadd 2 0 1) (running [])) ∧
    (nextOf (exec (.fadd 2 0 1) (withEvents []))).map State.undef = some (some (.uninitOperand 0)) ∧
    ∀ es ∈ [[], [Event.complete, .powerOn]], (running es).busy = true ∧
      ((running es).events = [] ∨ (running es).events.head? = some .complete) ∧
      decode ((running es).pend.setWidth 64) = .ok (.fadd 2 0 1) := by
  refine ⟨⟨rfl, ?_, .inr fun m hm => ?_⟩, by decide +kernel, by decide +kernel⟩
  · change ∀ k ∈ [(0 : WordIdx), 1], wordWritten k (running []) = true
    decide +kernel
  · cases hm
    change ∀ k ∈ [(0 : WordIdx), 1], (readWord k (running [])).toNat < Config.Q
    decide +kernel

theorem witness_PlacedCommandRunsNext : (Instr.psel 61 16 63).wf = true := by decide

theorem witness_HostAccessesDoNotDisturbARunningCommand :
    (running [.access (.write 0x008 8 1#64)]).busy = true ∧
    (running [.access (.write 0x008 8 1#64)]).events = .access (.write 0x008 8 1#64) :: [] ∧
    (∀ v : BitVec 64, Access.write 0x008 8 1#64 = .write 0x008 8 v → v.getLsbD 1 = false) ∧
    ∃ t, step (running [.access (.write 0x008 8 1#64)]) = .next t :=
  ⟨rfl, rfl, fun v h => by cases h; decide, ⟨_, rfl⟩⟩

/-- One state for each of the three ways. -/
theorem witness_OnlyAcceptanceAndResetChangeLastCmd :
    ∀ s ∈ [withEvents [.access (.write 0x018 8 0x00040081#64)], running [.access (.write 0x008 8 2#64)],
           running [.powerOn]],
      (nextOf (step s)).isSome = true ∧ (nextOf (step s)).map State.lastCmd ≠ some s.lastCmd := by
  decide +kernel

/-- The hypotheses of FADD, FSUB, FMUL and FSQRMUL, on every pair of boundary operands. -/
theorem witness_field_two_sources :
    ∀ a ∈ [0, 1, Config.Q - 1], ∀ b ∈ [0, 1, Config.Q - 1],
      (readWord 0 (operands a b)).toNat < Config.Q ∧ (readWord 1 (operands a b)).toNat < Config.Q ∧
      1#8 ≠ 0#8 ∧ 255#8 ≠ 0#8 := by decide +kernel

/-- The hypotheses of FNEG, FDBL, FTPL, FHALF, FSQR and FINV, with both clauses of FINV. -/
theorem witness_field_one_source :
    ∀ a ∈ [0, 1, Config.Q - 1], (readWord 0 (operands a 0)).toNat < Config.Q ∧
      (readWord 0 (operands 0 0) = 0#384 ∧ readWord 0 (operands 1 0) ≠ 0#384) := by decide +kernel

/-- "Every y that is inv_m of the number", for 2 and for R (FHALF, FMUL, FSQR, SMUL, SSQR). -/
theorem witness_inverses :
    IsInverse Config.Q 2 Config.HALF_Q ∧ IsInverse Config.Q (2 ^ 384) Config.RINV_Q ∧
    IsInverse Config.N (2 ^ 384) Config.RINV_N := by
  unfold IsInverse; decide +kernel

theorem witness_DoublingAndTriplingAreAdditions :
    (2 : WordIdx) ≠ 0 ∧ (3 : WordIdx) ≠ 0 ∧ (readWord 0 (operands (Config.Q - 1) 0)).toNat < Config.Q ∧
    ({ operands Config.Q 0 with pdbg := true } : State).pdbg = true := by decide +kernel

theorem witness_MontgomeryRoundTripIsTheIdentity :
    (2 : WordIdx) ≠ 1 ∧ (readWord 0 (operands Config.RR_Q 1)).toNat < Config.Q ∧
    (readWord 0 (operands Config.RR_Q 1)).toNat = Config.RR_Q ∧
    (readWord 1 (operands Config.RR_Q 1)).toNat = 1 := by decide +kernel

theorem witness_ReferenceDatapathComputesTheMontgomeryProduct :
    ∀ m ∈ [Modulus.field, .scalar], m.value - 1 < m.value ∧ 0 < m.value := by decide +kernel

theorem witness_OperandTimesItsFieldInverseIsOne :
    (2 : WordIdx) ≠ 0 ∧ (readWord 0 (operands (Config.Q - 1) 0)).toNat < Config.Q ∧
    readWord 0 (operands (Config.Q - 1) 0) ≠ 0#384 := by decide +kernel

theorem witness_PublicChainsComputeTheirExponents : Config.N - 1 < Config.N := by decide +kernel

/-- The hypotheses of SMUL and SSQRMUL, on every pair of boundary operands. -/
theorem witness_scalar_two_sources :
    ∀ a ∈ [0, 1, Config.N - 1], ∀ b ∈ [0, 1, Config.N - 1],
      (readWord 0 (operands a b)).toNat < Config.N ∧ (readWord 1 (operands a b)).toNat < Config.N ∧
      1#8 ≠ 0#8 ∧ 255#8 ≠ 0#8 := by decide +kernel

/-- The hypotheses of SSQR, STOMONT and SINV, with both clauses of SINV. -/
theorem witness_scalar_one_source :
    ∀ a ∈ [0, 1, Config.N - 1], (readWord 0 (operands a 0)).toNat < Config.N ∧
      (readWord 0 (operands 0 0) = 0#384 ∧ readWord 0 (operands 1 0) ≠ 0#384) := by decide +kernel

theorem witness_ScalarTimesItsInverseIsOne :
    (2 : WordIdx) ≠ 0 ∧ (2 : WordIdx) ≠ 3 ∧ (readWord 0 (operands (Config.N - 1) 0)).toNat < Config.N ∧
    readWord 0 (operands (Config.N - 1) 0) ≠ 0#384 := by decide +kernel

/-- The index at 0, 1, 16 and 17 with pdbg = 0, and at 16 with pdbg = 1; RS1 and RD at their bounds. -/
theorem witness_PselSelectsTheEntry :
    ∀ p ∈ [(0, false), (1, false), (16, false), (17, false), (16, true)],
      (16 : WordIdx).val ≤ 16 ∧ (61 : WordIdx).val ≤ 61 ∧
      ((pselState p.1 p.2).pdbg = false ∨ (readWord 0 (pselState p.1 p.2)).toNat ≤ 16) := by
  decide +kernel

theorem witness_ModularCommandsChangeOnlyTheirDestination :
    operandModulus (.fadd 2 0 1) = some .field ∧ operandModulus (.smul 2 0 1) = some .scalar ∧
    (∃ t, exec (.fadd 2 0 1) (operands 1 2) = .next t) ∧
    (∃ t, exec (.smul 2 0 1) (operands Config.N 2) = .next t) ∧
    ¬ InWordBytes 2 0x107F ∧ ¬ InWordBytes 2 0x10B0 ∧ ¬ InErrorBytes 0x00F ∧ ¬ InErrorBytes 0x030 :=
  ⟨rfl, rfl, ⟨_, rfl⟩, ⟨_, rfl⟩, by unfold InWordBytes; decide, by unfold InWordBytes; decide,
    by unfold InErrorBytes; decide, by unfold InErrorBytes; decide⟩

theorem witness_PselChangesOnlyItsThreeDestinations :
    (∃ t, exec (.psel 61 16 0) (pselState 5 false) = .next t) ∧
    (∃ t, exec (.psel 61 16 0) (pselState 17 true) = .next t) := ⟨⟨_, rfl⟩, ⟨_, rfl⟩⟩

/-- The first source, the second source, and both out of range, with the command pending. -/
theorem witness_OutOfRangeOperandCompletesWithoutChecks :
    ∀ p ∈ [(Config.Q, 0), (0, Config.Q), (Config.Q, Config.Q)],
      (Instr.fadd 2 0 1).wf = true ∧ operandModulus (.fadd 2 0 1) = some .field ∧
      (operands p.1 p.2).pdbg = false ∧
      (∃ k ∈ sources (.fadd 2 0 1), Modulus.field.value ≤ (readWord k (operands p.1 p.2)).toNat) ∧
      (operands p.1 p.2).undef = none ∧
      (∀ k ∈ sources (.fadd 2 0 1), wordWritten k (operands p.1 p.2) = true) ∧
      (completing 0x00040081#32 (operands p.1 p.2)).busy = true ∧
      decode ((completing 0x00040081#32 (operands p.1 p.2)).pend.setWidth 64) = .ok (.fadd 2 0 1) := by
  decide +kernel

/-- The first source fails; only the second fails; the PSEL index fails. -/
theorem witness_DebugChecksReportTheFirstFailingSource :
    (let s := { operands Config.Q Config.Q with pdbg := true };
      (Instr.fadd 2 0 1).wf = true ∧ operandModulus (.fadd 2 0 1) = some .field ∧ s.pdbg = true ∧
      sources (.fadd 2 0 1) = [] ++ 0 :: [1] ∧ Modulus.field.value ≤ (readWord 0 s).toNat) ∧
    (let s := { operands 0 Config.Q with pdbg := true };
      s.pdbg = true ∧ sources (.fadd 2 0 1) = [0] ++ 1 :: [] ∧
      (∀ k ∈ [(0 : WordIdx)], (readWord k s).toNat < Modulus.field.value) ∧
      Modulus.field.value ≤ (readWord 1 s).toNat) ∧
    ((Instr.psel 61 16 0).wf = true ∧ (pselState 17 true).pdbg = true ∧
      16 < (readWord 0 (pselState 17 true)).toNat) := by decide +kernel

theorem witness_PassingDebugChecksChangeNothing :
    ((Instr.fadd 2 0 1).wf = true ∧ OperandsOk (.fadd 2 0 1) (operands (Config.Q - 1) 0)) ∧
    ((Instr.psel 61 16 0).wf = true ∧ OperandsOk (.psel 61 16 0) (pselState 16 true)) := by
  refine ⟨⟨by decide, ?_⟩, ⟨by decide, ?_⟩⟩
  · change ∀ k ∈ [(0 : WordIdx), 1], (readWord k (operands (Config.Q - 1) 0)).toNat < Config.Q
    decide +kernel
  · change ∀ k ∈ some (0 : WordIdx), (readWord k (pselState 16 true)).toNat ≤ 16
    decide +kernel

/-- An unwritten first source, an unwritten second source, and sources all written and in range. -/
theorem witness_UnwrittenSourcesStopTheModel :
    (decode 0x00184081#64 = .ok (.fadd 2 4 6) ∧
      (∀ s, (completing 0x00184081#32 s).busy = true)) ∧
    ((Instr.fadd 2 5 6).wf = true ∧ (operands 1 2).undef = none ∧
      sources (.fadd 2 5 6) = [] ++ 5 :: [6] ∧ wordWritten 5 (operands 1 2) = false) ∧
    (sources (.fadd 2 0 6) = [0] ++ 6 :: [] ∧ wordWritten 0 (operands 1 2) = true ∧
      wordWritten 6 (operands 1 2) = false) ∧
    (SourcesWritten (.fadd 2 0 1) (operands 1 2) ∧ ResultDefined (.fadd 2 0 1) (operands 1 2)) := by
  refine ⟨⟨by decide, fun _ => rfl⟩, by decide +kernel, by decide +kernel, ?_, .inr fun m hm => ?_⟩
  · change ∀ k ∈ [(0 : WordIdx), 1], wordWritten k (operands 1 2) = true
    decide +kernel
  · cases hm
    change ∀ k ∈ [(0 : WordIdx), 1], (readWord k (operands 1 2)).toNat < Config.Q
    decide +kernel

/-- Two states that differ in W5 only. -/
theorem witness_ResultsDependOnlyOnTheSources :
    SameRegisters (operands 1 2) (writeWord 5 7#384 (operands 1 2)) ∧
    OperandsOk (.fadd 2 0 1) (operands 1 2) ∧ operandModulus (.psel 61 16 0) = none ∧
    (∀ k ∈ sources (.fadd 2 0 1), readWord k (operands 1 2) =
      readWord k (writeWord 5 7#384 (operands 1 2))) ∧
    (∃ t, exec (.fadd 2 0 1) (operands 1 2) = .next t) ∧
    (∃ t, exec (.fadd 2 0 1) (writeWord 5 7#384 (operands 1 2)) = .next t) :=
  ⟨⟨⟨rfl, rfl⟩, rfl, rfl, rfl, rfl, rfl, rfl, rfl, rfl, rfl⟩,
    (by decide +kernel : ∀ k ∈ [(0 : WordIdx), 1], (readWord k (operands 1 2)).toNat < Config.Q), rfl,
    by decide +kernel, ⟨_, rfl⟩, ⟨_, rfl⟩⟩

/-- Two running states whose operands differ, one of them out of range. -/
theorem witness_RegistersDoNotDependOnOperandValues :
    (running [.complete]).busy = true ∧ (running [.complete]).pdbg = false ∧
    (running [.complete]).events.head? = some .complete ∧
    SameRegisters (running [.complete]) (writeWord 0 (toWord Config.Q) (running [.complete])) ∧
    (running [.complete]).written = (writeWord 0 (toWord Config.Q) (running [.complete])).written ∧
    (nextOf (step (running [.complete]))).isSome = true ∧
    (nextOf (step (writeWord 0 (toWord Config.Q) (running [.complete])))).isSome = true ∧
    (running []).events = [] :=
  ⟨rfl, rfl, rfl, ⟨⟨rfl, rfl⟩, rfl, rfl, rfl, rfl, rfl, rfl, rfl, rfl, rfl⟩, by decide +kernel,
    by decide +kernel, by decide +kernel, rfl⟩

theorem witness_BusyBlockHidesTheOperandWords :
    let s := running [.access (.read 0x1000 8)]
    s.busy = true ∧ s.events = .access (.read 0x1000 8) :: [] ∧
    SameRegisters s (writeWord 0 9#384 s) ∧ (nextOf (step s)).isSome = true ∧
    (nextOf (step (writeWord 0 9#384 s))).isSome = true :=
  ⟨rfl, rfl, ⟨⟨rfl, rfl⟩, rfl, rfl, rfl, rfl, rfl, rfl, rfl, rfl, rfl⟩, by decide +kernel, by decide +kernel⟩

/-- A busy state with an error recorded meets the invariant and takes a step, with no model fault. -/
theorem witness_EveryStepKeepsTheInvariant :
    Inv (raiseError .busy 7#32 (running [.complete])) ∧
    (nextOf (step (raiseError .busy 7#32 (running [.complete])))).isSome = true ∧
    stopsWith (raiseError .busy 7#32 (running [.complete])) = none :=
  ⟨⟨rfl, .inr (by decide +kernel), fun _ => by decide +kernel, fun _ => by decide +kernel,
      fun h => absurd h (by decide +kernel), fun h => absurd h (by decide +kernel),
      fun _ => by decide +kernel⟩, by decide +kernel, by decide +kernel⟩

theorem witness_EveryRunEnds :
    Inv (running [.access (.read 0x1FF8 8)]) ∧ EventsInWindow (running [.access (.read 0x1FF8 8)]) := by
  refine ⟨⟨rfl, .inr (by decide +kernel), fun _ => by decide +kernel, fun _ => by decide +kernel,
    fun h => absurd h (by decide +kernel), fun _ => by decide +kernel,
    fun h => absurd h (by decide +kernel)⟩, fun a ha => ?_⟩
  change Event.access a ∈ [Event.access (.read 0x1FF8 8)] at ha
  rw [List.mem_singleton] at ha
  cases ha
  decide

end Sys2Proof.Tests
end

section
/-! The constant store holds what its formulas say (spec/00_scope.md R13, R15). What Laws/Constants.lean
leaves open is proved here: Q as a sum of powers of two, the limbs of N, and the constants n0. -/

namespace Sys2Proof.Laws

open Config

/-- R13: Q = 2^384 - 2^128 - 2^96 + 2^32 - 1, with the negative terms on the other side. -/
theorem Q_add_eq_two_pow_add : Q + 2 ^ 128 + 2 ^ 96 + 1 = 2 ^ 384 + 2 ^ 32 := by decide +kernel

/-- R13: the three lower limbs of N; the three upper limbs are all ones. -/
theorem N_eq_sum_limbs :
    N = 0xecec196accc52973 + 2 ^ 64 * 0x581a0db248b0a77a + 2 ^ 128 * 0xc7634d81f4372ddf +
      2 ^ 192 * (2 ^ 192 - 1) := by decide +kernel

/-- R13: n0 = -m^-1 mod 2^64, for either modulus. -/
theorem value_mul_n0_add_one_mod (m : Modulus) : (m.value * m.n0 + 1) % 2 ^ 64 = 0 := by
  cases m <;> decide +kernel

/-- The engine's constant n0 is one limb. -/
theorem n0_lt_two_pow (m : Modulus) : m.n0 < 2 ^ 64 := by
  cases m <;> decide +kernel

/-- Settles O1: each formula of R13 and R15 is one law of the constant store; those of n0 and of inv_m(R)
are the two cases of a law about either modulus. -/
theorem constantStoreHoldsItsFormulas : Obligations.ConstantStoreHoldsItsFormulas :=
  ⟨two_pow_384.symm, Q_add_eq_two_pow_add, N_eq_sum_limbs, two_HALF_Q, RR_N_eq,
    value_mul_n0_add_one_mod .field, n0_lt_two_pow .field,
    value_mul_n0_add_one_mod .scalar, n0_lt_two_pow .scalar,
    R_MOD_Q_eq, RR_Q_eq, R_MOD_N_eq, rInv_spec .field, rInv_spec .scalar⟩

end Sys2Proof.Laws
end

section
/-! What a Host access and a command can do to the registers, said once (spec/20_memory.md R50 to R59,
spec/60_exceptions.md R244, R250, R251). -/

namespace Sys2Proof.Machine

/-! ### A decoded value is its command word (R70, R78) -/

/-- R78: the decoder takes no value with a bit of v[63:32] set. -/
theorem cmdHigh_of_decode {v : BitVec 64} {i : Instr} (h : decode v = .ok i) : cmdHigh v = 0#32 := by
  simp only [decode] at h
  split at h
  · cases h
  · split at h
    · cases h
    · rename_i hz
      simp only [Bool.or_eq_true, bne_iff_ne, not_or, not_not] at hz
      exact hz.1

theorem setWidth_cmdWord_of_decode {v : BitVec 64} {i : Instr} (h : decode v = .ok i) :
    (cmdWord v).setWidth 64 = v := by
  have hlt := v.isLt
  have hhigh := congrArg BitVec.toNat (cmdHigh_of_decode h)
  rw [Laws.toNat_cmdHigh, BitVec.toNat_zero] at hhigh
  apply BitVec.eq_of_toNat_eq
  rw [BitVec.toNat_setWidth, Laws.toNat_cmdWord]
  omega

theorem isCommand_of_decode {c : BitVec 32} {i : Instr} (h : decode (c.setWidth 64) = .ok i) :
    isCommand c = true := by
  simp only [isCommand, h]

/-- R70, R244: the word that acceptance stores is a command. -/
theorem isCommand_cmdWord {v : BitVec 64} {i : Instr} (h : decode v = .ok i) :
    isCommand (cmdWord v) = true :=
  isCommand_of_decode (by rw [setWidth_cmdWord_of_decode h]; exact h)

/-! ### Everything a Host access can do (R56, R58, R59, R244) -/

theorem decodeErrCode_ne_none (e : DecodeError) : decodeErrCode e ≠ .none := by
  cases e <;> decide

/-- R244: a submission raises an error event, or an idle block accepts the command. -/
theorem submit_cases (v : BitVec 64) (s : State) :
    (∃ c, c ≠ .none ∧ submit v s = raiseError c (cmdWord v) s) ∨
    (∃ i, s.busy = false ∧ decode v = .ok i ∧ submit v s = accept (cmdWord v) s) := by
  simp only [submit]
  cases hb : s.busy with
  | true => exact .inl ⟨.busy, by decide, rfl⟩
  | false =>
    cases hd : decode v with
    | error e => exact .inl ⟨decodeErrCode e, decodeErrCode_ne_none e, rfl⟩
    | ok i => exact .inr ⟨i, rfl, rfl, rfl⟩

/-- A read raises an error event, or records at most a model fault. -/
theorem busRead_cases (off size : Nat) (s : State) :
    (∃ r c info, c ≠ .none ∧ busRead off size s = respond r (raiseError c info s)) ∨
    (∃ r, busRead off size s = respond r (noteUninitRead (target off) s)) := by
  simp only [busRead]
  split
  · exact .inl ⟨_, _, _, by decide, rfl⟩
  · split
    · exact .inl ⟨_, _, _, by decide, rfl⟩
    · exact .inr ⟨_, rfl⟩

/-- A Host access raises an error event, reads, or is a legal write that BUSY does not lock out. -/
theorem hostAccess_effects {a : Access} {s t : State} (h : hostAccess a s = .next t) :
    (∃ r c info, c ≠ .none ∧ t = respond r (raiseError c info s)) ∨
    (∃ r tg, t = respond r (noteUninitRead tg s)) ∨
    (∃ off v, a = .write off 8 v ∧ t = respond (.write false) (writeTarget v s (target off))) := by
  rcases hostAccess_cases h with ⟨off, size, -, -, rfl⟩ | ⟨_, _, _, -, -, rfl⟩ |
    ⟨_, _, -, -, -, -, rfl⟩ | ⟨off, v, ha, -, -, rfl⟩
  · rcases busRead_cases off size s with h | ⟨r, h⟩
    · exact .inl h
    · exact .inr (.inl ⟨r, _, h⟩)
  · exact .inl ⟨_, _, _, by decide, rfl⟩
  · exact .inl ⟨_, _, _, by decide, rfl⟩
  · exact .inr (.inr ⟨off, v, ha, rfl⟩)

/-- R28, R249: a STATUS write in one update. -/
theorem writeStatus_eq (v : BitVec 64) (s : State) :
    writeStatus v s = { s with
      done := s.done && !v.getLsbD 1
      err := s.err && !v.getLsbD 2
      errInfo := if v.getLsbD 2 then ⟨.none, 0#32⟩ else s.errInfo } := by
  rw [writeStatus]
  cases v.getLsbD 1 <;> cases v.getLsbD 2 <;> simp [clearDone, clearError]

/-- Recording an unwritten limb changes `undef` only. -/
theorem noteUninitRead_eq (tg : Target) (s : State) :
    noteUninitRead tg s = { s with undef := (noteUninitRead tg s).undef } := by
  cases tg with
  | limb k j => simp only [noteUninitRead]; split <;> rfl
  | _ => rfl

@[simp] theorem noteUninitRead_lastCmd (tg : Target) (s : State) :
    (noteUninitRead tg s).lastCmd = s.lastCmd := by rw [noteUninitRead_eq]

/-! ### Everything a command can do (R101, R250) -/

/-- The flags `written` after a command has written the words `ds`, each with its six flags set (R24). -/
def flagsAfter (ds : List WordIdx) (w : Vector (Vector Bool 6) 64) : Vector (Vector Bool 6) 64 :=
  ds.foldl (fun w k => w.set k.val (Vector.replicate 6 true)) w

/-- A command fails a debug check, or it keeps every register and sets the flags of its destinations. In
both cases the record of an unwritten source stays. -/
theorem exec_cases {i : Instr} {s t : State} (h : exec i s = .next t) :
    (∃ k, s.pdbg = true ∧ t = invariantError k (noteUninit (sources i) s)) ∨
    (SameRegisters s t ∧ t.written = flagsAfter (dests i) s.written ∧
      ∀ u, (noteUninit (sources i) s).undef = some u → t.undef = some u) := by
  have hwf := wf_of_exec_next h
  have hregs : SameRegisters s (noteUninit (sources i) s) :=
    ⟨noteUninit_errorKept _ s, noteUninit_controlKept _ s⟩
  cases hm : operandModulus i with
  | some m =>
    obtain ⟨rd, hd, he⟩ := exec_modular s hwf hm
    rw [he] at h
    cases h
    rw [runModular, hd]
    rcases runModularWith_cases none i.opcode m (sources i) rd (resultWord i s) s with
      ⟨-, -, h1⟩ | ⟨k, hp, -, h1⟩ | ⟨k, -, -, h1⟩
    · rw [h1]
      exact .inr ⟨hregs, by simp [flagsAfter], fun u hu => hu⟩
    · exact .inl ⟨k, hp, h1⟩
    · rw [h1]
      exact .inr ⟨hregs, by simp [flagsAfter], fun u hu => by simp [hu]⟩
  | none =>
    cases i with
    | psel rd rs1 rs2 =>
      simp only [Instr.wf] at hwf
      simp only [exec, execPsel, hwf, if_true] at h
      cases h
      rcases runPsel_cases rd rs1 rs2 s with ⟨hp, -, h1⟩ | ⟨-, h1⟩
      · exact .inl ⟨rs2, hp, h1⟩
      · rw [h1]
        exact .inr ⟨hregs, by simp [writePoint, dests, flagsAfter], fun u hu => hu⟩
    | _ => cases hm

/-- R250, R251: only a failed debug check touches a register, and it is ERR with ERRINFO. -/
theorem exec_controlKept {i : Instr} {s t : State} (h : exec i s = .next t) : ControlKept s t := by
  rcases exec_cases h with ⟨k, -, rfl⟩ | ⟨⟨-, hc⟩, -, -⟩
  · exact noteUninit_controlKept (sources i) s
  · exact hc

/-- R251: without debug checks a command touches no register, and the words it writes are known from the
command word. -/
theorem exec_of_pdbg_false {i : Instr} {s t : State} (h : exec i s = .next t) (hp : s.pdbg = false) :
    SameRegisters s t ∧ t.written = flagsAfter (dests i) s.written := by
  rcases exec_cases h with ⟨k, hp', -⟩ | ⟨hr, hw, -⟩
  · rw [hp] at hp'; cases hp'
  · exact ⟨hr, hw⟩

/-- R24: the first unwritten source is the model fault reached, whatever the command goes on to do. -/
theorem exec_undef_of_unwritten {i : Instr} {s t : State} {pre post : List WordIdx} {k : WordIdx}
    (h : exec i s = .next t) (hu : s.undef = none) (hs : sources i = pre ++ k :: post)
    (hpre : ∀ k' ∈ pre, wordWritten k' s = true) (hk : wordWritten k s = false) :
    t.undef = some (.uninitOperand k) := by
  have hn : (noteUninit (sources i) s).undef = some (.uninitOperand k) := by
    rw [hs, noteUninit_undef_of_first hpre hk, hu]; rfl
  rcases exec_cases h with ⟨_, -, rfl⟩ | ⟨-, -, hkeep⟩
  · exact hn
  · exact hkeep _ hn

end Sys2Proof.Machine
end

section
/-! The invariant of every run: each operation keeps it, so each rule does, and so each step does
(spec/10_state.md R28, R29, R34, spec/60_exceptions.md R241, R244, spec/70_reset_and_hazards.md R280). -/

namespace Sys2Proof.Machine

/-! ### Operation by operation -/

/-- The invariant speaks of six registers. -/
theorem inv_congr {s t : State} (h : Inv s) (hp : t.pend = s.pend) (hl : t.lastCmd = s.lastCmd)
    (hb : t.busy = s.busy) (hd : t.done = s.done) (he : ErrorKept s t) : Inv t where
  pend_is_last := by rw [hp, hl]; exact h.pend_is_last
  last_legal := by rw [hl]; exact h.last_legal
  busy_legal := by rw [hb, hp]; exact h.busy_legal
  busy_not_done := by rw [hb, hd]; exact h.busy_not_done
  done_legal := by rw [hd, hl]; exact h.done_legal
  no_error := by rw [he.1, he.2]; exact h.no_error
  error_named := by rw [he.1, he.2]; exact h.error_named

theorem inv_of_sameRegisters {s t : State} (hr : SameRegisters s t) (h : Inv s) : Inv t := by
  obtain ⟨he, -, hd, hl, -, hb, hp, -⟩ := hr
  exact inv_congr h hp hl hb hd he

/-- R241: the first error event since ERR was clear is named, and a later one keeps that name. -/
theorem inv_raiseError {c : ErrCode} (hc : c ≠ .none) (info : BitVec 32) {s : State} (h : Inv s) :
    Inv (raiseError c info s) where
  pend_is_last := h.pend_is_last
  last_legal := h.last_legal
  busy_legal := h.busy_legal
  busy_not_done := h.busy_not_done
  done_legal := h.done_legal
  no_error := fun he => by cases he
  error_named := fun _ => by
    rw [raiseError_errInfo]
    split
    · next he => exact h.error_named he
    · exact hc

theorem inv_respond (r : BusResp) {s : State} (h : Inv s) : Inv (respond r s) :=
  inv_congr h rfl rfl rfl rfl ⟨rfl, rfl⟩

theorem inv_noteUninitRead (tg : Target) {s : State} (h : Inv s) : Inv (noteUninitRead tg s) := by
  rw [noteUninitRead_eq]
  exact inv_congr h rfl rfl rfl rfl ⟨rfl, rfl⟩

theorem inv_clearDone {s : State} (h : Inv s) : Inv (clearDone s) where
  pend_is_last := h.pend_is_last
  last_legal := h.last_legal
  busy_legal := h.busy_legal
  busy_not_done := fun _ => rfl
  done_legal := fun hd => by cases hd
  no_error := h.no_error
  error_named := h.error_named

theorem inv_clearError {s : State} (h : Inv s) : Inv (clearError s) where
  pend_is_last := h.pend_is_last
  last_legal := h.last_legal
  busy_legal := h.busy_legal
  busy_not_done := h.busy_not_done
  done_legal := h.done_legal
  no_error := fun _ => rfl
  error_named := fun he => by cases he

/-- R244: acceptance stores one legal word in `pend` and LAST_CMD and clears DONE. -/
theorem inv_accept {c : BitVec 32} (hc : isCommand c = true) {s : State} (h : Inv s) :
    Inv (accept c s) where
  pend_is_last := rfl
  last_legal := .inr hc
  busy_legal := fun _ => hc
  busy_not_done := fun _ => rfl
  done_legal := fun hd => by cases hd
  no_error := h.no_error
  error_named := h.error_named

/-- R280: the end of a completion on a busy Core. -/
theorem inv_finish {s : State} (hb : s.busy = true) (h : Inv s) : Inv (finish s) where
  pend_is_last := h.pend_is_last
  last_legal := h.last_legal
  busy_legal := fun hb' => by cases hb'
  busy_not_done := fun hb' => by cases hb'
  done_legal := fun _ => h.pend_is_last ▸ h.busy_legal hb
  no_error := h.no_error
  error_named := h.error_named

/-- R271, R273: a state with every control register 0 meets the invariant. -/
theorem inv_of_zero {s : State} (hp : s.pend = 0#32) (hl : s.lastCmd = 0#32) (hb : s.busy = false)
    (hd : s.done = false) (he : s.err = false) (hi : s.errInfo = ⟨.none, 0#32⟩) : Inv s where
  pend_is_last := by rw [hp, hl]
  last_legal := .inl hl
  busy_legal := by simp [hb]
  busy_not_done := fun _ => hd
  done_legal := by simp [hd]
  no_error := fun _ => hi
  error_named := by simp [he]

theorem inv_softReset (s : State) : Inv (softReset s) := inv_of_zero rfl rfl rfl rfl rfl rfl

theorem inv_powerOnReset (s : State) : Inv (powerOnReset s) := inv_of_zero rfl rfl rfl rfl rfl rfl

/-! ### Rule by rule -/

theorem inv_submit (v : BitVec 64) {s : State} (h : Inv s) : Inv (submit v s) := by
  rcases submit_cases v s with ⟨c, hc, he⟩ | ⟨i, -, hd, he⟩
  · rw [he]; exact inv_raiseError hc _ h
  · rw [he]; exact inv_accept (isCommand_cmdWord hd) h

theorem inv_writeStatus (v : BitVec 64) {s : State} (h : Inv s) : Inv (writeStatus v s) := by
  have h1 : Inv (if v.getLsbD 1 then clearDone s else s) := by
    split
    · exact inv_clearDone h
    · exact h
  rw [writeStatus]
  split
  · exact inv_clearError h1
  · exact h1

theorem inv_writeCtrl (v : BitVec 64) {s : State} (h : Inv s) : Inv (writeCtrl v s) := by
  rw [writeCtrl]
  split
  · exact inv_softReset s
  · exact inv_congr h rfl rfl rfl rfl ⟨rfl, rfl⟩

theorem inv_writeTarget (v : BitVec 64) (tg : Target) {s : State} (h : Inv s) :
    Inv (writeTarget v s tg) := by
  cases tg with
  | ctrl => exact inv_writeCtrl v h
  | status => exact inv_writeStatus v h
  | cmd => exact inv_submit v h
  | intEn | limb => exact inv_congr h rfl rfl rfl rfl ⟨rfl, rfl⟩
  | id | errInfo | reserved | padding => exact h

theorem inv_hostAccess {a : Access} {s t : State} (h : hostAccess a s = .next t) (hi : Inv s) :
    Inv t := by
  rcases hostAccess_effects h with ⟨r, c, info, hc, rfl⟩ | ⟨r, tg, rfl⟩ | ⟨off, v, -, rfl⟩
  · exact inv_respond r (inv_raiseError hc info hi)
  · exact inv_respond r (inv_noteUninitRead tg hi)
  · exact inv_respond _ (inv_writeTarget v (target off) hi)

theorem inv_exec {i : Instr} {s t : State} (h : exec i s = .next t) (hi : Inv s) : Inv t := by
  rcases exec_cases h with ⟨k, -, rfl⟩ | ⟨hr, -, -⟩
  · exact inv_raiseError (by decide) _
      (inv_of_sameRegisters ⟨noteUninit_errorKept _ s, noteUninit_controlKept _ s⟩ hi)
  · exact inv_of_sameRegisters hr hi

theorem inv_completionSlot {s t : State} (h : completionSlot s = .next t) (hi : Inv s) : Inv t := by
  rcases completionSlot_cases h with ⟨-, rfl⟩ | ⟨hb, i, u, -, hu, rfl⟩
  · exact hi
  · obtain ⟨-, -, -, -, hbusy, -⟩ := exec_controlKept hu
    exact inv_finish (hbusy.trans hb) (inv_exec hu hi)

theorem inv_step {s t : State} (h : step s = .next t) (hi : Inv s) : Inv t := by
  have hpop (es : List Event) : Inv { s with events := es } :=
    inv_congr hi rfl rfl rfl rfl ⟨rfl, rfl⟩
  rcases step_cases h with ⟨a, es, -, ha⟩ | ⟨-, hc⟩ | ⟨es, -, rfl⟩
  · exact inv_hostAccess ha (hpop es)
  · exact inv_completionSlot hc (hpop _)
  · exact inv_powerOnReset _

/-- Settles O59: every kind of event keeps the invariant (`inv_step`), and a step of a model run is a step
that has reached no model fault (`modelStep_next_iff`). -/
theorem everyStepKeepsTheInvariant : Obligations.EveryStepKeepsTheInvariant :=
  ⟨fun _ _ hi h => inv_step h hi, fun _ _ hi h =>
    have ⟨hs, hu⟩ := modelStep_next_iff.1 h
    ⟨inv_step hs hi, hu⟩⟩

end Sys2Proof.Machine
end

section
/-! Where LAST_CMD can change (spec/10_state.md R29, spec/60_exceptions.md R244,
spec/70_reset_and_hazards.md R271, R273). -/

namespace Sys2Proof.Machine

/-- A legal write changes LAST_CMD only as an accepted submission or as a soft reset. -/
theorem writeTarget_lastCmd {v : BitVec 64} {s : State} {tg : Target}
    (h : (writeTarget v s tg).lastCmd ≠ s.lastCmd) :
    (tg = .cmd ∧ ∃ i, s.busy = false ∧ decode v = .ok i ∧
      (writeTarget v s tg).lastCmd = v.setWidth 32) ∨
    (tg = .ctrl ∧ v.getLsbD 1 = true) := by
  cases tg with
  | cmd =>
    rw [writeTarget] at h ⊢
    rcases submit_cases v s with ⟨c, -, he⟩ | ⟨i, hb, hd, he⟩
    · rw [he] at h; exact absurd rfl h
    · exact .inl ⟨rfl, i, hb, hd, by rw [he, accept_lastCmd, Laws.setWidth_eq_cmdWord]⟩
  | ctrl =>
    refine .inr ⟨rfl, Bool.of_not_eq_false fun hv => h ?_⟩
    simp only [writeTarget, writeCtrl, hv, Bool.false_eq_true, if_false]
  | status =>
    rw [writeTarget, writeStatus_eq] at h
    exact absurd rfl h
  | id | intEn | errInfo | reserved | limb | padding => exact absurd rfl h

/-- A completion slot keeps LAST_CMD (R280). -/
theorem completionSlot_lastCmd {s t : State} (h : completionSlot s = .next t) :
    t.lastCmd = s.lastCmd := by
  rcases completionSlot_cases h with ⟨-, rfl⟩ | ⟨-, i, u, -, hu, rfl⟩
  · rfl
  · obtain ⟨-, -, hl, -⟩ := exec_controlKept hu
    exact hl

/-- Settles O26: of the three kinds of step, a completion slot keeps LAST_CMD, and so does a Host access but
for a write to CMD or CTRL. -/
theorem onlyAcceptanceAndResetChangeLastCmd : Obligations.OnlyAcceptanceAndResetChangeLastCmd := by
  intro s t h hne
  rcases step_cases h with ⟨a, es, he, ha⟩ | ⟨-, hc⟩ | ⟨es, he, -⟩
  · rw [he]
    rcases hostAccess_effects ha with ⟨r, c, info, -, rfl⟩ | ⟨r, tg, rfl⟩ | ⟨off, v, rfl, rfl⟩
    · exact absurd rfl hne
    · exact absurd (noteUninitRead_lastCmd tg { s with events := es }) hne
    · rcases writeTarget_lastCmd hne with ⟨htg, i, hb, hd, hl⟩ | ⟨htg, hv⟩
      · obtain rfl := target_eq_cmd.1 htg
        exact .inl ⟨v, i, rfl, hb, hd, hl⟩
      · obtain rfl := target_eq_ctrl.1 htg
        exact .inr (.inl ⟨v, rfl, hv⟩)
  · exact absurd (completionSlot_lastCmd hc) hne
  · exact .inr (.inr (by rw [he]; rfl))

end Sys2Proof.Machine
end

section
/-! Where a completion stops the model: at its first unwritten source (spec/10_state.md R24,
spec/60_exceptions.md R252). -/

namespace Sys2Proof.Machine

/-- Settles O54: the command records its first unwritten source (`exec_undef_of_unwritten`), so the
completion reaches that model fault, and `modelStep` stops there. -/
theorem unwrittenSourcesStopTheModel : Obligations.UnwrittenSourcesStopTheModel := by
  intro i s hwf hu
  obtain ⟨t, ht⟩ := exec_next_of_wf s hwf
  refine ⟨t, ht, fun pre post k hs hpre hk =>
    ⟨exec_undef_of_unwritten ht hu hs hpre hk, fun es hb hd => ?_⟩,
    fun hw hdef => (exec_undef_of_defined hw hdef ht).trans hu⟩
  obtain ⟨t', ht', hslot⟩ := completionSlot_busy (s := { s with events := es }) hb hd
  have hstep : step { s with events := .complete :: es } = .next (finish t') :=
    (step_slot (.inr rfl)).trans hslot
  have hfault : t'.undef = some (.uninitOperand k) := exec_undef_of_unwritten ht' hu hs hpre hk
  exact modelStep_of_modelFault hstep hfault

end Sys2Proof.Machine
end

section
/-! A completion without debug checks shows nothing of operand values in the registers
(spec/40_field_arith.md R102, spec/10_state.md R26, spec/60_exceptions.md R251). -/

namespace Sys2Proof.Machine

/-! ### States with the same registers -/

theorem sameRegisters_symm {s t : State} (h : SameRegisters s t) : SameRegisters t s := by
  obtain ⟨⟨herr, hinfo⟩, hdbg, hdone, hlast, hie, hbusy, hpend, hpdbg, hevents, hresp⟩ := h
  exact ⟨⟨herr.symm, hinfo.symm⟩, hdbg.symm, hdone.symm, hlast.symm, hie.symm, hbusy.symm, hpend.symm,
    hpdbg.symm, hevents.symm, hresp.symm⟩

theorem sameRegisters_trans {s t u : State} (h : SameRegisters s t) (h' : SameRegisters t u) :
    SameRegisters s u :=
  ⟨errorKept_trans h.1 h'.1, controlKept_trans h.2 h'.2⟩

theorem sameRegisters_popEvent {s t : State} (h : SameRegisters s t) :
    SameRegisters (popEvent s) (popEvent t) := by
  obtain ⟨herror, hdbg, hdone, hlast, hie, hbusy, hpend, hpdbg, hevents, hresp⟩ := h
  exact ⟨herror, hdbg, hdone, hlast, hie, hbusy, hpend, hpdbg, congrArg List.tail hevents, hresp⟩

theorem sameRegisters_finish {s t : State} (h : SameRegisters s t) :
    SameRegisters (finish s) (finish t) := by
  obtain ⟨herror, hdbg, -, hlast, hie, -, hpend, hpdbg, hevents, hresp⟩ := h
  exact ⟨herror, hdbg, rfl, hlast, hie, rfl, hpend, hpdbg, hevents, hresp⟩

/-- R247: irq is a function of the registers. -/
theorem irq_of_sameRegisters {s t : State} (h : SameRegisters s t) : irq s = irq t := by
  obtain ⟨⟨herr, -⟩, -, hdone, -, hie, -⟩ := h
  simp only [irq, herr, hdone, hie]

/-- R251: without debug checks the registers and flags after a completion are those of the busy state, with
the flags of the command's destinations set. -/
theorem completionSlot_of_pdbg_false {s t : State} (h : completionSlot s = .next t)
    (hb : s.busy = true) (hp : s.pdbg = false) :
    ∃ i, decode (s.pend.setWidth 64) = .ok i ∧ SameRegisters (finish s) t ∧
      t.written = flagsAfter (dests i) s.written := by
  rcases completionSlot_cases h with ⟨hb', -⟩ | ⟨-, i, u, hd, hu, rfl⟩
  · rw [hb] at hb'; cases hb'
  · obtain ⟨hr, hw⟩ := exec_of_pdbg_false hu hp
    exact ⟨i, hd, sameRegisters_finish hr, hw⟩

/-- Settles O56: both completions run the command of the same `pend`, and each leaves the registers of its
busy state and flags that the command word alone determines. -/
theorem registersDoNotDependOnOperandValues : Obligations.RegistersDoNotDependOnOperandValues := by
  intro s s' t t' hb hp hev hr hw h h'
  obtain ⟨-, -, -, -, hbusy, hpend, hpdbg, hevents, -⟩ := hr.2
  rw [step_slot hev] at h
  rw [step_slot (by rw [hevents]; exact hev)] at h'
  obtain ⟨i, hd, hf, hwt⟩ := completionSlot_of_pdbg_false h hb hp
  obtain ⟨i', hd', hf', hwt'⟩ := completionSlot_of_pdbg_false h' (hbusy.trans hb) (hpdbg.trans hp)
  have hi : i' = i := by
    have hdec : decode (s'.pend.setWidth 64) = .ok i := by rw [hpend]; exact hd
    exact Except.ok.inj (hd'.symm.trans hdec)
  have hsame : SameRegisters t t' :=
    sameRegisters_trans (sameRegisters_symm hf)
      (sameRegisters_trans (sameRegisters_finish (sameRegisters_popEvent hr)) hf')
  exact ⟨hsame, by rw [hwt, hwt', hi, hw], irq_of_sameRegisters hsame⟩

end Sys2Proof.Machine
end

section
/-! The register window: what a legal read of each register returns, and the writes of STATUS and INT_EN
(spec/10_state.md R27 to R32, spec/20_memory.md R51, R53). -/

namespace Sys2Proof.Machine

/-! ### A legal access of the registers, idle or busy -/

theorem target_ne_limb {off : Nat} (h8 : off % 8 = 0) (h : off < 0x1000) (k : WordIdx) (j : LimbIdx) :
    target off ≠ .limb k j := by
  intro ht
  have hop : 0x1000 ≤ off := (isOperand_iff h8).1 (by rw [ht]; rfl)
  omega

/-- What an offset holds does not depend on the events to come. -/
theorem targetValue_events (s : State) (es : List Event) (tg : Target) :
    targetValue { s with events := es } tg = targetValue s tg := by
  cases tg <;> rfl

/-- R58: a legal read of a register changes nothing but the response. -/
theorem step_readRegister {s : State} {es : List Event} {off : Nat} (h8 : off % 8 = 0)
    (h : off < 0x1000) (he : s.events = .access (.read off 8) :: es) :
    step s = .next { s with
      events := es, resp := some (.read (targetValue s (target off)) false) } := by
  rw [step_access he, hostAccess_read (by omega), busRead_open h8 (.inl h),
    noteUninitRead_of_not_limb (target_ne_limb h8 h), targetValue_events, respond]

/-- A legal write of a register takes effect at once, idle or busy. -/
theorem step_writeRegister {s : State} {es : List Event} {off : Nat} {v : BitVec 64} (h8 : off % 8 = 0)
    (h : off < 0x1000) (he : s.events = .access (.write off 8 v) :: es) :
    step s =
      .next (respond (.write false) (writeTarget v { s with events := es } (target off))) := by
  rw [step_access he, hostAccess_write (by omega), busWrite_open h8 (.inl h)]

/-- R242: the number of each code. -/
theorem code_number_mem (c : ErrCode) :
    (c, c.toByte.toNat) ∈ [(.none, 0), (.illegalOp, 1), (.reservedField, 2), (.badImm, 3), (.range, 4),
      (.busy, 5), (.accessWhileBusy, 6), (.invariant, 7), (ErrCode.busAccess, 8)] := by
  cases c <;> decide

/-- Settles O5: the read returns the register that its offset names, and each register is known as a
number. -/
theorem registerReadsReturnTheirFields : Obligations.RegisterReadsReturnTheirFields := by
  intro s es off h8 h he
  refine ⟨_, step_readRegister h8 h he, ?_, ?_, ?_, ?_, ?_, ?_, ?_⟩
  · rintro rfl; rfl
  · rintro rfl; exact toNat_ctrlReg s
  · rintro rfl; exact toNat_statusReg s
  · rintro rfl; exact toNat_cmdReg s
  · rintro rfl; exact toNat_intEnReg s
  · rintro rfl; exact ⟨_, toNat_errInfoReg s, code_number_mem _⟩
  · intro h3; rw [target_reserved h3 h]; rfl

/-- Settles O6: the step is the write of STATUS, whose one update is `writeStatus_eq`. -/
theorem statusWriteClearsDoneAndError : Obligations.StatusWriteClearsDoneAndError := by
  intro s v es he
  have hstep : step s = .next (respond (.write false) (writeStatus v { s with events := es })) :=
    step_writeRegister (by decide) (by decide) he
  rw [writeStatus_eq] at hstep
  exact ⟨_, hstep, rfl, rfl, wordsKept_of_eq [] rfl rfl, rfl, rfl, rfl, rfl, rfl, rfl, rfl, rfl, rfl⟩

theorem irq_iff (s : State) :
    irq s = true ↔ (s.done = true ∧ s.intEn.doneIe = true) ∨ (s.err = true ∧ s.intEn.errIe = true) := by
  simp only [irq, Bool.or_eq_true, Bool.and_eq_true]

/-- Settles O7: the step is the write of INT_EN, and irq is read off its definition. -/
theorem interruptEnablesAndTheInterruptLine : Obligations.InterruptEnablesAndTheInterruptLine :=
  ⟨fun _ _ _ he => step_writeRegister (by decide) (by decide) he, irq_iff⟩

end Sys2Proof.Machine
end

section
/-! Host accesses of the window: operand limbs, the offsets that ignore writes, illegal and locked-out
accesses, byte order (spec/20_memory.md R50 to R59). -/

namespace Sys2Proof.Machine

/-! ### The step that takes an access inside the window -/

theorem step_read {s : State} {es : List Event} {off size : Nat} (h : off < 0x2000)
    (he : s.events = .access (.read off size) :: es) :
    step s = .next (busRead off size { s with events := es }) := by
  rw [step_access he, hostAccess_read h]

theorem step_write {s : State} {es : List Event} {off size : Nat} {v : BitVec 64} (h : off < 0x2000)
    (he : s.events = .access (.write off size v) :: es) :
    step s = .next (busWrite off size v { s with events := es }) := by
  rw [step_access he, hostAccess_write h]

/-- R52, R58: a legal read of the idle block returns what its target holds. -/
theorem step_readIdle {s : State} {es : List Event} {off : Nat} (h8 : off % 8 = 0) (h : off < 0x2000)
    (hb : s.busy = false) (he : s.events = .access (.read off 8) :: es) :
    step s = .next (respond (.read (targetValue s (target off)) false)
      (noteUninitRead (target off) { s with events := es })) := by
  rw [step_read h he, busRead_open (s := { s with events := es }) h8 (.inr hb), targetValue_events]

/-- R52: a legal write of the idle block is the write of its target. -/
theorem step_writeIdle {s : State} {es : List Event} {off : Nat} {v : BitVec 64} (h8 : off % 8 = 0)
    (h : off < 0x2000) (hb : s.busy = false) (he : s.events = .access (.write off 8 v) :: es) :
    step s =
      .next (respond (.write false) (writeTarget v { s with events := es } (target off))) := by
  rw [step_write h he, busWrite_open (s := { s with events := es }) h8 (.inr hb)]

/-- Settles O15: no step is taken outside the window (`hostAccess_outside`). -/
theorem accessOutsideTheWindowStops : Obligations.AccessOutsideTheWindowStops := by
  intro s es a ha he
  rw [step_access he, hostAccess_outside ha]

/-! ### Accesses that raise an error event, and nothing else (R56, R59) -/

/-- Settles O13: size and offset are judged first, so `busRead_illegal` and `busWrite_illegal` say all. -/
theorem illegalAccessRaisesBusAccess : Obligations.IllegalAccessRaisesBusAccess := by
  intro s es off size v h hl
  refine ⟨fun he => ?_, fun he => ?_⟩
  · rw [step_read h he, busRead_illegal hl, accessInfo_read h]; rfl
  · rw [step_write h he, busWrite_illegal hl, accessInfo_write h]; rfl

/-- Settles O14: BUSY locks the offset out (`busRead_locked`, `busWrite_locked`), with the response of log
entry 9. -/
theorem busyLocksTheOperandWords : Obligations.BusyLocksTheOperandWords := by
  intro s es off v hb h8 ho h
  refine ⟨fun he => ?_, fun he => ?_⟩
  · rw [step_read h he, busRead_locked (s := { s with events := es }) h8 ho hb, accessInfo_read h]
    rfl
  · rw [step_write h he, busWrite_locked (s := { s with events := es }) h8 ho hb, accessInfo_write h]
    rfl

/-! ### Offsets that ignore writes (R52, R53) -/

/-- Settles O8: each of these offsets names a target that a write leaves alone. -/
theorem readOnlyAndReservedWritesAreIgnored : Obligations.ReadOnlyAndReservedWritesAreIgnored := by
  intro s v es off h8 hoff he
  rw [step_writeRegister h8 (by omega) he]
  have hcases : off = 0x000 ∨ off = 0x028 ∨ (0x030 ≤ off ∧ off < 0x1000) := by omega
  rcases hcases with rfl | rfl | ⟨h3, h⟩
  · rfl
  · rfl
  · rw [target_reserved h3 h]; rfl

/-- Settles O11: the offset names a padding target, which reads 0 and which a write leaves alone. -/
theorem paddingLimbsReadZeroAndIgnoreWrites : Obligations.PaddingLimbsReadZeroAndIgnoreWrites := by
  intro s v es k j hb hj
  have hk := k.isLt
  have hoff : 0x1000 + 0x40 * k.val + 8 * j < 0x2000 := by omega
  have h8 : (0x1000 + 0x40 * k.val + 8 * j) % 8 = 0 := by omega
  have htarget := target_padding k (j := j) (by omega) (by omega)
  refine ⟨fun he => ?_, fun he => ?_⟩
  · rw [step_readIdle h8 hoff hb he, htarget]; rfl
  · rw [step_writeIdle h8 hoff hb he, htarget]; rfl

/-! ### Limbs (R52, R24) -/

theorem limbOffset_lt (k : WordIdx) (j : LimbIdx) : 0x1000 + 0x40 * k.val + 8 * j.val < 0x2000 := by
  omega

theorem limbOffset_mod (k : WordIdx) (j : LimbIdx) : (0x1000 + 0x40 * k.val + 8 * j.val) % 8 = 0 := by
  omega

/-- R52: on an idle block a legal write of a limb is `writeLimb`. -/
theorem step_writeLimb {s : State} {x : BitVec 64} {es : List Event} {k : WordIdx} {j : LimbIdx}
    (hb : s.busy = false)
    (he : s.events = .access (.write (0x1000 + 0x40 * k.val + 8 * j.val) 8 x) :: es) :
    step s = .next (respond (.write false) (writeLimb k j x { s with events := es })) := by
  rw [step_writeIdle (limbOffset_mod k j) (limbOffset_lt k j) hb he, target_limb, writeTarget]

/-- The frame of a Host's write. -/
theorem writeLimb_wordsKept (k : WordIdx) (j : LimbIdx) (x : Limb) (s : State) :
    WordsKept [k] s (writeLimb k j x s) := fun k' hk' => by
  have h : k ≠ k' := fun e => hk' (by simp [e])
  exact ⟨by rw [readWord_writeLimb, if_neg h],
    fun j' => by rw [limbWritten_writeLimb, if_neg fun e => h e.1]⟩

/-- R21, R57: the limbs of the written word. -/
theorem limb_writeLimb (k : WordIdx) (j j' : LimbIdx) (x : Limb) (s : State) :
    limb (readWord k (writeLimb k j x s)) j' = if j' = j then x else limb (readWord k s) j' := by
  rw [readWord_writeLimb, if_pos rfl, limb_setLimb]

/-- Settles O9: the step is `writeLimb`, whose limbs, flags and frame are known. -/
theorem limbWriteStoresOneLimb : Obligations.LimbWriteStoresOneLimb := by
  intro s x es k j hb he
  refine ⟨_, step_writeLimb hb he, rfl, rfl, ?_, ?_, fun j' hj' => ⟨?_, ?_⟩,
    writeLimb_wordsKept k j x { s with events := es }, ⟨rfl, rfl⟩,
    rfl, rfl, rfl, rfl, rfl, rfl, rfl, rfl, rfl⟩
  · exact (limb_writeLimb k j j x _).trans (if_pos rfl)
  · exact (limbWritten_writeLimb k k j j x _).trans (if_pos ⟨rfl, rfl⟩)
  · exact (limb_writeLimb k j j' x _).trans (if_neg hj')
  · exact (limbWritten_writeLimb k k j j' x _).trans (if_neg fun e => hj' e.2.symm)

/-- R24: what a read of a limb records. -/
theorem noteUninitRead_limb (k : WordIdx) (j : LimbIdx) (s : State) :
    noteUninitRead (.limb k j) s = { s with
      undef := if limbWritten k j s then s.undef else (s.undef <|> some (.uninitRead k j)) } := by
  simp only [noteUninitRead]
  split <;> rfl

/-- R52, R58: on an idle block a legal read of a limb returns it, and records an unwritten one. -/
theorem step_readLimb {s : State} {es : List Event} {k : WordIdx} {j : LimbIdx} (hb : s.busy = false)
    (he : s.events = .access (.read (0x1000 + 0x40 * k.val + 8 * j.val) 8) :: es) :
    step s = .next { s with
      events := es
      resp := some (.read (limb (readWord k s) j) false)
      undef := if limbWritten k j s then s.undef else (s.undef <|> some (.uninitRead k j)) } := by
  rw [step_readIdle (limbOffset_mod k j) (limbOffset_lt k j) hb he, target_limb, noteUninitRead_limb]
  rfl

/-- Settles O10: the step is `step_readLimb`, and a run of the model stops exactly where it records the
limb. -/
theorem limbReadReturnsTheStoredLimb : Obligations.LimbReadReturnsTheStoredLimb := by
  intro s es k j hb he
  have hstep := step_readLimb hb he
  refine ⟨hstep, fun hu => ⟨fun hw => ?_, fun hw => ?_⟩⟩
  · rw [modelStep_of_defined hstep (by simp only [hw, if_true, hu]), hstep]
  · exact modelStep_of_modelFault hstep (by simp [hw, hu])

/-! ### Byte order (R54) -/

theorem toNat_limb (w : Word) (j : LimbIdx) :
    (limb w j).toNat = w.toNat / 2 ^ (64 * j.val) % 2 ^ 64 := by
  rw [limb, BitVec.extractLsb'_toNat, Nat.shiftRight_eq_div_pow]

/-- What a Host would read does not depend on the events to come. -/
theorem peek_events (s : State) (es : List Event) (off : Nat) :
    peek off { s with events := es } = peek off s := by
  simp only [peek, targetValue_events]

/-- R58, R59: a legal read is answered with `peek`, locked out or not. -/
theorem busRead_resp {off : Nat} (h8 : off % 8 = 0) (s : State) :
    (busRead off 8 s).resp = some (.read (peek off s) false) := by
  have hl : legalAccess off 8 = true := legalAccess_iff.2 ⟨rfl, h8⟩
  simp only [busRead, peek, hl, Bool.not_true, Bool.false_eq_true, if_false]
  split <;> rfl

/-- Settles O12: limbs as numbers, the response as `peek`, and the bytes inside and outside the window. -/
theorem bytesAreLittleEndian : Obligations.BytesAreLittleEndian := by
  refine ⟨toNat_limb, fun s es off h8 h he => ?_, fun s off b h8 h hb => windowByte_inside h8 h hb s,
    fun s a h => windowByte_outside h s⟩
  exact ⟨_, step_read h he, by rw [busRead_resp h8, peek_events]⟩

end Sys2Proof.Machine
end

section
/-! A busy block hides its operand words: an access is locked out, or it is one of the registers
(spec/20_memory.md R59, R62). -/

namespace Sys2Proof.Machine

/-! ### Updates of the registers keep two states' registers equal -/

theorem busy_of_sameRegisters {s s' : State} (h : SameRegisters s s') : s'.busy = s.busy := by
  obtain ⟨-, -, -, -, -, hbusy, -⟩ := h
  exact hbusy

theorem events_of_sameRegisters {s s' : State} (h : SameRegisters s s') : s'.events = s.events := by
  obtain ⟨-, -, -, -, -, -, -, -, hevents, -⟩ := h
  exact hevents

theorem sameRegisters_withEvents {s s' : State} (h : SameRegisters s s') (es : List Event) :
    SameRegisters { s with events := es } { s' with events := es } := by
  obtain ⟨herror, hdbg, hdone, hlast, hie, hbusy, hpend, hpdbg, -, hresp⟩ := h
  exact ⟨herror, hdbg, hdone, hlast, hie, hbusy, hpend, hpdbg, rfl, hresp⟩

theorem sameRegisters_respond {s s' : State} (h : SameRegisters s s') (r : BusResp) :
    SameRegisters (respond r s) (respond r s') := by
  obtain ⟨herror, hdbg, hdone, hlast, hie, hbusy, hpend, hpdbg, hevents, -⟩ := h
  exact ⟨herror, hdbg, hdone, hlast, hie, hbusy, hpend, hpdbg, hevents, rfl⟩

/-- R241: whether ERRINFO is captured depends on ERR alone. -/
theorem sameRegisters_raiseError {s s' : State} (h : SameRegisters s s') (c : ErrCode)
    (info : BitVec 32) : SameRegisters (raiseError c info s) (raiseError c info s') := by
  obtain ⟨⟨herr, hinfo⟩, hcontrol⟩ := h
  exact ⟨⟨rfl, by simp only [raiseError_errInfo, herr, hinfo]⟩, hcontrol⟩

theorem sameRegisters_writeStatus {s s' : State} (h : SameRegisters s s') (v : BitVec 64) :
    SameRegisters (writeStatus v s) (writeStatus v s') := by
  obtain ⟨⟨herr, hinfo⟩, hdbg, hdone, hcontrol⟩ := h
  rw [writeStatus_eq, writeStatus_eq, herr, hinfo, hdone]
  exact ⟨⟨rfl, rfl⟩, hdbg, rfl, hcontrol⟩

theorem sameRegisters_writeCtrl {s s' : State} (h : SameRegisters s s') (v : BitVec 64) :
    SameRegisters (writeCtrl v s) (writeCtrl v s') := by
  obtain ⟨herror, -, hdone, hlast, hie, hbusy, hpend, hpdbg, hevents, hresp⟩ := h
  simp only [writeCtrl]
  split
  · exact ⟨⟨rfl, rfl⟩, rfl, rfl, rfl, rfl, rfl, rfl, rfl, hevents, hresp⟩
  · exact ⟨herror, rfl, hdone, hlast, hie, hbusy, hpend, hpdbg, hevents, hresp⟩

theorem sameRegisters_writeIntEn {s s' : State} (h : SameRegisters s s') (v : BitVec 64) :
    SameRegisters (writeIntEn v s) (writeIntEn v s') := by
  obtain ⟨herror, hdbg, hdone, hlast, -, hbusy, hpend, hpdbg, hevents, hresp⟩ := h
  exact ⟨herror, hdbg, hdone, hlast, rfl, hbusy, hpend, hpdbg, hevents, hresp⟩

/-- R244: a busy block takes no command, whatever the value is. -/
theorem submit_busy {s : State} (hb : s.busy = true) (v : BitVec 64) :
    submit v s = raiseError .busy (cmdWord v) s := by
  simp only [submit, hb, if_true]

/-! ### Registers as targets (R51) -/

/-- What a register reads as depends on the registers alone. -/
theorem targetValue_of_sameRegisters {s s' : State} (h : SameRegisters s s') {tg : Target}
    (htg : tg.isOperand = false) : targetValue s' tg = targetValue s tg := by
  obtain ⟨⟨herr, hinfo⟩, hdbg, hdone, hlast, hie, hbusy, -⟩ := h
  cases tg with
  | ctrl => simp only [targetValue, ctrlReg, hdbg]
  | status => simp only [targetValue, statusReg, hbusy, hdone, herr]
  | cmd => simp only [targetValue, cmdReg, hlast]
  | intEn => simp only [targetValue, intEnReg, hie]
  | errInfo => simp only [targetValue, errInfoReg, hinfo]
  | id | reserved => rfl
  | limb | padding => cases htg

theorem noteUninitRead_of_register {tg : Target} (htg : tg.isOperand = false) (s : State) :
    noteUninitRead tg s = s :=
  noteUninitRead_of_not_limb (fun k j e => by rw [e] at htg; cases htg) s

/-- A write of a register on a busy block: what it does to the registers depends on them alone. -/
theorem sameRegisters_writeTarget {s s' : State} (h : SameRegisters s s') (hb : s.busy = true)
    (v : BitVec 64) {tg : Target} (htg : tg.isOperand = false) :
    SameRegisters (writeTarget v s tg) (writeTarget v s' tg) := by
  cases tg with
  | ctrl => exact sameRegisters_writeCtrl h v
  | status => exact sameRegisters_writeStatus h v
  | cmd =>
    rw [writeTarget, writeTarget, submit_busy hb, submit_busy ((busy_of_sameRegisters h).trans hb)]
    exact sameRegisters_raiseError h _ _
  | intEn => exact sameRegisters_writeIntEn h v
  | id | errInfo | reserved => exact h
  | limb | padding => cases htg

/-- A write of a register keeps the operand words. -/
theorem writeTarget_words (v : BitVec 64) (s : State) {tg : Target} (htg : tg.isOperand = false) :
    (writeTarget v s tg).words = s.words := by
  cases tg with
  | ctrl => simp only [writeTarget, writeCtrl]; split <;> rfl
  | status => rw [writeTarget, writeStatus_eq]
  | cmd =>
    rw [writeTarget]
    rcases submit_cases v s with ⟨c, -, he⟩ | ⟨i, -, -, he⟩ <;> rw [he] <;> rfl
  | id | intEn | errInfo | reserved => rfl
  | limb | padding => cases htg

/-! ### One access of a busy block -/

theorem sameRegisters_busRead {s s' : State} (h : SameRegisters s s') (hb : s.busy = true)
    (off size : Nat) : SameRegisters (busRead off size s) (busRead off size s') := by
  simp only [busRead, busy_of_sameRegisters h, hb, Bool.true_and]
  split
  · exact sameRegisters_respond (sameRegisters_raiseError h _ _) _
  · split
    · exact sameRegisters_respond (sameRegisters_raiseError h _ _) _
    · next hreg =>
      have htg : (target off).isOperand = false := by simpa using hreg
      rw [targetValue_of_sameRegisters h htg, noteUninitRead_of_register htg,
        noteUninitRead_of_register htg]
      exact sameRegisters_respond h _

theorem sameRegisters_busWrite {s s' : State} (h : SameRegisters s s') (hb : s.busy = true)
    (off size : Nat) (v : BitVec 64) : SameRegisters (busWrite off size v s) (busWrite off size v s') := by
  simp only [busWrite, busy_of_sameRegisters h, hb, Bool.true_and]
  split
  · exact sameRegisters_respond (sameRegisters_raiseError h _ _) _
  · split
    · exact sameRegisters_respond (sameRegisters_raiseError h _ _) _
    · next hreg =>
      exact sameRegisters_respond (sameRegisters_writeTarget h hb v (by simpa using hreg)) _

theorem busRead_words (off size : Nat) (s : State) : (busRead off size s).words = s.words := by
  rw [busRead_eq]

/-- R59: a busy block drops every write of an operand word. -/
theorem busWrite_words {s : State} (hb : s.busy = true) (off size : Nat) (v : BitVec 64) :
    (busWrite off size v s).words = s.words := by
  simp only [busWrite, hb, Bool.true_and]
  split
  · rfl
  · split
    · rfl
    · next hreg => exact writeTarget_words v s (by simpa using hreg)

/-- One access, of two busy states with the same registers. -/
theorem hostAccess_busy {s s' t t' : State} {a : Access} (h : SameRegisters s s') (hb : s.busy = true)
    (ht : hostAccess a s = .next t) (ht' : hostAccess a s' = .next t') :
    SameRegisters t t' ∧ t.words = s.words ∧ t'.words = s'.words := by
  simp only [hostAccess] at ht ht'
  split at ht
  · next hw =>
    rw [if_pos hw] at ht'
    cases a with
    | read off size =>
      cases ht; cases ht'
      exact ⟨sameRegisters_busRead h hb off size, busRead_words off size s, busRead_words off size s'⟩
    | write off size v =>
      cases ht; cases ht'
      exact ⟨sameRegisters_busWrite h hb off size v, busWrite_words hb off size v,
        busWrite_words ((busy_of_sameRegisters h).trans hb) off size v⟩
  · cases ht

/-- Settles O57: both steps take the same access on a busy block (`hostAccess_busy`). -/
theorem busyBlockHidesTheOperandWords : Obligations.BusyBlockHidesTheOperandWords := by
  intro s s' t t' a es hb he hr ht ht'
  rw [step_access he] at ht
  rw [step_access ((events_of_sameRegisters hr).trans he)] at ht'
  exact hostAccess_busy (s := { s with events := es }) (s' := { s' with events := es })
    (sameRegisters_withEvents hr es) hb ht ht'

end Sys2Proof.Machine
end

section
/-! What a command leaves unchanged, in the operand words and in the bytes of the window
(spec/40_field_arith.md R101, spec/20_memory.md R60, spec/60_exceptions.md R250). -/

namespace Sys2Proof.Machine

/-! ### Bytes of the window outside a frame (R51, R52) -/

/-- R52: an offset of the operand region that holds a limb lies among the bytes of its word. -/
theorem inWordBytes_offsetWord {o : Nat} (h : 0x1000 ≤ o - o % 8) (h' : o < 0x2000)
    (hj : offsetLimb (o - o % 8) < 6) : InWordBytes (offsetWord (o - o % 8)) o := by
  simp only [InWordBytes, offsetWord, offsetLimb, Fin.ofNat] at hj ⊢
  omega

/-- With the control registers and the words outside `ds` kept, a byte changes only inside a word of `ds`,
STATUS or ERRINFO. -/
theorem storedByte_of_kept {ds : List WordIdx} {s t : State} (hw : WordsKept ds s t)
    (hc : ControlKept s t) {o : Nat} (ho : o < 0x2000) (hds : ∀ k ∈ ds, ¬ InWordBytes k o)
    (he : ¬ InErrorBytes o) : storedByte o t = storedByte o s := by
  obtain ⟨hdbg, -, hlast, hie, -⟩ := hc
  rw [storedByte, storedByte]
  congr 1
  have hcases : o - o % 8 = 0x000 ∨ o - o % 8 = 0x008 ∨ o - o % 8 = 0x018 ∨ o - o % 8 = 0x020 ∨
      (0x030 ≤ o - o % 8 ∧ o - o % 8 < 0x1000) ∨ 0x1000 ≤ o - o % 8 := by
    simp only [InErrorBytes] at he
    omega
  rcases hcases with h | h | h | h | ⟨h, h'⟩ | h
  · rw [h]; rfl
  · rw [h]; exact congrArg (bitAt 0) hdbg
  · rw [h]; exact congrArg (BitVec.setWidth 64) hlast
  · rw [h]; exact congrArg (fun e : IntEn => bitAt 0 e.doneIe ||| bitAt 1 e.errIe) hie
  · rw [target_reserved h h']; rfl
  · rw [target_operand h]
    split
    · next hj =>
      have hk : offsetWord (o - o % 8) ∉ ds := fun hm => hds _ hm (inWordBytes_offsetWord h ho hj)
      simp only [targetValue, (hw _ hk).1]
    · rfl

/-! ### A failed debug check (R250) -/

theorem invariantError_wordsKept (ds srcs : List WordIdx) (k : WordIdx) (s : State) :
    WordsKept ds s (invariantError k (noteUninit srcs s)) :=
  noteUninit_wordsKept ds srcs s

/-! ### The words and registers after a command -/

/-- R101, R250: a modular command fails the check of a source word, or it keeps the registers and every
word but its destination. -/
theorem exec_modular_frame {i : Instr} {m : Modulus} {s t : State} (hm : operandModulus i = some m)
    (h : exec i s = .next t) :
    (∃ k ∈ sources i, s.pdbg = true ∧ t = invariantError k (noteUninit (sources i) s)) ∨
    (ErrorKept s t ∧ WordsKept (dests i) s t) := by
  obtain ⟨rd, hd, he⟩ := exec_modular s (wf_of_exec_next h) hm
  rw [he, runModular] at h
  cases h
  rw [hd]
  have herror := noteUninit_errorKept (sources i) s
  have hwords := noteUninit_wordsKept [rd] (sources i) s
  rcases runModularWith_cases none i.opcode m (sources i) rd (resultWord i s) s with
    ⟨-, -, h1⟩ | ⟨k, hp, hf | ⟨-, hx⟩, h1⟩ | ⟨k, -, -, h1⟩
  · rw [h1]
    exact .inr ⟨herror, wordsKept_trans hwords (writeWord_wordsKept rd _ _)⟩
  · exact .inl ⟨k, List.mem_of_find?_eq_some hf, hp, h1⟩
  · cases hx
  · rw [h1]
    exact .inr ⟨herror, wordsKept_trans hwords
      (writeFree_wordsKept rd (noteUndefined (.operandOutOfRange i.opcode k) _))⟩

/-- A PSEL that answers a next state passed the check of R80. -/
theorem exec_psel {rd rs1 rs2 : WordIdx} {s t : State} (h : exec (.psel rd rs1 rs2) s = .next t) :
    rd.val ≤ 61 ∧ t = runPsel rd rs1 rs2 s := by
  have hwf : (tableFits rs1 && resultFits rd) = true := wf_of_exec_next h
  simp only [exec, execPsel, hwf, if_true] at h
  cases h
  rw [Bool.and_eq_true] at hwf
  exact ⟨of_decide_eq_true hwf.2, rfl⟩

/-- R101, R220, R250: PSEL fails the check of its index word, or it keeps the registers and every word but
its three destinations. -/
theorem exec_psel_frame {rd rs1 rs2 : WordIdx} {s t : State}
    (h : exec (.psel rd rs1 rs2) s = .next t) :
    (s.pdbg = true ∧ t = invariantError rs2 (noteUninit (sources (.psel rd rs1 rs2)) s)) ∨
    (ErrorKept s t ∧ WordsKept (dests (.psel rd rs1 rs2)) s t) := by
  obtain ⟨-, rfl⟩ := exec_psel h
  rcases runPsel_cases rd rs1 rs2 s with ⟨hp, -, h1⟩ | ⟨-, h1⟩
  · exact .inl ⟨hp, h1⟩
  · rw [h1]
    exact .inr ⟨noteUninit_errorKept _ s,
      wordsKept_trans (noteUninit_wordsKept _ _ s) (writePoint_wordsKept rd _ _ _ _)⟩

/-- Settles O49: a failed check keeps every word and names a source; else only the destination changes. Bytes
follow from words and registers (`storedByte_of_kept`). -/
theorem modularCommandsChangeOnlyTheirDestination :
    Obligations.ModularCommandsChangeOnlyTheirDestination := by
  intro i m s t hm h
  have hc := exec_controlKept h
  rcases exec_modular_frame hm h with ⟨k, hk, hp, rfl⟩ | ⟨he, hw⟩
  · obtain ⟨herr, hinfo⟩ := invariantError_errInfo (sources i) k s
    have hw := fun ds => invariantError_wordsKept ds (sources i) k s
    exact ⟨hw _, hc, .inr ⟨hp, hw [], herr, k, hk, hinfo⟩, fun o => storedByte_of_kept (hw _) hc⟩
  · exact ⟨hw, hc, .inl he, fun o => storedByte_of_kept hw hc⟩

/-- Settles O50: as for the modular commands, with the index word as the only one that can fail a check. -/
theorem pselChangesOnlyItsThreeDestinations : Obligations.PselChangesOnlyItsThreeDestinations := by
  intro rd rs1 rs2 s t h
  have hc := exec_controlKept h
  rcases exec_psel_frame h with ⟨hp, rfl⟩ | ⟨he, hw⟩
  · obtain ⟨herr, hinfo⟩ := invariantError_errInfo (sources (.psel rd rs1 rs2)) rs2 s
    have hw := fun ds => invariantError_wordsKept ds (sources (.psel rd rs1 rs2)) rs2 s
    exact ⟨hw _, hc, .inr ⟨hp, hw [], herr, hinfo⟩, fun o => storedByte_of_kept (hw _) hc⟩
  · exact ⟨hw, hc, .inl he, fun o => storedByte_of_kept hw hc⟩

end Sys2Proof.Machine
end

section
/-! What a command writes depends on its source words alone (spec/20_memory.md R60, spec/40_field_arith.md
R102, spec/45_point_select.md R221). -/

namespace Sys2Proof.Machine

/-! ### Functions of the source words -/

theorem firstOutOfRange_congr {m : Modulus} {srcs : List WordIdx} {s s' : State}
    (h : ∀ k ∈ srcs, readWord k s = readWord k s') :
    firstOutOfRange m srcs s = firstOutOfRange m srcs s' :=
  List.find?_congr fun k hk => by simp only [inRange, h k hk]

theorem resultWord_congr {i : Instr} {s s' : State}
    (h : ∀ k ∈ sources i, readWord k s = readWord k s') : resultWord i s = resultWord i s' := by
  cases i with
  | psel => rfl
  | _ =>
    simp only [sources, List.mem_cons, List.not_mem_nil, or_false, forall_eq_or_imp, forall_eq] at h
    simp only [resultWord, operand, h]

/-- R73, R219: the table is the 48 words from RS1 on. -/
theorem wordAfter_mem_tableWords (rs1 : WordIdx) {n : Nat} (h : n < 48) :
    wordAfter rs1 n ∈ tableWords rs1 :=
  List.mem_map_of_mem (List.mem_range.2 h)

theorem pselCoord_congr {rd rs1 rs2 : WordIdx} {s s' : State}
    (h : ∀ k ∈ sources (.psel rd rs1 rs2), readWord k s = readWord k s') {c : Nat} (hc : c < 3) :
    pselCoord rs1 rs2 c s = pselCoord rs1 rs2 c s' := by
  rw [pselCoord_eq, pselCoord_eq, h rs2 List.mem_cons_self]
  split
  · exact h _ (List.mem_cons_of_mem _ (wordAfter_mem_tableWords rs1 (by omega)))
  · rfl

/-! ### Two runs of one command -/

theorem pdbg_of_sameRegisters {s s' : State} (h : SameRegisters s s') : s'.pdbg = s.pdbg := by
  obtain ⟨-, -, -, -, -, -, -, hpdbg, -⟩ := h
  exact hpdbg

/-- Recording unwritten sources, which may differ, leaves the registers equal. -/
theorem sameRegisters_noteUninit {s s' : State} (h : SameRegisters s s') (srcs : List WordIdx) :
    SameRegisters (noteUninit srcs s) (noteUninit srcs s') :=
  sameRegisters_trans
    (sameRegisters_symm ⟨noteUninit_errorKept srcs s, noteUninit_controlKept srcs s⟩)
    (sameRegisters_trans h ⟨noteUninit_errorKept srcs s', noteUninit_controlKept srcs s'⟩)

/-- R250: with debug checks an out-of-range source is reported. -/
theorem runModular_checked {op : Opcode} {m : Modulus} {srcs : List WordIdx} {rd k : WordIdx} {v : Word}
    {s : State} (hp : s.pdbg = true) (hf : firstOutOfRange m srcs s = some k) :
    runModular op m srcs rd v s = invariantError k (noteUninit srcs s) := by
  simp only [runModular, runModularWith, hf, hp, if_true]

/-- R60, R102: two runs of a modular command fail the check of the same source, or write the same value. -/
theorem exec_modular_of_sources {i : Instr} {m : Modulus} {s s' t t' : State}
    (hm : operandModulus i = some m) (hr : SameRegisters s s')
    (hdef : s.pdbg = true ∨ OperandsOk i s) (hs : ∀ k ∈ sources i, readWord k s = readWord k s')
    (h : exec i s = .next t) (h' : exec i s' = .next t') :
    SameRegisters t t' ∧
      ((t.words = s.words ∧ t'.words = s'.words) ∨ ∀ k ∈ dests i, readWord k t = readWord k t') := by
  have hn := sameRegisters_noteUninit hr (sources i)
  obtain ⟨rd, hd, he⟩ := exec_modular s (wf_of_exec_next h) hm
  obtain ⟨rd', hd', he'⟩ := exec_modular s' (wf_of_exec_next h) hm
  obtain rfl : rd = rd' := List.singleton_inj.1 (hd.symm.trans hd')
  rw [he] at h
  rw [he'] at h'
  cases h
  cases h'
  have hf' := firstOutOfRange_congr (m := m) hs
  cases hf : firstOutOfRange m (sources i) s with
  | none =>
    rw [hf] at hf'
    rw [runModular_inRange (firstOutOfRange_eq_none.1 hf),
      runModular_inRange (firstOutOfRange_eq_none.1 hf'.symm), resultWord_congr hs, hd]
    refine ⟨hn, .inr fun k hk => ?_⟩
    obtain rfl := List.mem_singleton.1 hk
    rw [readWord_writeWord_self, readWord_writeWord_self]
  | some k =>
    rw [hf] at hf'
    have hp : s.pdbg = true := hdef.resolve_right fun hok => by
      simp only [OperandsOk, hm] at hok
      rw [firstOutOfRange_eq_none.2 hok] at hf
      cases hf
    rw [runModular_checked hp hf,
      runModular_checked ((pdbg_of_sameRegisters hr).trans hp) hf'.symm]
    exact ⟨sameRegisters_raiseError hn _ _, .inl ⟨noteUninit_words _ s, noteUninit_words _ s'⟩⟩

/-- R60, R221: two runs of PSEL fail the check of the index word, or write the same point. -/
theorem exec_psel_of_sources {rd rs1 rs2 : WordIdx} {s s' t t' : State} (hr : SameRegisters s s')
    (hs : ∀ k ∈ sources (.psel rd rs1 rs2), readWord k s = readWord k s')
    (h : exec (.psel rd rs1 rs2) s = .next t) (h' : exec (.psel rd rs1 rs2) s' = .next t') :
    SameRegisters t t' ∧ ((t.words = s.words ∧ t'.words = s'.words) ∨
      ∀ k ∈ dests (.psel rd rs1 rs2), readWord k t = readWord k t') := by
  have hn := sameRegisters_noteUninit hr (sources (.psel rd rs1 rs2))
  obtain ⟨hrd, rfl⟩ := exec_psel h
  obtain ⟨-, rfl⟩ := exec_psel h'
  have hindex : indexOk rs2 s' = indexOk rs2 s := by
    simp only [indexOk, hs rs2 List.mem_cons_self]
  simp only [runPsel, pdbg_of_sameRegisters hr, hindex]
  split
  · exact ⟨sameRegisters_raiseError hn _ _, .inl ⟨noteUninit_words _ s, noteUninit_words _ s'⟩⟩
  · rw [pselCoord_congr hs (c := 0) (by omega), pselCoord_congr hs (c := 1) (by omega),
      pselCoord_congr hs (c := 2) (by omega)]
    refine ⟨hn, .inr fun k hk => ?_⟩
    obtain ⟨hx, hy, hz, -⟩ := readWord_writePoint hrd (pselCoord rs1 rs2 0 s') (pselCoord rs1 rs2 1 s')
      (pselCoord rs1 rs2 2 s') (noteUninit (sources (.psel rd rs1 rs2)) s)
    obtain ⟨hx', hy', hz', -⟩ := readWord_writePoint hrd (pselCoord rs1 rs2 0 s') (pselCoord rs1 rs2 1 s')
      (pselCoord rs1 rs2 2 s') (noteUninit (sources (.psel rd rs1 rs2)) s')
    simp only [dests, List.mem_cons, List.not_mem_nil, or_false] at hk
    rcases hk with rfl | rfl | rfl
    · rw [hx, hx']
    · rw [hy, hy']
    · rw [hz, hz']

/-- Settles O55: range checks and value of a modular command, and index check and coordinates of PSEL, are
functions of the source words. -/
theorem resultsDependOnlyOnTheSources : Obligations.ResultsDependOnlyOnTheSources := by
  intro i s s' t t' hr hdef hs h h'
  cases hm : operandModulus i with
  | some m =>
    have hdef' : s.pdbg = true ∨ OperandsOk i s :=
      hdef.imp_right fun hd => hd.resolve_right (by simp [hm])
    exact exec_modular_of_sources hm hr hdef' hs h h'
  | none =>
    cases i with
    | psel rd rs1 rs2 => exact exec_psel_of_sources hr hs h h'
    | _ => cases hm

end Sys2Proof.Machine
end

section
/-! The encoder and the decoder are inverse to each other, and the decoder's checks over numbers
(spec/30_encoding.md R74 to R84). -/

namespace Sys2Proof.Laws

open Sys2Proof.Machine

/-! ### The opcode map read backwards (R74) -/

/-- The command that the fields of c select, before any check. -/
def assembled (c : BitVec 32) : Option Instr :=
  assemble (opField c) (rdField c) (rs1Field c) (rs2Field c) (immField c)

/-- R75: the OP values whose commands use two sources and no count. -/
def twoSourceOps : List Nat := [0x01, 0x02, 0x08, 0x10, 0x20]

/-- R75: the OP values whose commands use one source. -/
def oneSourceOps : List Nat := [0x03, 0x04, 0x05, 0x06, 0x09, 0x0B, 0x11, 0x12, 0x14]

/-- R79: the OP values whose commands use a squaring count. -/
def countedOps : List Nat := [0x0A, 0x13]

/-- R74, R76: OP is in the opcode map. -/
def LegalOp (op : Nat) : Prop := op ∈ twoSourceOps ∨ op ∈ oneSourceOps ∨ op ∈ countedOps

/-- R75: the fields of the word c that a command with this OP does not use are zero. -/
def UnusedZero (op c : Nat) : Prop :=
  (op ∈ twoSourceOps → c / 2 ^ 24 = 0) ∧ (op ∈ oneSourceOps → c / 2 ^ 18 = 0)

theorem legalOp_opcode (i : Instr) : LegalOp i.opcode.toNat := by
  cases i with
  | fadd | fsub | fmul | smul | psel => exact .inl (by simp only [Instr.opcode]; decide)
  | fsqrmul | ssqrmul => exact .inr (.inr (by simp only [Instr.opcode]; decide))
  | _ => exact .inr (.inl (by simp only [Instr.opcode]; decide))

/-- R74: OP selects a command with that opcode, whose encoding keeps the fields that it uses. -/
theorem assemble_eq_some {op : Opcode} {rd rs1 rs2 : WordIdx} {k : BitVec 8} {i : Instr}
    (h : assemble op rd rs1 rs2 k = some i) :
    i.opcode = op ∧
      encode i = enc op rd rs1 (if op.toNat ∈ oneSourceOps then 0 else rs2)
        (if op.toNat ∈ countedOps then k else 0#8) := by
  have hof : BitVec.ofNat 6 op.toNat = op := by rw [BitVec.ofNat_toNat, BitVec.setWidth_eq]
  unfold assemble at h
  split at h
  case h_17 => cases h
  all_goals
    rename_i hop
    rw [hop] at hof
    subst hof
    cases h
    exact ⟨rfl, rfl⟩

theorem assembled_of_legalOp {c : BitVec 32} (h : LegalOp (opField c).toNat) :
    ∃ i, assembled c = some i := by
  simp only [LegalOp, twoSourceOps, oneSourceOps, countedOps, List.mem_cons, List.not_mem_nil,
    or_false, or_assoc] at h
  rcases h with h | h | h | h | h | h | h | h | h | h | h | h | h | h | h | h <;>
    simp only [assembled, assemble, h, Option.some.injEq, exists_eq']

/-! ### The must-be-zero fields (R75, R78) -/

theorem and_zeroMask_eq_zero (c : BitVec 32) (i : Instr) :
    c &&& i.zeroMask = 0#32 ↔ UnusedZero i.opcode.toNat c.toNat := by
  cases i with
  | fsqrmul | ssqrmul =>
    simp [UnusedZero, twoSourceOps, oneSourceOps, Instr.zeroMask, Instr.opcode, Op.fsqrmul, Op.ssqrmul]
  | fadd | fsub | fmul | smul | psel =>
    simp only [Instr.zeroMask, and_imm_mask]
    simp [UnusedZero, twoSourceOps, oneSourceOps, Instr.opcode, Op.fadd, Op.fsub, Op.fmul, Op.smul, Op.psel]
  | _ =>
    simp only [Instr.zeroMask, and_rs2_imm_mask]
    simp [UnusedZero, twoSourceOps, oneSourceOps, Instr.opcode, Op.fneg, Op.fhalf, Op.fdbl, Op.ftpl,
      Op.fsqr, Op.finv, Op.ssqr, Op.stomont, Op.sinv]

/-- A word whose unused fields are zero is the encoding of the command that its fields select. -/
theorem encode_of_assembled {c : BitVec 32} {i : Instr} (h : assembled c = some i)
    (hz : c &&& i.zeroMask = 0#32) : encode i = c := by
  obtain ⟨hop, henc⟩ := assemble_eq_some h
  have hlegal := legalOp_opcode i
  rw [and_zeroMask_eq_zero] at hz
  rw [hop] at hlegal hz
  obtain ⟨htwo, hone⟩ := hz
  have hrs2 : (if (opField c).toNat ∈ oneSourceOps then 0 else rs2Field c) = rs2Field c := by
    split
    · have := hone ‹_›
      refine Fin.ext ?_
      rw [rs2Field, val_idxField, Fin.val_zero]
      omega
    · rfl
  have himm : (if (opField c).toNat ∈ countedOps then immField c else 0#8) = immField c := by
    split
    · rfl
    · have : c.toNat / 2 ^ 24 = 0 := by
        rcases hlegal with h2 | h1 | hk
        · exact htwo h2
        · have := hone h1
          omega
        · contradiction
      refine BitVec.eq_of_toNat_eq ?_
      rw [toNat_immField, this]
      rfl
  rw [henc, hrs2, himm, enc_fields]

/-! ### The branches of the decoder (R81) -/

theorem decode_of_assembled_none {v : BitVec 64} (h : assembled (cmdWord v) = none) :
    decode v = .error .illegalOp := by
  rw [assembled] at h
  simp only [decode, h]

theorem decode_of_reserved {v : BitVec 64} {i : Instr} (h : assembled (cmdWord v) = some i)
    (hz : ¬ (cmdHigh v = 0#32 ∧ cmdWord v &&& i.zeroMask = 0#32)) :
    decode v = .error .reservedField := by
  rw [assembled] at h
  simp only [decode, h]
  rw [if_pos (by simpa [or_iff_not_imp_left] using hz)]

theorem cmdValue_of_assembled {v : BitVec 64} {i : Instr} (h : assembled (cmdWord v) = some i)
    (hhigh : cmdHigh v = 0#32) (hz : cmdWord v &&& i.zeroMask = 0#32) : cmdValue i = v := by
  have hnum := congrArg BitVec.toNat hhigh
  rw [toNat_cmdHigh, BitVec.toNat_zero] at hnum
  apply BitVec.eq_of_toNat_eq
  rw [cmdValue, encode_of_assembled h hz, BitVec.toNat_setWidth, toNat_cmdWord]
  omega

/-- R81, R84: a value decodes to a command exactly when the command is well-formed and the value is its
encoding. -/
theorem decode_eq_ok_iff {v : BitVec 64} {i : Instr} :
    decode v = .ok i ↔ i.wf = true ∧ cmdValue i = v := by
  constructor
  · intro h
    refine ⟨wf_of_decode h, ?_⟩
    cases ha : assembled (cmdWord v) with
    | none => rw [decode_of_assembled_none ha] at h; cases h
    | some j =>
      by_cases hz : cmdHigh v = 0#32 ∧ cmdWord v &&& j.zeroMask = 0#32
      · obtain ⟨hhigh, hmask⟩ := hz
        have hj := cmdValue_of_assembled ha hhigh hmask
        rw [← hj, decode_cmdValue] at h
        split at h
        · cases h
        · cases h
          exact hj
      · rw [decode_of_reserved ha hz] at h; cases h
  · rintro ⟨hwf, rfl⟩
    rw [decode_cmdValue, (operandError_eq_none i).2 hwf]

/-- Settles O16, from the characterization of the values that decode. -/
theorem decodeOfEncodeIsTheCommand : Obligations.DecodeOfEncodeIsTheCommand :=
  fun _ hwf => decode_eq_ok_iff.2 ⟨hwf, rfl⟩

/-- Settles O17, from the characterization of the values that decode. -/
theorem everyDecodedValueIsItsEncoding : Obligations.EveryDecodedValueIsItsEncoding :=
  fun _ _ h => decode_eq_ok_iff.1 h

/-- Settles O20: each listed word is the encoding of the well-formed command beside it. -/
theorem listedEncodingsDecode : Obligations.ListedEncodingsDecode := by
  simp only [Obligations.ListedEncodingsDecode, decode_eq_ok_iff]
  decide

/-! ### The operand checks (R79, R80) -/

theorem operandError_cases (i : Instr) :
    operandError i = none ∨ operandError i = some .badImm ∨ operandError i = some .range := by
  cases i with
  | fsqrmul | ssqrmul | psel => simp only [operandError]; split <;> simp
  | _ => exact .inl rfl

theorem operandError_eq_badImm (i : Instr) :
    operandError i = some .badImm ↔ i.opcode.toNat ∈ countedOps ∧ immField (encode i) = 0#8 := by
  cases i with
  | fsqrmul | ssqrmul =>
    simp [operandError, countOk, encode, countedOps, Instr.opcode, Op.fsqrmul, Op.ssqrmul]
  | psel => simp [operandError, countedOps, Instr.opcode, Op.psel]
  | _ =>
    simp [operandError, countedOps, Instr.opcode, Op.fadd, Op.fsub, Op.fneg, Op.fhalf, Op.fdbl, Op.ftpl,
      Op.fmul, Op.fsqr, Op.finv, Op.smul, Op.ssqr, Op.stomont, Op.sinv]

theorem operandError_eq_range (i : Instr) :
    operandError i = some .range ↔
      i.opcode.toNat = 0x20 ∧ (16 < (rs1Field (encode i)).val ∨ 61 < (rdField (encode i)).val) := by
  cases i with
  | psel =>
    simp [operandError, tableFits, resultFits, encode, Instr.opcode, Op.psel, imp_iff_not_or]
  | _ =>
    simp [operandError, Instr.opcode, Op.fadd, Op.fsub, Op.fneg, Op.fhalf, Op.fdbl, Op.ftpl, Op.fmul,
      Op.fsqr, Op.fsqrmul, Op.finv, Op.smul, Op.ssqr, Op.stomont, Op.ssqrmul, Op.sinv]

/-- A term that fails its operand check has no meaning (R142, R183, R80). -/
theorem exec_of_operandError {i : Instr} {e : DecodeError} (h : operandError i = some e) (s : State) :
    exec i s = .refused .illFormed := by
  cases i with
  | fsqrmul | ssqrmul | psel =>
    simp only [operandError] at h
    split at h
    · cases h
    · exact if_neg ‹_›
  | _ => cases h

/-- A term that fails its operand check is rejected when submitted, and no meaning runs it. -/
theorem rejected_of_operandError {i : Instr} {e : DecodeError} (h : operandError i = some e) (s : State) :
    decode (cmdValue i) = .error e ∧ exec i s = .refused .illFormed :=
  ⟨by rw [decode_cmdValue, h], exec_of_operandError h s⟩

/-- Settles O19: each of these terms fails its operand check. -/
theorem illFormedCommandsNeverExecute : Obligations.IllFormedCommandsNeverExecute := by
  intro s rd rs1 rs2
  refine ⟨rejected_of_operandError rfl s, rejected_of_operandError rfl s, fun hrange =>
    rejected_of_operandError ((operandError_eq_range _).2 ⟨rfl, ?_⟩) s⟩
  simpa [encode] using hrange

/-! ### The checks over the value as a number (R81) -/

section
variable (v : BitVec 64)

/-- R71: the OP of the value, as a number. -/
def opOf : Nat := v.toNat % 2 ^ 6

/-- R78: the value has no nonzero bit that must be zero. -/
def ReservedZero : Prop := v.toNat / 2 ^ 32 = 0 ∧ UnusedZero (opOf v) (v.toNat % 2 ^ 32)

/-- R79: the command uses a count, and the count is 0. -/
def CountBad : Prop := opOf v ∈ countedOps ∧ v.toNat % 2 ^ 32 / 2 ^ 24 = 0

/-- R80: the command is PSEL, and its table or its result does not fit. -/
def RangeBad : Prop :=
  opOf v = 0x20 ∧ (16 < v.toNat / 2 ^ 12 % 2 ^ 6 ∨ 61 < v.toNat / 2 ^ 6 % 2 ^ 6)

theorem toNat_opField_cmdWord : (opField (cmdWord v)).toNat = opOf v := by
  rw [toNat_opField, toNat_cmdWord, opOf]
  omega

theorem immField_cmdWord_eq_zero :
    immField (cmdWord v) = 0#8 ↔ v.toNat % 2 ^ 32 / 2 ^ 24 = 0 := by
  rw [← BitVec.toNat_inj, toNat_immField, toNat_cmdWord, BitVec.toNat_zero]
  omega

theorem val_rs1Field_cmdWord : (rs1Field (cmdWord v)).val = v.toNat / 2 ^ 12 % 2 ^ 6 := by
  rw [rs1Field, val_idxField, toNat_cmdWord]
  omega

theorem val_rdField_cmdWord : (rdField (cmdWord v)).val = v.toNat / 2 ^ 6 % 2 ^ 6 := by
  rw [rdField, val_idxField, toNat_cmdWord]
  omega

variable {v} {i : Instr} (h : assembled (cmdWord v) = some i)
include h

theorem opcode_of_assembled : i.opcode.toNat = opOf v := by
  rw [(assemble_eq_some h).1, toNat_opField_cmdWord]

theorem reservedZero_iff :
    cmdHigh v = 0#32 ∧ cmdWord v &&& i.zeroMask = 0#32 ↔ ReservedZero v := by
  rw [and_zeroMask_eq_zero, opcode_of_assembled h, ← BitVec.toNat_inj, toNat_cmdHigh, toNat_cmdWord]
  rfl

theorem operandError_eq_badImm_iff_countBad (henc : encode i = cmdWord v) :
    operandError i = some .badImm ↔ CountBad v := by
  rw [operandError_eq_badImm, opcode_of_assembled h, henc, immField_cmdWord_eq_zero, CountBad]

theorem operandError_eq_range_iff_rangeBad (henc : encode i = cmdWord v) :
    operandError i = some .range ↔ RangeBad v := by
  rw [operandError_eq_range, opcode_of_assembled h, henc, val_rs1Field_cmdWord, val_rdField_cmdWord,
    RangeBad]

end

/-- The five outcomes of the decoder, each with the checks that select it. -/
theorem decode_cases (v : BitVec 64) :
    (¬ LegalOp (opOf v) ∧ decode v = .error .illegalOp) ∨
    (LegalOp (opOf v) ∧ ¬ ReservedZero v ∧ decode v = .error .reservedField) ∨
    (LegalOp (opOf v) ∧ ReservedZero v ∧ CountBad v ∧ decode v = .error .badImm) ∨
    (LegalOp (opOf v) ∧ ReservedZero v ∧ ¬ CountBad v ∧ RangeBad v ∧ decode v = .error .range) ∨
    (LegalOp (opOf v) ∧ ReservedZero v ∧ ¬ CountBad v ∧ ¬ RangeBad v ∧
      ∃ i, decode v = .ok i ∧ i.opcode.toNat = opOf v ∧ cmdValue i = v) := by
  cases ha : assembled (cmdWord v) with
  | none =>
    refine .inl ⟨fun hlegal => ?_, decode_of_assembled_none ha⟩
    rw [← toNat_opField_cmdWord] at hlegal
    obtain ⟨i, hi⟩ := assembled_of_legalOp hlegal
    rw [ha] at hi
    cases hi
  | some i =>
    have hop := opcode_of_assembled ha
    have hlegal : LegalOp (opOf v) := hop ▸ legalOp_opcode i
    by_cases hz : cmdHigh v = 0#32 ∧ cmdWord v &&& i.zeroMask = 0#32
    · have hzero := (reservedZero_iff ha).1 hz
      obtain ⟨hhigh, hmask⟩ := hz
      have henc := encode_of_assembled ha hmask
      have hv := cmdValue_of_assembled ha hhigh hmask
      have hd := decode_cmdValue i
      rw [hv] at hd
      have hcount := operandError_eq_badImm_iff_countBad ha henc
      have hrange := operandError_eq_range_iff_rangeBad ha henc
      rcases operandError_cases i with he | he | he <;> rw [he] at hd hcount hrange
      · exact .inr (.inr (.inr (.inr ⟨hlegal, hzero, by simpa using hcount, by simpa using hrange, i, hd,
          hop, hv⟩)))
      · exact .inr (.inr (.inl ⟨hlegal, hzero, hcount.1 rfl, hd⟩))
      · exact .inr (.inr (.inr (.inl ⟨hlegal, hzero, by simpa using hcount, hrange.1 rfl, hd⟩)))
    · exact .inr (.inl ⟨hlegal, mt (reservedZero_iff ha).2 hz, decode_of_reserved ha hz⟩)

/-- Settles O18: the checks select one of the decoder's five outcomes, which exclude each other. -/
theorem decoderNamesTheFirstFailingCheck : Obligations.DecoderNamesTheFirstFailingCheck := by
  intro v n op rd rs1 c two one counted legal zeros countBad rangeBad
  change
    (_ ↔ ¬ LegalOp (opOf v)) ∧ (_ ↔ LegalOp (opOf v) ∧ ¬ ReservedZero v) ∧
    (_ ↔ LegalOp (opOf v) ∧ ReservedZero v ∧ CountBad v) ∧
    (_ ↔ LegalOp (opOf v) ∧ ReservedZero v ∧ ¬ CountBad v ∧ RangeBad v) ∧
    ((∃ i, decode v = .ok i ∧ i.opcode.toNat = opOf v ∧ cmdValue i = v) ↔
      LegalOp (opOf v) ∧ ReservedZero v ∧ ¬ CountBad v ∧ ¬ RangeBad v)
  rcases decode_cases v with ⟨hl, hd⟩ | ⟨hl, hz, hd⟩ | ⟨hl, hz, hc, hd⟩ | ⟨hl, hz, hc, hr, hd⟩ |
    ⟨hl, hz, hc, hr, i, hd, hop, hv⟩
  · simp [hl, hd]
  · simp [hl, hz, hd]
  · simp [hl, hz, hc, hd]
  · simp [hl, hz, hc, hr, hd]
  · simp [hl, hz, hc, hr, hd, hop, hv]

end Sys2Proof.Laws
end

section
/-! Field arithmetic on in-range operands: what each command of spec/40_field_arith.md R110 to R115 writes.
The values are those of the `toNat_…Value` laws, and the frame is that of every modular command (R101). -/

namespace Sys2Proof.Machine

open Config

/-! ### A modular command and the number it writes -/

/-- R101: on in-range operands a modular command is one write of its value. -/
theorem exec_inRange {i : Instr} {m : Modulus} {rd : WordIdx} {s : State}
    (hwf : i.wf = true) (hm : operandModulus i = some m) (hd : dests i = [rd])
    (hin : ∀ k ∈ sources i, (readWord k s).toNat < m.value) :
    exec i s = .next (writeWord rd (resultWord i s) (noteUninit (sources i) s)) := by
  obtain ⟨rd', t, hd', he, rfl, -⟩ := exec_wrote s hwf hm hin
  obtain rfl : rd = rd' := List.singleton_inj.1 (hd.symm.trans hd')
  exact he

/-- R101: on in-range operands a modular command writes the word whose number its value law gives. -/
theorem exec_wrote_number {i : Instr} {m : Modulus} {rd : WordIdx} {s : State} {n : Nat}
    (hwf : i.wf = true) (hm : operandModulus i = some m) (hd : dests i = [rd])
    (hin : ∀ k ∈ sources i, (readWord k s).toNat < m.value) (hn : (resultWord i s).toNat = n) :
    ∃ t, exec i s = .next t ∧ Wrote rd (BitVec.ofNat 384 n) s t := by
  obtain ⟨rd', t, hd', he, -, hw⟩ := exec_wrote s hwf hm hin
  obtain rfl : rd = rd' := List.singleton_inj.1 (hd.symm.trans hd')
  exact ⟨t, he, by rwa [← hn, Laws.ofNat_toNat]⟩

/-! ### FADD, FSUB, FNEG, FDBL, FTPL -/

/-- Settles O27: the value law of FADD is `toNat_faddValue`. -/
theorem faddAddsModQ : Obligations.FaddAddsModQ := fun _ _ _ _ ha hb =>
  ⟨rfl, exec_wrote_number (i := .fadd _ _ _) rfl rfl rfl
    (List.forall_mem_cons.2 ⟨ha, List.forall_mem_singleton.2 hb⟩) (Laws.toNat_faddValue ha hb)⟩

/-- Settles O28: the value law of FSUB is `toNat_fsubValue`. -/
theorem fsubSubtractsModQ : Obligations.FsubSubtractsModQ := fun _ _ _ _ ha hb =>
  ⟨rfl, exec_wrote_number (i := .fsub _ _ _) rfl rfl rfl
    (List.forall_mem_cons.2 ⟨ha, List.forall_mem_singleton.2 hb⟩) (Laws.toNat_fsubValue ha hb)⟩

/-- Settles O29: the value law of FNEG is `toNat_fnegValue`. -/
theorem fnegNegatesModQ : Obligations.FnegNegatesModQ := fun _ _ _ ha =>
  ⟨rfl, exec_wrote_number (i := .fneg _ _) rfl rfl rfl (List.forall_mem_singleton.2 ha)
    (Laws.toNat_fnegValue ha)⟩

/-- Settles O30: the value law of FDBL is `toNat_fdblValue`. -/
theorem fdblDoublesModQ : Obligations.FdblDoublesModQ := fun _ _ _ ha =>
  ⟨rfl, exec_wrote_number (i := .fdbl _ _) rfl rfl rfl (List.forall_mem_singleton.2 ha)
    (Laws.toNat_fdblValue ha)⟩

/-- Settles O31: the value law of FTPL is `toNat_ftplValue`. -/
theorem ftplTriplesModQ : Obligations.FtplTriplesModQ := fun _ _ _ ha =>
  ⟨rfl, exec_wrote_number (i := .ftpl _ _) rfl rfl rfl (List.forall_mem_singleton.2 ha)
    (Laws.toNat_ftplValue ha)⟩

/-! ### FHALF -/

/-- R15: the residue v with x·v = a (mod m) is a·inv_m(x). -/
theorem eq_mul_inverse_mod {m x y v a : Nat} (hy : IsInverse m x y) (hv : v < m)
    (hva : x * v % m = a) : v = a * y % m := by
  obtain ⟨hy1, hym, hxy⟩ := hy
  have hinv : x * y ≡ 1 [MOD m] := by rw [Nat.ModEq, hxy, Nat.mod_eq_of_lt (by omega)]
  have ha : a ≡ x * v [MOD m] := by rw [← hva]; exact Nat.mod_modEq _ _
  have hmod : a * y ≡ v [MOD m] := by
    calc a * y ≡ x * v * y [MOD m] := ha.mul_right y
      _ = x * y * v := by ring
      _ ≡ v [MOD m] := by simpa using hinv.mul_right v
  exact (Nat.mod_eq_of_modEq hmod hv).symm

/-- Settles O32: `fhalfSum_snd` is the carry, and `fhalfValue_spec` says that twice the result is a, which
leaves only a·inv_Q(2). -/
theorem fhalfHalvesModQ : Obligations.FhalfHalvesModQ := by
  refine ⟨Laws.fhalfSum_snd, fun s rd rs1 ha => ⟨rfl, ?_⟩⟩
  obtain ⟨hlt, hdouble⟩ := Laws.fhalfValue_spec ha
  obtain ⟨t, he, hw⟩ := exec_wrote_number (i := .fhalf rd rs1) rfl rfl rfl
    (List.forall_mem_singleton.2 ha) rfl
  rw [Laws.ofNat_toNat] at hw
  exact ⟨_, t, he, hw, hlt, hdouble, fun y hy => eq_mul_inverse_mod hy hlt hdouble⟩

end Sys2Proof.Machine
end

section
/-! FDBL and FTPL as compositions of FADD (spec/40_field_arith.md R113, R114, R116): the two commands of a
composition leave the same validity record (R24) and the same words as the one. -/

namespace Sys2Proof.Machine

/-! ### The validity record of a composition (R24) -/

/-- Where a model fault has been recorded, no later one is. -/
theorem noteUninit_of_recorded {s : State} (h : s.undef.isSome = true) (srcs : List WordIdx) :
    noteUninit srcs s = s := by
  obtain ⟨u, hu⟩ := Option.isSome_iff_exists.1 h
  rw [noteUninit]
  split
  · rw [noteUndefined, hu]
    exact congrArg (fun o => { s with undef := o }) hu.symm
  · rfl

/-- A source with a clear flag leaves a model fault recorded. -/
theorem noteUninit_isSome {srcs : List WordIdx} {s : State} {k : WordIdx}
    (h : srcs.find? (fun k => !wordWritten k s) = some k) :
    (noteUninit srcs s).undef.isSome = true := by
  rw [noteUninit, h, noteUndefined_undef]
  cases s.undef <;> rfl

/-- A written word stays written when a command writes a word, and the word written is written. -/
theorem wordWritten_writeWord {k k' : WordIdx} (v : Word) {s : State}
    (h : k' = k ∨ wordWritten k' s = true) : wordWritten k' (writeWord k v s) = true := by
  rw [wordWritten_iff]
  intro j
  rw [limbWritten_writeWord]
  split
  · rfl
  · next hne => exact (wordWritten_iff k' s).1 (h.resolve_left (Ne.symm hne)) j

/-- R24: after a command has read `srcs` and written rd, one that reads rd and `srcs` records nothing. -/
theorem noteUninit_after_writeWord (rd : WordIdx) (v : Word) (srcs : List WordIdx) (s : State) :
    noteUninit (rd :: srcs) (writeWord rd v (noteUninit srcs s)) =
      writeWord rd v (noteUninit srcs s) := by
  cases hf : srcs.find? (fun k => !wordWritten k s) with
  | some k =>
    have hrec : (writeWord rd v (noteUninit srcs s)).undef.isSome = true := noteUninit_isSome hf
    exact noteUninit_of_recorded hrec _
  | none =>
    have hw : ∀ k ∈ srcs, wordWritten k s = true := by simpa using List.find?_eq_none.1 hf
    rw [noteUninit_of_written hw]
    exact noteUninit_of_written fun k hk =>
      wordWritten_writeWord v ((List.mem_cons.1 hk).imp_right (hw k))

/-! ### FDBL as FADD of a word with itself -/

/-- Searching a word twice finds what searching it once does. -/
theorem find?_pair_self {α : Type} (p : α → Bool) (a : α) : [a, a].find? p = [a].find? p := by
  cases h : p a <;> simp [h]

/-- The opcode is only named where the result is undefined (R100, R252). -/
theorem runModular_opcode_irrelevant {op op' : Opcode} {m : Modulus} {srcs : List WordIdx}
    {rd : WordIdx} {v : Word} {s : State}
    (h : s.pdbg = true ∨ firstOutOfRange m srcs s = none) :
    runModular op m srcs rd v s = runModular op' m srcs rd v s := by
  cases hf : firstOutOfRange m srcs s with
  | none =>
    have hin := firstOutOfRange_eq_none.1 hf
    rw [runModular_inRange hin, runModular_inRange hin]
  | some k =>
    have hp : s.pdbg = true := h.resolve_right (by simp [hf])
    rw [runModular_checked hp hf, runModular_checked hp hf]

/-- A source named twice is a source named once. -/
theorem runModular_pair_self (op : Opcode) (m : Modulus) (k rd : WordIdx) (v : Word) (s : State) :
    runModular op m [k, k] rd v s = runModular op m [k] rd v s := by
  simp only [runModular, runModularWith, noteUninit, firstOutOfRange, find?_pair_self]

/-- R113: FDBL is FADD of the word with itself wherever the result is defined. -/
theorem exec_fdbl_eq_fadd {s : State} {rd rs1 : WordIdx}
    (h : s.pdbg = true ∨ (readWord rs1 s).toNat < Config.Q) :
    exec (.fdbl rd rs1) s = exec (.fadd rd rs1 rs1) s := by
  have hdef : s.pdbg = true ∨ firstOutOfRange .field [rs1] s = none :=
    h.imp_right fun ha => firstOutOfRange_eq_none.2 (List.forall_mem_singleton.2 ha)
  exact congrArg Host.Outcome.next
    ((runModular_opcode_irrelevant hdef).trans (runModular_pair_self _ _ _ _ _ _).symm)

/-! ### FTPL as FDBL and FADD -/

/-- The later of two writes of one word stands. -/
theorem writeWord_writeWord_self (k : WordIdx) (v w : Word) (s : State) :
    writeWord k v (writeWord k w s) = writeWord k v s := by
  simp only [writeWord, Vector.set_set]

/-- R114: after FDBL of an in-range word into rx, FADD of rx and the word writes FTPL's value. -/
theorem exec_fadd_after_fdbl {s u : State} {rx rs1 : WordIdx} (rd : WordIdx) (hne : rx ≠ rs1)
    (ha : (readWord rs1 s).toNat < Config.Q)
    (hu : writeWord rx (fdblValue (readWord rs1 s)) (noteUninit [rs1] s) = u) :
    exec (.fadd rd rx rs1) u = .next (writeWord rd (ftplValue (readWord rs1 s)) u) := by
  have hrx : readWord rx u = fdblValue (readWord rs1 s) := by rw [← hu, readWord_writeWord_self]
  have hrs1 : readWord rs1 u = readWord rs1 s := by
    rw [← hu, readWord_writeWord_of_ne hne.symm, readWord_noteUninit]
  have hdbl : (fdblValue (readWord rs1 s)).toNat < Config.Q := by
    rw [Laws.toNat_fdblValue ha]
    exact Nat.mod_lt _ (Laws.value_pos .field)
  have hnote : noteUninit [rx, rs1] u = u := by rw [← hu, noteUninit_after_writeWord]
  have hin : ∀ k ∈ [rx, rs1], (readWord k u).toNat < Config.Q :=
    List.forall_mem_cons.2 ⟨by rwa [hrx], List.forall_mem_singleton.2 (by rwa [hrs1])⟩
  calc exec (.fadd rd rx rs1) u
      = .next (writeWord rd (faddValue (readWord rx u) (readWord rs1 u)) (noteUninit [rx, rs1] u)) :=
        exec_inRange (i := .fadd rd rx rs1) (m := .field) rfl rfl rfl hin
    _ = .next (writeWord rd (ftplValue (readWord rs1 s)) u) := by rw [hrx, hrs1, hnote]; rfl

/-- Settles O33: FDBL is `exec_fdbl_eq_fadd`. The composition for FTPL differs from FTPL by its write of rx
(`exec_fadd_after_fdbl`), which the later write of rd covers if rx is rd. -/
theorem doublingAndTriplingAreAdditions : Obligations.DoublingAndTriplingAreAdditions := by
  refine ⟨fun s rd rs1 h => ⟨_, rfl, (exec_fdbl_eq_fadd h).symm⟩, fun s rd rx rs1 hne ha => ?_⟩
  have hin : ∀ k ∈ [rs1], (readWord k s).toNat < Modulus.field.value :=
    List.forall_mem_singleton.2 ha
  refine ⟨_, _, _, exec_inRange (i := .ftpl rd rs1) rfl rfl rfl hin,
    exec_inRange (i := .fdbl rx rs1) rfl rfl rfl hin, exec_fadd_after_fdbl rd hne ha rfl, ?_,
    fun k hk => ?_, rfl⟩
  · rintro rfl
    exact writeWord_writeWord_self ..
  · have hkx : rx ≠ k := fun h => hk (List.mem_singleton.2 h.symm)
    simp only [readWord_writeWord, limbWritten_writeWord, if_neg hkx]
    exact ⟨rfl, fun _ => rfl⟩

end Sys2Proof.Machine
end

section
/-! An out-of-range operand with pdbg = 0: the command completes with a free value in its destination, and a
run of the model stops there (spec/40_field_arith.md R100, spec/43_scalar_arith.md R179,
spec/60_exceptions.md R252). -/

namespace Sys2Proof.Machine

/-- R100, R179: without debug checks, a modular command with an out-of-range source writes a free value and
records OperandOutOfRange of the first such source. -/
theorem exec_of_firstOutOfRange {i : Instr} {m : Modulus} {s : State} {k : WordIdx}
    (hwf : i.wf = true) (hm : operandModulus i = some m) (hp : s.pdbg = false)
    (hf : firstOutOfRange m (sources i) s = some k) :
    ∃ rd, dests i = [rd] ∧ exec i s = .next (writeFree rd
      (noteUndefined (.operandOutOfRange i.opcode k) (noteUninit (sources i) s))) := by
  obtain ⟨rd, hd, he⟩ := exec_modular s hwf hm
  refine ⟨rd, hd, he.trans ?_⟩
  simp only [runModular, runModularWith, hf, hp, Bool.false_eq_true, if_false]

/-- R252: it records that model fault where its sources and the rules before it recorded none. -/
theorem exec_undef_of_firstOutOfRange {i : Instr} {m : Modulus} {s t : State} {k : WordIdx}
    (h : exec i s = .next t) (hm : operandModulus i = some m) (hp : s.pdbg = false)
    (hf : firstOutOfRange m (sources i) s = some k) :
    t.undef = ((noteUninit (sources i) s).undef <|> some (.operandOutOfRange i.opcode k)) := by
  obtain ⟨rd, -, he⟩ := exec_of_firstOutOfRange (wf_of_exec_next h) hm hp hf
  rw [he] at h
  cases h
  rw [writeFree_undef, noteUndefined_undef]

/-- R252: with every source written and no earlier model fault, the one reached is OperandOutOfRange. -/
theorem exec_undef_of_outOfRange {i : Instr} {m : Modulus} {s t : State} {k : WordIdx}
    (h : exec i s = .next t) (hm : operandModulus i = some m) (hp : s.pdbg = false)
    (hu : s.undef = none) (hw : SourcesWritten i s) (hf : firstOutOfRange m (sources i) s = some k) :
    t.undef = some (.operandOutOfRange i.opcode k) := by
  rw [exec_undef_of_firstOutOfRange h hm hp hf, noteUninit_of_written hw, hu]
  rfl

/-- R252: a model fault recorded before stays the one recorded. -/
theorem exec_undef_of_recorded {i : Instr} {m : Modulus} {s t : State} {k : WordIdx}
    (h : exec i s = .next t) (hm : operandModulus i = some m) (hp : s.pdbg = false)
    (hu : s.undef.isSome = true) (hf : firstOutOfRange m (sources i) s = some k) :
    t.undef = s.undef := by
  obtain ⟨u, hs⟩ := Option.isSome_iff_exists.1 hu
  rw [exec_undef_of_firstOutOfRange h hm hp hf, noteUninit_of_recorded hu, hs]
  rfl

/-- A modular command reads at most two words. -/
theorem length_sources_le {i : Instr} {m : Modulus} (hm : operandModulus i = some m) :
    (sources i).length ≤ 2 := by
  cases i with
  | psel => cases hm
  | _ => simp [sources]

/-- R100, R243: the first out-of-range source is RS1, or the only one. -/
theorem firstOutOfRange_eq_some {m : Modulus} {srcs : List WordIdx} {s : State} {k : WordIdx}
    (hlen : srcs.length ≤ 2) (hf : firstOutOfRange m srcs s = some k) :
    k ∈ srcs ∧ m.value ≤ (readWord k s).toNat ∧
      ∀ k' ∈ srcs, m.value ≤ (readWord k' s).toNat → k' = k ∨ srcs.head? = some k := by
  obtain ⟨hk, pre, post, rfl, hpre⟩ := List.find?_eq_some_iff_append.1 hf
  refine ⟨by simp, by simpa [inRange] using hk, fun k' hk' hge => ?_⟩
  cases pre with
  | nil => exact .inr rfl
  | cons p pre =>
    obtain ⟨rfl, rfl⟩ : pre = [] ∧ post = [] := by
      simp only [List.length_append, List.length_cons] at hlen
      exact ⟨List.length_eq_zero_iff.1 (by omega), List.length_eq_zero_iff.1 (by omega)⟩
    have hp : (readWord p s).toNat < m.value := by simpa [inRange] using hpre p List.mem_cons_self
    rcases List.mem_cons.1 hk' with rfl | hk'
    · omega
    · exact .inl (List.mem_singleton.1 hk')

/-- R252: the completion of a pending command whose rule reaches a model fault stops the model. -/
theorem modelStep_complete_of_undef {s : State} {es : List Event} {i : Instr} {u : ModelFault}
    (hb : s.busy = true) (hd : decode (s.pend.setWidth 64) = .ok i)
    (h : ∀ t, exec i { s with events := es } = .next t → t.undef = some u) :
    modelStep { s with events := .complete :: es } = .error u := by
  obtain ⟨t, ht, hslot⟩ := completionSlot_busy (s := { s with events := es }) hb hd
  exact modelStep_of_modelFault ((step_slot (.inr rfl)).trans hslot) (h t ht)

/-- Settles O51: the command writes a free value (`exec_of_firstOutOfRange`). The pending command reads the
same words as `s`, so its completion reaches the same model fault. -/
theorem outOfRangeOperandCompletesWithoutChecks :
    Obligations.OutOfRangeOperandCompletesWithoutChecks := by
  intro i m s hwf hm hp ⟨k', hk', hge'⟩
  obtain ⟨k, hf⟩ : ∃ k, firstOutOfRange m (sources i) s = some k := by
    refine Option.ne_none_iff_exists'.1 fun hnone => ?_
    exact absurd (firstOutOfRange_eq_none.1 hnone k' hk') (by omega)
  obtain ⟨hk, hge, hfirst⟩ := firstOutOfRange_eq_some (length_sources_le hm) hf
  obtain ⟨rd, hd, he⟩ := exec_of_firstOutOfRange hwf hm hp hf
  obtain ⟨⟨herror, hcontrol⟩, -⟩ := exec_of_pdbg_false he hp
  refine ⟨_, he, ?_, ?_, herror, hcontrol, fun hu => exec_undef_of_recorded he hm hp hu hf,
    fun hu hw => ⟨k, hk, exec_undef_of_outOfRange he hm hp hu hw hf, hge, hfirst,
      fun es hb hpend => modelStep_complete_of_undef hb hpend fun t ht =>
        exec_undef_of_outOfRange ht hm hp hu hw hf⟩⟩
  · rw [hd]
    exact wordsKept_trans (noteUninit_wordsKept [rd] (sources i) s)
      (writeFree_wordsKept rd (noteUndefined _ _))
  · rw [hd]
    exact List.forall_mem_singleton.2 fun j => limbWritten_writeFree_self rd j _

end Sys2Proof.Machine
end

section
/-! The word-serial datapath of spec/41_field_mont.md R131 computes the Montgomery product of R130. Each pass
divides exactly by 2^64, so i passes leave a value below 2m whose product by 2^(64i) is the low i limbs of a
times b, mod m. -/

namespace Sys2Proof.Laws

open Config Machine

/-- R131: u = (x mod 2^64)·n0 mod 2^64 makes x + u·m a multiple of 2^64. -/
theorem two_pow_64_dvd_add_mul (m : Modulus) (x : Nat) :
    2 ^ 64 ∣ x + x % 2 ^ 64 * m.n0 % 2 ^ 64 * m.value := by
  have hu : x % 2 ^ 64 * m.n0 % 2 ^ 64 ≡ x * m.n0 [MOD 2 ^ 64] :=
    (Nat.mod_modEq _ _).trans ((Nat.mod_modEq x _).mul_right _)
  have hn0 : m.value * m.n0 + 1 ≡ 0 [MOD 2 ^ 64] := value_mul_n0_add_one_mod m
  refine (Nat.modEq_zero_iff_dvd).1 ?_
  calc x + x % 2 ^ 64 * m.n0 % 2 ^ 64 * m.value
      ≡ x + x * m.n0 * m.value [MOD 2 ^ 64] := (hu.mul_right _).add_left _
    _ = x * (m.value * m.n0 + 1) := by ring
    _ ≡ 0 [MOD 2 ^ 64] := hn0.mul_left x

/-- R131: a pass adds limb i of a times b and a one-limb multiple of m, and the limb that it drops is 0. -/
theorem refPass_mul_two_pow_64 (m : Modulus) (a b i t : Nat) :
    ∃ u < 2 ^ 64, refPass m a b i t * 2 ^ 64 = t + limbNat a i * b + u * m.value :=
  ⟨_, Nat.mod_lt _ (by decide), Nat.div_mul_cancel (two_pow_64_dvd_add_mul m _)⟩

theorem limbNat_lt (a i : Nat) : limbNat a i < 2 ^ 64 := Nat.mod_lt _ (by decide)

/-- The low i+1 limbs are the low i limbs and limb i (R15). -/
theorem mod_two_pow_64_pow_succ (a i : Nat) :
    a % (2 ^ 64) ^ (i + 1) = a % (2 ^ 64) ^ i + (2 ^ 64) ^ i * limbNat a i :=
  Nat.mod_pow_succ

/-- What the accumulator t of R131 satisfies after i passes. -/
def RefInv (m : Modulus) (a b i t : Nat) : Prop :=
  t < 2 * m.value ∧ t * (2 ^ 64) ^ i ≡ a % (2 ^ 64) ^ i * b [MOD m.value]

theorem refInv_zero (m : Modulus) (a b : Nat) : RefInv m a b 0 0 := by
  refine ⟨Nat.mul_pos two_pos (value_pos m), ?_⟩
  rw [pow_zero, Nat.mod_one, zero_mul, zero_mul]

/-- A pass takes the invariant from i limbs to i+1. -/
theorem refInv_refPass {m : Modulus} {a b i t : Nat} (hb : b < m.value) (h : RefInv m a b i t) :
    RefInv m a b (i + 1) (refPass m a b i t) := by
  obtain ⟨hlt, hmod⟩ := h
  obtain ⟨u, hu, hpass⟩ := refPass_mul_two_pow_64 m a b i t
  constructor
  · have hlimb : limbNat a i * b ≤ (2 ^ 64 - 1) * m.value :=
      Nat.mul_le_mul (Nat.le_pred_of_lt (limbNat_lt a i)) hb.le
    have hum : u * m.value ≤ (2 ^ 64 - 1) * m.value := Nat.mul_le_mul_right _ (Nat.le_pred_of_lt hu)
    omega
  · calc refPass m a b i t * (2 ^ 64) ^ (i + 1)
        = refPass m a b i t * 2 ^ 64 * (2 ^ 64) ^ i := by ring
      _ = t * (2 ^ 64) ^ i + (2 ^ 64) ^ i * limbNat a i * b + m.value * (u * (2 ^ 64) ^ i) := by
        rw [hpass]; ring
      _ ≡ a % (2 ^ 64) ^ i * b + (2 ^ 64) ^ i * limbNat a i * b + 0 [MOD m.value] :=
        (hmod.add_right _).add (Nat.modEq_zero_iff_dvd.2 (dvd_mul_right _ _))
      _ = a % (2 ^ 64) ^ (i + 1) * b := by rw [mod_two_pow_64_pow_succ]; ring

/-- Six limbs are a whole u384. -/
theorem two_pow_64_pow_six : (2 ^ 64) ^ 6 = R := by decide +kernel

/-- R131: the six passes leave a·b·inv_m(R), not yet reduced below m. -/
theorem refLoop_spec {m : Modulus} {a b : Nat} (ha : a < m.value) (hb : b < m.value) :
    refLoop m a b < 2 * m.value ∧ refLoop m a b * R ≡ a * b [MOD m.value] := by
  have hinv : RefInv m a b 6 (refLoop m a b) :=
    refInv_refPass hb <| refInv_refPass hb <| refInv_refPass hb <| refInv_refPass hb <|
      refInv_refPass hb <| refInv_refPass hb <| refInv_zero m a b
  rwa [RefInv, two_pow_64_pow_six, Nat.mod_eq_of_lt (ha.trans (value_lt_R m))] at hinv

/-- R131: the select on the borrow of t - m reduces a t below 2m. -/
theorem select_sub_eq_mod {m t : Nat} (h : t < 2 * m) : (if t < m then t else t - m) = t % m := by
  split
  · next hlt => exact (Nat.mod_eq_of_lt hlt).symm
  · next hge => rw [Nat.mod_eq_sub_mod (by omega), Nat.mod_eq_of_lt (by omega)]

/-- Settles O38: the value after the passes (`refLoop_spec`), reduced by the select, is the residue that
`mm_unique` says is the only one. -/
theorem referenceDatapathComputesTheMontgomeryProduct :
    Obligations.ReferenceDatapathComputesTheMontgomeryProduct := by
  intro m a b ha hb
  obtain ⟨hlt, hmod⟩ := refLoop_spec ha hb
  have hsel : refMont m a b = refLoop m a b % m.value := select_sub_eq_mod hlt
  rw [hsel]
  exact mm_unique m (Nat.mod_lt _ (value_pos m)) (((Nat.mod_modEq _ _).mul_right R).trans hmod)

end Sys2Proof.Laws
end

section
/-! Montgomery products on in-range operands: what FMUL, FSQR and FSQRMUL write (spec/41_field_mont.md R140
to R143). What the values amount to is said for either modulus. -/

namespace Sys2Proof.Machine

open Config

/-! ### The values (R130, R142) -/

/-- A residue narrowed to a u384 is itself. -/
theorem toNat_toWord_of_lt_value {m : Modulus} {n : Nat} (h : n < m.value) : (toWord n).toNat = n :=
  Laws.toNat_ofNat_of_lt (h.trans (Laws.value_lt_R m))

/-- R130: MM_m(a, b) is the residue whose product by 2^384 is a·b, which is a·b·inv_m(2^384). -/
theorem mm_spec (m : Modulus) (a b : Nat) :
    mm m a b < m.value ∧ mm m a b * 2 ^ 384 % m.value = a * b % m.value ∧
      ∀ y, IsInverse m.value (2 ^ 384) y → mm m a b = a * b * y % m.value := by
  rw [Laws.two_pow_384]
  have hlt := Laws.mm_lt m a b
  have hmod : mm m a b * R % m.value = a * b % m.value := Laws.mm_mul_R_modEq m a b
  refine ⟨hlt, hmod, fun y hy => ?_⟩
  rw [mul_comm] at hmod
  rw [eq_mul_inverse_mod hy hlt hmod, Nat.mod_mul_mod]

/-- R142, R183: the closed form of SM_m on residues. -/
theorem sqrMul_eq_toMont {m : Modulus} {a b : Nat} (k : Nat) (ha : a < m.value) (hb : b < m.value) :
    sqrMul m a k b = toMont m (unMont m a ^ 2 ^ k * unMont m b % m.value) := by
  rw [Laws.toMont_mod, ← Laws.sqrMul_toMont, Laws.toMont_unMont m ha, Laws.toMont_unMont m hb]

/-! ### FMUL, FSQR, FSQRMUL -/

/-- R101: a command whose value is a Montgomery product writes the word of that number. -/
theorem exec_wrote_mm {i : Instr} {m : Modulus} {rd : WordIdx} {s : State} {a b : Nat}
    (hwf : i.wf = true) (hm : operandModulus i = some m) (hd : dests i = [rd])
    (hin : ∀ k ∈ sources i, (readWord k s).toNat < m.value)
    (hr : resultWord i s = toWord (mm m a b)) :
    ∃ v t, exec i s = .next t ∧ Wrote rd v s t ∧ v.toNat = mm m a b := by
  have hv : (resultWord i s).toNat = mm m a b :=
    (congrArg BitVec.toNat hr).trans (toNat_toWord_of_lt_value (Laws.mm_lt m a b))
  obtain ⟨t, he, hw⟩ := exec_wrote_number hwf hm hd hin rfl
  rw [Laws.ofNat_toNat] at hw
  exact ⟨_, t, he, hw, hv⟩

/-- R140: FMUL of in-range operands writes MM_Q of them. -/
theorem exec_fmul_wrote {s : State} {rs1 rs2 : WordIdx} (rd : WordIdx)
    (ha : (readWord rs1 s).toNat < Q) (hb : (readWord rs2 s).toNat < Q) :
    ∃ v t, exec (.fmul rd rs1 rs2) s = .next t ∧ Wrote rd v s t ∧
      v.toNat = mm .field (readWord rs1 s).toNat (readWord rs2 s).toNat :=
  exec_wrote_mm rfl rfl rfl (List.forall_mem_cons.2 ⟨ha, List.forall_mem_singleton.2 hb⟩) rfl

/-- Settles O34: the number that FMUL writes is the residue of `mm_spec`. -/
theorem fmulIsTheMontgomeryProduct : Obligations.FmulIsTheMontgomeryProduct := by
  intro s rd rs1 rs2 ha hb
  obtain ⟨v, t, he, hw, hv⟩ := exec_fmul_wrote rd ha hb
  exact ⟨rfl, v, t, he, hw, hv ▸ mm_spec .field _ _⟩

/-- Settles O35: the number that FSQR writes is the residue of `mm_spec` for two equal operands. -/
theorem fsqrIsTheMontgomerySquare : Obligations.FsqrIsTheMontgomerySquare := by
  intro s rd rs1 ha
  obtain ⟨v, t, he, hw, hv⟩ :=
    exec_wrote_mm (i := .fsqr rd rs1) rfl rfl rfl (List.forall_mem_singleton.2 ha) rfl
  rw [sq]
  exact ⟨rfl, v, t, he, hw, hv ▸ mm_spec .field _ _⟩

/-- Settles O36: the closed form is `sqrMul_eq_toMont`, and a count other than 0 makes FSQRMUL a command. -/
theorem fsqrmulSquaresThenMultiplies : Obligations.FsqrmulSquaresThenMultiplies := by
  intro s rd rs1 rs2 k hk ha hb
  have hwf : (Instr.fsqrmul rd rs1 rs2 k).wf = true := bne_iff_ne.2 hk
  refine ⟨rfl, exec_wrote_number hwf rfl rfl
    (List.forall_mem_cons.2 ⟨ha, List.forall_mem_singleton.2 hb⟩) ?_⟩
  exact (congrArg (fun n => (toWord n).toNat) (sqrMul_eq_toMont k.toNat ha hb)).trans
    (toNat_toWord_of_lt_value (Laws.toMont_lt .field _))

/-! ### The round trip (R143) -/

/-- Settles O37: a product by R² mod Q encodes (`mm_RR_Q`) and a product by 1 decodes (`mm_one`). The constant
1 is still in its word for the second product, since the first wrote another word. -/
theorem montgomeryRoundTripIsTheIdentity : Obligations.MontgomeryRoundTripIsTheIdentity := by
  intro s rd rs rc ro hne hx hrc hro
  have hRR : (readWord rc s).toNat < Q := by rw [hrc]; decide +kernel
  obtain ⟨v, t, het, ⟨hrd, -, hkept, -, -⟩, hv⟩ := exec_fmul_wrote rd hx hRR
  rw [← hrd, hrc, Laws.mm_RR_Q] at hv
  have hrot : (readWord ro t).toNat = 1 := by
    rw [(hkept ro (by simpa using hne.symm)).1, hro]
  obtain ⟨w, u, heu, ⟨hru, -, -, -, -⟩, hw⟩ := exec_fmul_wrote (s := t) (rs1 := rd) (rs2 := ro) rd
    (hv ▸ Laws.toMont_lt .field _) (hrot ▸ Laws.one_lt_value .field)
  refine ⟨t, u, het, heu, hv, hru.trans (Laws.word_eq_iff_toNat.2 ?_)⟩
  rw [hw, hv, hrot, Laws.mm_one, Laws.unMont_toMont .field hx]

end Sys2Proof.Machine
end

section
/-! Inverses in the Montgomery domain, for either modulus (spec/42_field_inversion.md R161,
spec/44_scalar_inversion.md R201): what the power m - 2 of a residue encodes, and the product of an encoding
and the encoding of its inverse. -/

namespace Sys2Proof.Laws

open Config Machine

/-- A word is 0 exactly when its number is. -/
theorem eq_zero_iff_toNat {w : Word} : w = 0#384 ↔ w.toNat = 0 := not_iff_not.1 ne_zero_iff_toNat

@[simp] theorem toMont_zero (m : Modulus) : toMont m 0 = 0 := by simp [toMont]

@[simp] theorem unMont_zero (m : Modulus) : unMont m 0 = 0 := by simp [unMont]

/-- Only 0 decodes to 0. -/
theorem unMont_ne_zero (m : Modulus) {y : Nat} (h0 : y ≠ 0) (hy : y < m.value) : unMont m y ≠ 0 :=
  fun h => h0 (by rw [← toMont_unMont m hy, h, toMont_zero])

/-- R17, C2: MExp_m(0, e) = 0. -/
theorem mExp_zero (m : Modulus) {e : Nat} (he : e ≠ 0) : mExp m 0 e = 0 := by
  rw [mExp_eq, unMont_zero, zero_pow he, toMont_zero]

/-- R161, R201: the walk's exponent takes a residue that is not 0 to the encoding of its inverse. -/
theorem toMont_pow_sub_two (m : Modulus) {x : Nat} (h0 : x ≠ 0) (hx : x < m.value) :
    ∃ y, IsInverse m.value x y ∧ toMont m (x ^ (m.value - 2)) = toMont m y :=
  ⟨_, pow_sub_two_isInverse m h0 hx, (toMont_mod m _).symm⟩

/-- The Montgomery product of the encodings of x and of inv_m(x) is Mont_m(1) = R mod m. -/
theorem mm_toMont_of_isInverse {m : Modulus} {x y : Nat} (h : IsInverse m.value x y) :
    mm m (toMont m x) (toMont m y) = R % m.value := by
  obtain ⟨-, -, hxy⟩ := h
  rw [mm_toMont, ← toMont_mod, hxy, toMont, one_mul]

end Sys2Proof.Laws
end

section
/-! FINV on an in-range operand (spec/42_field_inversion.md R161): the value it writes, and the product of an
operand and its FINV. -/

namespace Sys2Proof.Machine

open Config

/-- R161: FINV of an in-range operand writes MExp_Q of it and Q - 2. -/
theorem exec_finv_wrote {s : State} {rs1 : WordIdx} (rd : WordIdx) (ha : (readWord rs1 s).toNat < Q) :
    ∃ v t, exec (.finv rd rs1) s = .next t ∧ Wrote rd v s t ∧
      v.toNat = mExp .field (readWord rs1 s).toNat (Q - 2) := by
  have hval : finvValue (readWord rs1 s).toNat = mExp .field (readWord rs1 s).toNat (Q - 2) :=
    (Laws.finvValue_eq ha).trans (Laws.mExp_eq .field _ _).symm
  obtain ⟨t, he, hw⟩ := exec_wrote_number (i := .finv rd rs1) rfl rfl rfl
    (List.forall_mem_singleton.2 ha) rfl
  rw [Laws.ofNat_toNat] at hw
  exact ⟨_, t, he, hw, (congrArg (fun n => (toWord n).toNat) hval).trans
    (toNat_toWord_of_lt_value (Laws.toMont_lt .field _))⟩

/-- R161, R162: MExp_Q(a, Q - 2) is the encoding of the inverse of the residue that a encodes. -/
theorem mExp_Q_sub_two {a : Nat} (h0 : a ≠ 0) (ha : a < Q) :
    ∃ y, IsInverse Q (unMont .field a) y ∧ mExp .field a (Q - 2) = toMont .field y := by
  rw [Laws.mExp_eq]
  exact Laws.toMont_pow_sub_two .field (Laws.unMont_ne_zero .field h0 ha) (Laws.unMont_lt .field a)

/-- Settles O39: the chain's value is MExp_Q(a, Q - 2) (`exec_finv_wrote`), which is 0 for a = 0 and, by
Fermat, the encoded inverse for any other a (`mExp_Q_sub_two`). -/
theorem finvInvertsInTheMontgomeryDomain : Obligations.FinvInvertsInTheMontgomeryDomain := by
  intro s rd rs1 ha
  obtain ⟨v, t, he, hw, hv⟩ := exec_finv_wrote rd ha
  refine ⟨rfl, v, t, he, hw, hv ▸ (Laws.ofNat_toNat v).symm, fun hz => ?_, fun hnz => ?_⟩
  · rw [Laws.eq_zero_iff_toNat] at hz ⊢
    rw [hv, hz, Laws.mExp_zero .field (Nat.sub_ne_zero_of_lt Laws.two_lt_Q)]
  · rw [hv]
    exact mExp_Q_sub_two (Laws.ne_zero_iff_toNat.1 hnz) ha

/-- Settles O40: FINV leaves the operand in its word, since it wrote another one, so FMUL multiplies the
encodings of a residue and of its inverse (`mm_toMont_of_isInverse`). -/
theorem operandTimesItsFieldInverseIsOne : Obligations.OperandTimesItsFieldInverseIsOne := by
  intro s rd rs1 hne ha hnz
  obtain ⟨v, t, het, ⟨hrd, -, hkept, -, -⟩, hv⟩ := exec_finv_wrote rd ha
  obtain ⟨y, hy, hvy⟩ := mExp_Q_sub_two (Laws.ne_zero_iff_toNat.1 hnz) ha
  have hrs : readWord rs1 t = readWord rs1 s := (hkept rs1 (by simpa using hne.symm)).1
  have hinv : (readWord rd t).toNat = toMont .field y := by rw [hrd, hv, hvy]
  obtain ⟨w, u, heu, ⟨hru, -, -, -, -⟩, hw⟩ := exec_fmul_wrote (s := t) (rs1 := rs1) (rs2 := rd) rd
    (hrs ▸ ha) (hinv ▸ Laws.toMont_lt .field y)
  refine ⟨t, u, het, heu, ?_⟩
  calc (readWord rd u).toNat
      = mm .field (readWord rs1 s).toNat (toMont .field y) := by rw [hru, hw, hrs, hinv]
    _ = mm .field (toMont .field (unMont .field (readWord rs1 s).toNat)) (toMont .field y) := by
        rw [Laws.toMont_unMont .field ha]
    _ = R % Q := Laws.mm_toMont_of_isInverse hy
    _ = R_MOD_Q := Laws.R_MOD_Q_eq.symm

end Sys2Proof.Machine
end

section
/-! The public chains of inversion as tables (spec/42_field_inversion.md R160, spec/44_scalar_inversion.md
R199, R200): their exponents and their counts. -/

namespace Sys2Proof.Laws

open Config Machine

/-- R160: a step on n ones and on k ones, with k squarings, gives n + k ones. -/
theorem smExponent_ones (n k : Nat) : smExponent (2 ^ n - 1) k (2 ^ k - 1) = 2 ^ (n + k) - 1 := by
  have hle : 2 ^ k ≤ 2 ^ (n + k) := Nat.pow_le_pow_right two_pos (Nat.le_add_left k n)
  rw [smExponent, Nat.sub_mul, ← pow_add, one_mul, Nat.sub_add_sub_cancel hle Nat.one_le_two_pow]

/-- R160: the walk of FCHAIN from the exponent 1 of the input. Steps 1 to 11 append ones to ones, and the last
three steps are those of the accumulator. -/
theorem runChain_smExponent_fchain :
    let e12 := smExponent (2 ^ 255 - 1) 33 (2 ^ 32 - 1)
    let e13 := smExponent e12 94 (2 ^ 30 - 1)
    runChain smExponent FCHAIN [2 ^ 1 - 1] =
      [1, 2, 3, 6, 12, 15, 30, 32, 60, 120, 240, 255].map (fun n => 2 ^ n - 1) ++
        [e12, e13, smExponent e13 2 (2 ^ 1 - 1)] := by
  simp only [FCHAIN, runChain, List.cons_append, List.nil_append, List.getD_cons_zero,
    List.getD_cons_succ, smExponent_ones, Nat.reduceAdd, List.map_cons, List.map_nil]

/-- Settles O45: the exponents of FCHAIN are its walk's, and the last is the law `fchain_exponent` read off
that walk; SDIGITS and SCHAIN are the laws `scalarDigits_eq` and `schain_exponent`. -/
theorem publicChainsComputeTheirExponents : Obligations.PublicChainsComputeTheirExponents := by
  have hlast := fchain_exponent
  rw [show [1] = [2 ^ 1 - 1] from rfl, runChain_smExponent_fchain] at hlast
  refine ⟨⟨runChain_smExponent_fchain, hlast⟩, rfl, rfl, fun a _ => ?_, rfl, rfl, schain_exponent⟩
  simp [scalarDigits_eq, digitExponents]

end Sys2Proof.Laws
end

section
/-! Scalar arithmetic on in-range operands: what SMUL, SSQR, STOMONT and SSQRMUL write
(spec/43_scalar_arith.md R180 to R183), and the product of an operand and its SINV (R201). -/

namespace Sys2Proof.Machine

open Config

/-! ### SMUL, SSQR -/

/-- R180: SMUL of in-range operands writes MM_N of them. -/
theorem exec_smul_wrote {s : State} {rs1 rs2 : WordIdx} (rd : WordIdx)
    (ha : (readWord rs1 s).toNat < N) (hb : (readWord rs2 s).toNat < N) :
    ∃ v t, exec (.smul rd rs1 rs2) s = .next t ∧ Wrote rd v s t ∧
      v.toNat = mm .scalar (readWord rs1 s).toNat (readWord rs2 s).toNat :=
  exec_wrote_mm rfl rfl rfl (List.forall_mem_cons.2 ⟨ha, List.forall_mem_singleton.2 hb⟩) rfl

/-- Settles O41: the number that SMUL writes is the residue of `mm_spec`. -/
theorem smulIsTheMontgomeryProduct : Obligations.SmulIsTheMontgomeryProduct := by
  intro s rd rs1 rs2 ha hb
  obtain ⟨v, t, he, hw, hv⟩ := exec_smul_wrote rd ha hb
  exact ⟨rfl, v, t, he, hw, hv ▸ mm_spec .scalar _ _⟩

/-- Settles O42: the number that SSQR writes is the residue of `mm_spec` for two equal operands. -/
theorem ssqrIsTheMontgomerySquare : Obligations.SsqrIsTheMontgomerySquare := by
  intro s rd rs1 ha
  obtain ⟨v, t, he, hw, hv⟩ :=
    exec_wrote_mm (i := .ssqr rd rs1) rfl rfl rfl (List.forall_mem_singleton.2 ha) rfl
  rw [sq]
  exact ⟨rfl, v, t, he, hw, hv ▸ mm_spec .scalar _ _⟩

/-! ### Commands whose value is an encoding: STOMONT, SSQRMUL, SINV -/

/-- R101: a command whose value is the encoding of x writes the word of that number. -/
theorem exec_wrote_toMont {i : Instr} {m : Modulus} {rd : WordIdx} {s : State} {x : Nat}
    (hwf : i.wf = true) (hm : operandModulus i = some m) (hd : dests i = [rd])
    (hin : ∀ k ∈ sources i, (readWord k s).toNat < m.value)
    (hr : resultWord i s = toWord (toMont m x)) :
    ∃ t, exec i s = .next t ∧ Wrote rd (toWord (toMont m x)) s t :=
  exec_wrote_number hwf hm hd hin
    ((congrArg BitVec.toNat hr).trans (toNat_toWord_of_lt_value (Laws.toMont_lt m x)))

/-- R182: STOMONT of an in-range operand writes its encoding. -/
theorem exec_stomont_wrote {s : State} {rs1 : WordIdx} (rd : WordIdx)
    (ha : (readWord rs1 s).toNat < N) :
    ∃ t, exec (.stomont rd rs1) s = .next t ∧
      Wrote rd (toWord (toMont .scalar (readWord rs1 s).toNat)) s t :=
  exec_wrote_toMont rfl rfl rfl (List.forall_mem_singleton.2 ha)
    (congrArg toWord (Laws.mm_RR_N (readWord rs1 s).toNat))

/-- R201: SINV of an in-range operand writes the encoding of its power N - 2. -/
theorem exec_sinv_wrote {s : State} {rs1 : WordIdx} (rd : WordIdx)
    (ha : (readWord rs1 s).toNat < N) :
    ∃ t, exec (.sinv rd rs1) s = .next t ∧
      Wrote rd (toWord (toMont .scalar ((readWord rs1 s).toNat ^ (N - 2)))) s t :=
  exec_wrote_toMont rfl rfl rfl (List.forall_mem_singleton.2 ha)
    (congrArg toWord (Laws.sinvValue_eq (readWord rs1 s).toNat))

/-- Settles O43: the product by RR_N is the encoding (`mm_RR_N`), and R is 2^384. -/
theorem stomontConvertsIntoTheMontgomeryDomain :
    Obligations.StomontConvertsIntoTheMontgomeryDomain := by
  intro s rd rs1 ha
  rw [Laws.two_pow_384]
  exact ⟨rfl, exec_stomont_wrote rd ha⟩

/-- Settles O44: the closed form is `sqrMul_eq_toMont`, and a count other than 0 makes SSQRMUL a command. -/
theorem ssqrmulSquaresThenMultiplies : Obligations.SsqrmulSquaresThenMultiplies := by
  intro s rd rs1 rs2 k hk ha hb
  have hwf : (Instr.ssqrmul rd rs1 rs2 k).wf = true := bne_iff_ne.2 hk
  exact ⟨rfl, exec_wrote_toMont hwf rfl rfl
    (List.forall_mem_cons.2 ⟨ha, List.forall_mem_singleton.2 hb⟩)
    (congrArg toWord (sqrMul_eq_toMont k.toNat ha hb))⟩

/-! ### The product of an operand and its inverse -/

/-- R201: in the Montgomery domain, a residue other than 0 times its power N - 2 is 1. -/
theorem mm_toMont_pow_N_sub_two {a : Nat} (h0 : a ≠ 0) (ha : a < N) :
    mm .scalar (toMont .scalar a) (toMont .scalar (a ^ (N - 2))) = R_MOD_N := by
  obtain ⟨y, hy, hpow⟩ := Laws.toMont_pow_sub_two .scalar h0 ha
  calc mm .scalar (toMont .scalar a) (toMont .scalar (a ^ (N - 2)))
      = mm .scalar (toMont .scalar a) (toMont .scalar y) := congrArg _ hpow
    _ = R % N := Laws.mm_toMont_of_isInverse hy
    _ = R_MOD_N := Laws.R_MOD_N_eq.symm

/-- Settles O47: SINV leaves the operand in rs1 and STOMONT leaves SINV's result in rd, since each writes
another word, so SMUL multiplies the encodings of a and of its power N - 2 (`mm_toMont_pow_N_sub_two`). -/
theorem scalarTimesItsInverseIsOne : Obligations.ScalarTimesItsInverseIsOne := by
  intro s rd rm rs1 hne hnm ha hnz
  obtain ⟨t, het, ⟨hrd, -, hkept, -, -⟩⟩ := exec_sinv_wrote rd ha
  have hrs : readWord rs1 t = readWord rs1 s := (hkept rs1 (by simpa using hne.symm)).1
  obtain ⟨u, heu, ⟨hrm, -, hkept', -, -⟩⟩ := exec_stomont_wrote (s := t) (rs1 := rs1) rm (hrs ▸ ha)
  have hm : (readWord rm u).toNat = toMont .scalar (readWord rs1 s).toNat := by
    rw [hrm, hrs, toNat_toWord_of_lt_value (Laws.toMont_lt .scalar _)]
  have hd : (readWord rd u).toNat = toMont .scalar ((readWord rs1 s).toNat ^ (N - 2)) := by
    rw [(hkept' rd (by simpa using hnm)).1, hrd, toNat_toWord_of_lt_value (Laws.toMont_lt .scalar _)]
  obtain ⟨v, w, hew, ⟨hrw, -, -, -, -⟩, hv⟩ := exec_smul_wrote (s := u) (rs1 := rm) (rs2 := rd) rd
    (hm ▸ Laws.toMont_lt .scalar _) (hd ▸ Laws.toMont_lt .scalar _)
  refine ⟨t, u, w, het, heu, hew, ?_⟩
  rw [hrw, hv, hm, hd, mm_toMont_pow_N_sub_two (Laws.ne_zero_iff_toNat.1 hnz) ha]

end Sys2Proof.Machine
end

section
/-! SINV on an in-range operand (spec/44_scalar_inversion.md R201): the value that `exec_sinv_wrote` gives, at 0
and at every other residue. -/

namespace Sys2Proof.Machine

open Config

/-- Settles O46: SINV writes the encoding of a^(N-2) (`exec_sinv_wrote`), which is 0 for a = 0 and, by Fermat,
the encoded inverse for any other a (`toMont_pow_sub_two`). -/
theorem sinvInvertsIntoTheMontgomeryDomain : Obligations.SinvInvertsIntoTheMontgomeryDomain := by
  intro s rd rs1 ha
  obtain ⟨t, he, hw⟩ := exec_sinv_wrote rd ha
  have hv : (toWord (toMont .scalar ((readWord rs1 s).toNat ^ (N - 2)))).toNat =
      toMont .scalar ((readWord rs1 s).toNat ^ (N - 2)) :=
    toNat_toWord_of_lt_value (Laws.toMont_lt .scalar _)
  rw [Laws.two_pow_384]
  refine ⟨rfl, _, t, he, hw, rfl, fun hz => ?_, fun hnz => ?_⟩
  · rw [Laws.eq_zero_iff_toNat] at hz ⊢
    rw [hv, hz, zero_pow (Nat.sub_ne_zero_of_lt Laws.two_lt_N), Laws.toMont_zero]
  · rw [hv]
    exact Laws.toMont_pow_sub_two .scalar (Laws.ne_zero_iff_toNat.1 hnz) ha

end Sys2Proof.Machine
end

section
/-! PSEL with its index check passed (spec/45_point_select.md R220): the coordinates that `pselCoord_eq` gives, at
the three words from RD on. -/

namespace Sys2Proof.Machine

/-- R220, R250: with no failing index check PSEL writes the selected point. -/
theorem exec_psel_writePoint {rd rs1 rs2 : WordIdx} {s : State} (hrs1 : rs1.val ≤ 16)
    (hrd : rd.val ≤ 61) (hi : s.pdbg = false ∨ (readWord rs2 s).toNat ≤ 16) :
    exec (.psel rd rs1 rs2) s = .next (writePoint rd (pselCoord rs1 rs2 0 s) (pselCoord rs1 rs2 1 s)
      (pselCoord rs1 rs2 2 s) (noteUninit (sources (.psel rd rs1 rs2)) s)) := by
  have hwf : (tableFits rs1 && resultFits rd) = true :=
    Bool.and_eq_true_iff.2 ⟨decide_eq_true hrs1, decide_eq_true hrd⟩
  simp only [exec, execPsel, hwf, if_true]
  rcases runPsel_cases rd rs1 rs2 s with ⟨hp, hx, -⟩ | ⟨-, h⟩
  · rcases hi with hi | hi
    · rw [hp] at hi; cases hi
    · exact absurd hi (of_decide_eq_false hx)
  · rw [h]

theorem wordAfter_zero (k : WordIdx) : wordAfter k 0 = k := Fin.ofNat_val_eq_self k

/-- R220: coordinate c of a written point is in the word c after its base, with all its flags set. -/
theorem writePoint_coord {rd : WordIdx} (hrd : rd.val ≤ 61) (p : Nat → Word) (s : State) {c : Nat}
    (hc : c < 3) :
    readWord (wordAfter rd c) (writePoint rd (p 0) (p 1) (p 2) s) = p c ∧
    ∀ j, limbWritten (wordAfter rd c) j (writePoint rd (p 0) (p 1) (p 2) s) = true := by
  obtain ⟨hx, hy, hz, hflags⟩ := readWord_writePoint hrd (p 0) (p 1) (p 2) s
  interval_cases c
  · rw [wordAfter_zero]
    exact ⟨hx, fun j => (hflags j).1⟩
  · exact ⟨hy, fun j => (hflags j).2.1⟩
  · exact ⟨hz, fun j => (hflags j).2.2⟩

/-- A word below or above the three from RD on is no destination of PSEL. -/
theorem not_mem_dests_psel {rd rs1 rs2 k : WordIdx} (hrd : rd.val ≤ 61)
    (hk : k.val < rd.val ∨ rd.val + 3 ≤ k.val) : k ∉ dests (.psel rd rs1 rs2) := by
  have h1 := wordAfter_val (k := rd) (n := 1) (by omega)
  have h2 := wordAfter_val (k := rd) (n := 2) (by omega)
  simp only [dests, List.mem_cons, List.not_mem_nil, or_false, Fin.ext_iff, h1, h2]
  omega

/-- Settles O48: with the index check passed PSEL writes a point (`exec_psel_writePoint`), whose coordinates are
those of entry i - 1 or 0 (`pselCoord_eq`); that write, and the note of unwritten sources before it, keep all else. -/
theorem pselSelectsTheEntry : Obligations.PselSelectsTheEntry := by
  intro s rd rs1 rs2 hrs1 hrd hi
  have he := exec_psel_writePoint hrs1 hrd hi
  have hw := wordsKept_trans
    (noteUninit_wordsKept (dests (.psel rd rs1 rs2)) (sources (.psel rd rs1 rs2)) s)
    (writePoint_wordsKept rd (pselCoord rs1 rs2 0 s) (pselCoord rs1 rs2 1 s) (pselCoord rs1 rs2 2 s) _)
  refine ⟨rfl, _, he, fun c hc => ?_, fun k hk => hw k (not_mem_dests_psel hrd hk),
    noteUninit_errorKept (sources (.psel rd rs1 rs2)) s, exec_controlKept he⟩
  obtain ⟨hval, hflags⟩ := writePoint_coord hrd (fun c => pselCoord rs1 rs2 c s)
    (noteUninit (sources (.psel rd rs1 rs2)) s) hc
  refine ⟨hval.trans ?_, hflags⟩
  rw [pselCoord_eq, wordAfter, Nat.add_assoc]

end Sys2Proof.Machine
end

section
/-! Error events, submission and completion (spec/60_exceptions.md R240, R241, R243, R244,
spec/70_reset_and_hazards.md R280). -/

namespace Sys2Proof.Machine

/-! ### The error event (R240, R241) -/

/-- Settles O21: `raiseError` is one update of ERR and ERRINFO, and ERR decides whether ERRINFO is taken. -/
theorem errorEventRecordsTheFirstCause : Obligations.ErrorEventRecordsTheFirstCause := by
  intro s c i
  have hinfo := raiseError_errInfo c i s
  refine ⟨rfl, fun he => ?_, fun he => ?_, wordsKept_of_eq [] rfl rfl,
    rfl, rfl, rfl, rfl, rfl, rfl, rfl, rfl, rfl⟩
  · rw [hinfo, he]; rfl
  · rw [hinfo, he]; rfl

/-! ### Submission (R244) -/

/-- A legal CMD write is a submission, idle or busy. -/
theorem step_writeCmd {s : State} {v : BitVec 64} {es : List Event}
    (he : s.events = .access (.write 0x018 8 v) :: es) :
    step s = .next (respond (.write false) (submit v { s with events := es })) :=
  step_writeRegister (by decide) (by decide) he

theorem submit_rejected {s : State} {v : BitVec 64} {e : DecodeError} (hb : s.busy = false)
    (hd : decode v = .error e) : submit v s = raiseError (decodeErrCode e) (cmdWord v) s := by
  simp only [submit, hb, hd, Bool.false_eq_true, if_false]

theorem submit_accepted {s : State} {v : BitVec 64} {i : Instr} (hb : s.busy = false)
    (hd : decode v = .ok i) : submit v s = accept (cmdWord v) s := by
  simp only [submit, hb, hd, Bool.false_eq_true, if_false]

/-- R242: the code of each of the decoder's four errors. -/
theorem decodeErrCode_of_mem {e : DecodeError} {c : ErrCode}
    (h : (e, c) ∈ [(DecodeError.illegalOp, ErrCode.illegalOp), (.reservedField, .reservedField),
      (.badImm, .badImm), (.range, .range)]) : decodeErrCode e = c := by
  simp only [List.mem_cons, Prod.mk.injEq, List.not_mem_nil, or_false] at h
  rcases h with ⟨rfl, rfl⟩ | ⟨rfl, rfl⟩ | ⟨rfl, rfl⟩ | ⟨rfl, rfl⟩ <;> rfl

/-- Settles O22: the step is the submission (`step_writeCmd`): BUSY first, then the decoder's error, then
acceptance. -/
theorem commandSubmission : Obligations.CommandSubmission := by
  intro s v es he
  rw [step_writeCmd he, Laws.setWidth_eq_cmdWord]
  refine ⟨fun hb => ?_, fun e c hc hb hd => ?_, fun i hb hd => ?_⟩
  · rw [submit_busy (s := { s with events := es }) hb]; rfl
  · rw [submit_rejected (s := { s with events := es }) hb hd, decodeErrCode_of_mem hc]; rfl
  · rw [submit_accepted (s := { s with events := es }) hb hd]; rfl

/-! ### Completion (R280) -/

/-- Settles O23: the slot runs the pending command (`completionSlot_busy`), and a run of the model goes on
exactly if that reaches no model fault. -/
theorem stepRunsTheAcceptedCommand : Obligations.StepRunsTheAcceptedCommand := by
  intro s i hb hev hd
  obtain ⟨t, ht, hslot⟩ := completionSlot_busy (s := { s with events := s.events.tail }) hb hd
  have hstep : step s = .next (finish t) := (step_slot hev).trans hslot
  exact ⟨t, ht, hstep, fun hu => (modelStep_of_defined hstep hu).trans (by rw [hstep]),
    fun u hu => modelStep_of_modelFault hstep hu,
    fun hu hw hdef =>
      (exec_undef_of_defined (s := { s with events := s.events.tail }) hw hdef ht).trans hu⟩

/-- R81, R84: the word of a well-formed command, zero-extended, decodes to it. -/
theorem decode_encode {i : Instr} (hwf : i.wf = true) : decode ((encode i).setWidth 64) = .ok i :=
  Laws.decode_eq_ok_iff.2 ⟨hwf, rfl⟩

/-- Placing a command's own word accepts it, with its completion as the next event (log entry 2). -/
theorem withFetchWord_encode {i : Instr} (hwf : i.wf = true) (s : State) :
    s.withFetchWord 32 (encode i).toNat =
      { accept (encode i) s with events := .complete :: s.events } := by
  have hmod : (encode i).toNat % 2 ^ 32 = (encode i).toNat := Nat.mod_eq_of_lt (encode i).isLt
  rw [State.withFetchWord, hmod, placeCommand, BitVec.ofNat_toNat, BitVec.ofNat_toNat, decode_encode hwf,
    BitVec.setWidth_eq]

/-- Settles O24: the placed state is busy with the command pending and a slot next, so the step is that
slot. -/
theorem placedCommandRunsNext : Obligations.PlacedCommandRunsNext := by
  intro s i hwf
  obtain ⟨t, ht, hslot⟩ := completionSlot_busy (s := accept (encode i) s) rfl (decode_encode hwf)
  rw [withFetchWord_encode hwf]
  exact ⟨t, ht, (step_slot (.inr rfl)).trans hslot⟩

end Sys2Proof.Machine
end

section
/-! A running command and the Host: an access that is no soft reset keeps the command and the operand words
(spec/60_exceptions.md R245, spec/70_reset_and_hazards.md R281). -/

namespace Sys2Proof.Machine

/-! ### Every step takes one event off the list -/

theorem writeTarget_events (v : BitVec 64) (s : State) (tg : Target) :
    (writeTarget v s tg).events = s.events := by
  cases tg with
  | ctrl => simp only [writeTarget, writeCtrl]; split <;> rfl
  | status => rw [writeTarget, writeStatus_eq]
  | cmd =>
    rw [writeTarget]
    rcases submit_cases v s with ⟨c, -, he⟩ | ⟨i, -, -, he⟩ <;> rw [he] <;> rfl
  | id | intEn | errInfo | reserved | limb | padding => rfl

theorem hostAccess_events {a : Access} {s t : State} (h : hostAccess a s = .next t) :
    t.events = s.events := by
  rcases hostAccess_effects h with ⟨r, c, info, -, rfl⟩ | ⟨r, tg, rfl⟩ | ⟨off, v, -, rfl⟩
  · rfl
  · rw [respond_events, noteUninitRead_eq]
  · exact writeTarget_events v s (target off)

theorem completionSlot_events {s t : State} (h : completionSlot s = .next t) :
    t.events = s.events := by
  rcases completionSlot_cases h with ⟨-, rfl⟩ | ⟨-, i, u, -, hu, rfl⟩
  · rfl
  · obtain ⟨-, -, -, -, -, -, -, hevents, -⟩ := exec_controlKept hu
    exact hevents

theorem step_events {s t : State} (h : step s = .next t) : t.events = s.events.tail := by
  rcases step_cases h with ⟨a, es, he, ha⟩ | ⟨-, hc⟩ | ⟨es, he, rfl⟩
  · rw [he]; exact hostAccess_events ha
  · exact completionSlot_events hc
  · rw [he, powerOnReset_events, List.tail_cons]

/-! ### What a Host access keeps while a command runs -/

/-- R245: the command of `s` still runs in `t`, on the same operand words, and DONE has not been set. -/
structure CommandKept (s t : State) : Prop where
  busy : t.busy = s.busy
  pend : t.pend = s.pend
  pdbg : t.pdbg = s.pdbg
  lastCmd : t.lastCmd = s.lastCmd
  words : t.words = s.words
  written : t.written = s.written
  done : s.done = false → t.done = false

theorem commandKept_raiseError (c : ErrCode) (info : BitVec 32) (s : State) :
    CommandKept s (raiseError c info s) := ⟨rfl, rfl, rfl, rfl, rfl, rfl, id⟩

theorem commandKept_respond {s t : State} (h : CommandKept s t) (r : BusResp) :
    CommandKept s (respond r t) := ⟨h.busy, h.pend, h.pdbg, h.lastCmd, h.words, h.written, h.done⟩

/-- R58: a read changes only ERR, ERRINFO, the response and the record of R252. -/
theorem commandKept_busRead (off size : Nat) (s : State) : CommandKept s (busRead off size s) := by
  rw [busRead_eq]
  exact ⟨rfl, rfl, rfl, rfl, rfl, rfl, id⟩

/-- A write of a register that is no soft reset: a submission is turned away with BUSY, and the other
registers are not the command's, but for the W1C of DONE. -/
theorem commandKept_writeTarget {s : State} {v : BitVec 64} {tg : Target} (hb : s.busy = true)
    (htg : tg.isOperand = false) (hv : tg = .ctrl → v.getLsbD 1 = false) :
    CommandKept s (writeTarget v s tg) := by
  cases tg with
  | ctrl =>
    simp only [writeTarget, writeCtrl, hv rfl, Bool.false_eq_true, if_false]
    exact ⟨rfl, rfl, rfl, rfl, rfl, rfl, id⟩
  | status =>
    rw [writeTarget, writeStatus_eq]
    exact ⟨rfl, rfl, rfl, rfl, rfl, rfl, fun hd => by rw [hd, Bool.false_and]⟩
  | cmd =>
    rw [writeTarget, submit_busy hb]
    exact commandKept_raiseError _ _ s
  | id | intEn | errInfo | reserved => exact ⟨rfl, rfl, rfl, rfl, rfl, rfl, id⟩
  | limb | padding => cases htg

/-- R59, R245: a read, an error event, or the write of a register. -/
theorem commandKept_hostAccess {a : Access} {s t : State} (h : hostAccess a s = .next t)
    (hb : s.busy = true) (hv : ∀ v : BitVec 64, a = .write 0x008 8 v → v.getLsbD 1 = false) :
    CommandKept s t := by
  rcases hostAccess_cases h with ⟨off, size, -, -, rfl⟩ | ⟨off, size, v, -, -, rfl⟩ |
    ⟨off, v, -, -, -, -, rfl⟩ | ⟨off, v, rfl, h8, hopen, rfl⟩
  · exact commandKept_busRead off size s
  · exact commandKept_respond (commandKept_raiseError _ _ s) _
  · exact commandKept_respond (commandKept_raiseError _ _ s) _
  · have hoff : off < 0x1000 := hopen.resolve_right (by rw [hb]; decide)
    have htg : (target off).isOperand = false := by
      rw [← Bool.not_eq_true, isOperand_iff h8]; omega
    refine commandKept_respond (commandKept_writeTarget hb htg fun hc => ?_) _
    obtain rfl := target_eq_ctrl.1 hc
    exact hv v rfl

/-- Settles O25: the step is the access, which keeps the command (`commandKept_hostAccess`). -/
theorem hostAccessesDoNotDisturbARunningCommand :
    Obligations.HostAccessesDoNotDisturbARunningCommand := by
  intro s t a es hb he hv h
  have hevents : t.events = es := by rw [step_events h, he, List.tail_cons]
  rw [step_access he] at h
  have hk := commandKept_hostAccess h hb hv
  exact ⟨hk.busy.trans hb, hk.pend, hk.pdbg, hk.lastCmd, hk.words, hk.written, hk.done, hevents⟩

end Sys2Proof.Machine
end

section
/-! The debug checks of R250 (spec/60_exceptions.md R242, R243, R250): the first failing one is reported and
nothing is written, and if all pass pdbg makes no difference. -/

namespace Sys2Proof.Machine

/-! ### A failing check -/

/-- With debug checks, a modular command answers its first out-of-range source. -/
theorem exec_modular_checked {i : Instr} {m : Modulus} {s : State} {k : WordIdx} (hwf : i.wf = true)
    (hm : operandModulus i = some m) (hp : s.pdbg = true)
    (hf : firstOutOfRange m (sources i) s = some k) :
    exec i s = .next (invariantError k (noteUninit (sources i) s)) := by
  obtain ⟨rd, -, he⟩ := exec_modular s hwf hm
  rw [he, runModular_checked hp hf]

/-- With debug checks, PSEL answers an index above 16. -/
theorem exec_psel_checked {rd rs1 rs2 : WordIdx} {s : State} (hwf : (Instr.psel rd rs1 rs2).wf = true)
    (hp : s.pdbg = true) (hi : 16 < (readWord rs2 s).toNat) :
    exec (.psel rd rs1 rs2) s =
      .next (invariantError rs2 (noteUninit (sources (.psel rd rs1 rs2)) s)) := by
  have hfit : (tableFits rs1 && resultFits rd) = true := hwf
  have hindex : indexOk rs2 s = false := decide_eq_false (by omega)
  simp only [exec, execPsel, hfit, if_true, runPsel, hp, hindex, Bool.not_false, Bool.and_self]

/-- What a command that answers a failed check has done (R241, R250). -/
theorem invariantError_report {i : Instr} {s : State} {k : WordIdx}
    (h : exec i s = .next (invariantError k (noteUninit (sources i) s))) :
    ∃ t, exec i s = .next t ∧ WordsKept [] s t ∧ ControlKept s t ∧ t.err = true ∧
      t.errInfo = (if s.err then s.errInfo else ⟨.invariant, BitVec.ofNat 32 k.val⟩) :=
  ⟨_, h, invariantError_wordsKept [] (sources i) k s, exec_controlKept h,
    invariantError_errInfo (sources i) k s⟩

/-- Settles O52: the failing word is the first out of range (`firstOutOfRange_of_first`), or PSEL's index. -/
theorem debugChecksReportTheFirstFailingSource :
    Obligations.DebugChecksReportTheFirstFailingSource := by
  refine ⟨fun i m s pre post k hwf hm hp hs hpre hk => ?_, fun rd rs1 rs2 s hwf hp hi => ?_⟩
  · have hf : firstOutOfRange m (sources i) s = some k := by
      rw [hs]; exact firstOutOfRange_of_first hpre hk
    exact invariantError_report (exec_modular_checked hwf hm hp hf)
  · exact invariantError_report (exec_psel_checked hwf hp hi)

/-! ### All checks pass -/

/-- The validity record does not look at pdbg. -/
theorem noteUninit_withPdbg (srcs : List WordIdx) (s : State) (b : Bool) :
    noteUninit srcs { s with pdbg := b } = { noteUninit srcs s with pdbg := b } := by
  simp only [noteUninit, wordWritten]
  split <;> rfl

/-- With every operand precondition met, a modular command writes the same value for either pdbg. -/
theorem exec_modular_withPdbg {i : Instr} {m : Modulus} {s : State} (hwf : i.wf = true)
    (hm : operandModulus i = some m) (hin : ∀ k ∈ sources i, (readWord k s).toNat < m.value) :
    ∃ rd, ∀ b, exec i { s with pdbg := b } =
      .next { writeWord rd (resultWord i s) (noteUninit (sources i) s) with pdbg := b } := by
  obtain ⟨rd, hd, -⟩ := exec_modular s hwf hm
  refine ⟨rd, fun b => ?_⟩
  have hvalue : resultWord i { s with pdbg := b } = resultWord i s := resultWord_congr fun _ _ => rfl
  rw [exec_inRange (s := { s with pdbg := b }) hwf hm hd hin, noteUninit_withPdbg, hvalue]
  rfl

/-- With its index at most 16, PSEL writes the same point for either pdbg. -/
theorem exec_psel_withPdbg {rd rs1 rs2 : WordIdx} {s : State}
    (hwf : (Instr.psel rd rs1 rs2).wf = true) (hi : (readWord rs2 s).toNat ≤ 16) (b : Bool) :
    exec (.psel rd rs1 rs2) { s with pdbg := b } =
      .next { writePoint rd (pselCoord rs1 rs2 0 s) (pselCoord rs1 rs2 1 s) (pselCoord rs1 rs2 2 s)
        (noteUninit (sources (.psel rd rs1 rs2)) s) with pdbg := b } := by
  obtain ⟨hrs1, hrd⟩ := Bool.and_eq_true_iff.1 hwf
  rw [exec_psel_writePoint (s := { s with pdbg := b }) (of_decide_eq_true hrs1)
    (of_decide_eq_true hrd) (.inr hi), noteUninit_withPdbg]
  rfl

/-- R250: with every operand precondition met, a command has one outcome up to pdbg, and no error. -/
theorem exec_withPdbg_of_operandsOk {i : Instr} {s : State} (hwf : i.wf = true)
    (hok : OperandsOk i s) :
    ∃ u, (∀ b, exec i { s with pdbg := b } = .next { u with pdbg := b }) ∧ ErrorKept s u := by
  cases hm : operandModulus i with
  | some m =>
    have hin : ∀ k ∈ sources i, (readWord k s).toNat < m.value := by
      simpa only [OperandsOk, hm] using hok
    obtain ⟨rd, he⟩ := exec_modular_withPdbg hwf hm hin
    exact ⟨_, he, noteUninit_errorKept (sources i) s⟩
  | none =>
    cases i with
    | psel rd rs1 rs2 => exact ⟨_, exec_psel_withPdbg hwf (hok rs2 rfl), noteUninit_errorKept _ s⟩
    | _ => cases hm

/-- Settles O53: the one outcome up to pdbg (`exec_withPdbg_of_operandsOk`), taken at both values. -/
theorem passingDebugChecksChangeNothing : Obligations.PassingDebugChecksChangeNothing := by
  intro i s hwf hok
  obtain ⟨u, he, herror⟩ := exec_withPdbg_of_operandsOk hwf hok
  exact ⟨{ u with pdbg := false }, he false, he true, herror⟩

end Sys2Proof.Machine
end

section
/-! Whole runs (spec/70_reset_and_hazards.md R283, R285, spec/60_exceptions.md R252): inside the window every
step answers a next state and takes an event, and a step with none left leaves the Core idle. -/

namespace Sys2Proof.Machine

/-! ### One step -/

/-- R280: a slot completes whatever the invariant lets be pending. -/
theorem completionSlot_next {s : State} (hi : Inv s) : ∃ t, completionSlot s = .next t := by
  cases hb : s.busy with
  | false => exact ⟨s, completionSlot_idle hb⟩
  | true =>
    have hlegal : isCommand s.pend = true := hi.busy_legal hb
    cases hd : decode (s.pend.setWidth 64) with
    | error e => simp only [isCommand, hd, Bool.false_eq_true] at hlegal
    | ok i =>
      obtain ⟨t, -, ht⟩ := completionSlot_busy hb hd
      exact ⟨finish t, ht⟩

theorem step_next {s : State} (hi : Inv s) (hw : EventsInWindow s) : ∃ t, step s = .next t := by
  have hslot : ∃ t, completionSlot { s with events := s.events.tail } = .next t :=
    completionSlot_next (inv_congr hi rfl rfl rfl rfl ⟨rfl, rfl⟩)
  cases he : s.events with
  | nil => rw [step_slot (.inl he)]; exact hslot
  | cons e es =>
    cases e with
    | access a =>
      rw [step_access he]
      exact hostAccess_next (hw a (by rw [he]; exact List.mem_cons_self)) _
    | complete => rw [step_slot (.inr (by rw [he]; rfl))]; exact hslot
    | powerOn => exact ⟨_, step_powerOn he⟩

theorem eventsInWindow_step {s t : State} (h : step s = .next t) (hw : EventsInWindow s) :
    EventsInWindow t := fun a ha => hw a (List.mem_of_mem_tail (step_events h ▸ ha))

/-- R283: with no event left, a step leaves the Core idle. -/
theorem runOver_of_step {s t : State} (he : s.events = []) (h : step s = .next t) : RunOver t := by
  refine ⟨by rw [step_events h, he, List.tail_nil], ?_⟩
  rw [step_slot (.inl he)] at h
  rcases completionSlot_cases h with ⟨hb, rfl⟩ | ⟨-, i, u, -, -, rfl⟩
  · exact hb
  · rfl

/-! ### Runs of the machine and runs of the model -/

theorem run_succ_of_step {M : Host.Core} {s u : M.State} (h : M.step s = .next u) (n : Nat) :
    M.run (n + 1) s = M.run n u := by
  simp only [Host.Core.run, h]

/-- A run that answers a next state began with a step that did. -/
theorem step_of_run_succ {M : Host.Core} {s t : M.State} {n : Nat} (h : M.run (n + 1) s = .next t) :
    ∃ u, M.step s = .next u ∧ M.run n u = .next t := by
  cases hs : M.step s with
  | next u => exact ⟨u, rfl, by rw [run_succ_of_step hs] at h; exact h⟩
  | fault f => simp only [Host.Core.run, hs] at h; cases h
  | refused r => simp only [Host.Core.run, hs] at h; cases h

theorem modelRun_succ {s u : State} (h : step s = .next u) (n : Nat) :
    modelRun (n + 1) s =
      match u.undef with
      | none => modelRun n u
      | some f => .error f := by
  rw [modelRun, modelStep_of_step h]
  cases u.undef <;> rfl

/-- R283, R285: one step per event, and one for a command still running. -/
theorem run_over {s : State} (hi : Inv s) (hw : EventsInWindow s) :
    ∃ t, Host.Core.run core (s.events.length + 1) s = .next t ∧ RunOver t := by
  induction hn : s.events.length generalizing s with
  | zero =>
    obtain ⟨t, ht⟩ := step_next hi hw
    exact ⟨t, run_succ_of_step (M := core) ht 0, runOver_of_step (List.length_eq_zero_iff.1 hn) ht⟩
  | succ n ih =>
    obtain ⟨u, hu⟩ := step_next hi hw
    have hlen : u.events.length = n := by rw [step_events hu, List.length_tail, hn, Nat.add_sub_cancel]
    rw [run_succ_of_step (M := core) hu]
    exact ih (inv_step hu hi) (eventsInWindow_step hu hw) hlen

/-- R252: where the machine runs on, a run of the model of at least one step goes the same way and reaches no
model fault, or it stops at one. -/
theorem modelRun_of_run {n : Nat} {s t : State} (h : Host.Core.run core (n + 1) s = .next t) :
    (modelRun (n + 1) s = .ok (.next t) ∧ t.undef = none) ∨ ∃ u, modelRun (n + 1) s = .error u := by
  induction n generalizing s with
  | zero =>
    obtain ⟨u, hu, hrun⟩ := step_of_run_succ (M := core) h
    obtain rfl : u = t := Host.Outcome.next.inj hrun
    rw [modelRun_succ hu]
    cases hf : u.undef with
    | none => exact .inl ⟨rfl, rfl⟩
    | some f => exact .inr ⟨f, rfl⟩
  | succ n ih =>
    obtain ⟨u, hu, hrun⟩ := step_of_run_succ (M := core) h
    rw [modelRun_succ hu]
    cases hf : u.undef with
    | none => exact ih hrun
    | some f => exact .inr ⟨f, rfl⟩

/-- Settles O60: the run is over in that time (`run_over`), and the model's run follows it or stops at a model
fault (`modelRun_of_run`). -/
theorem everyRunEnds : Obligations.EveryRunEnds := by
  intro s hi hw
  obtain ⟨t, hrun, hover⟩ := run_over hi hw
  exact ⟨⟨t, hrun, hover, fun hu => ⟨hover, hu⟩⟩,
    (modelRun_of_run hrun).imp_left fun ⟨hm, hu⟩ => ⟨t, hm, hover, hu⟩⟩

end Sys2Proof.Machine
end

section
/-! Reset (spec/70_reset_and_hazards.md R271 to R273): the state at power-on, a power-on reset in mid-run and a
soft reset each leave every register 0; and what a CTRL write without a soft reset does. -/

namespace Sys2Proof.Machine

/-! ### Every register is 0 -/

/-- R271, R273: what a reset leaves in the registers of R28 to R34. -/
structure RegistersZero (s : State) : Prop where
  ctrlDbg : s.ctrlDbg = false
  busy : s.busy = false
  done : s.done = false
  err : s.err = false
  lastCmd : s.lastCmd = 0#32
  intEn : s.intEn = ⟨false, false⟩
  errInfo : s.errInfo = ⟨.none, 0#32⟩
  pend : s.pend = 0#32
  pdbg : s.pdbg = false

theorem registersZero_reset : RegistersZero State.reset := ⟨rfl, rfl, rfl, rfl, rfl, rfl, rfl, rfl, rfl⟩

theorem registersZero_powerOnReset (s : State) : RegistersZero (powerOnReset s) :=
  ⟨rfl, rfl, rfl, rfl, rfl, rfl, rfl, rfl, rfl⟩

theorem registersZero_softReset (s : State) : RegistersZero (softReset s) :=
  ⟨rfl, rfl, rfl, rfl, rfl, rfl, rfl, rfl, rfl⟩

theorem registersZero_respond {s : State} (h : RegistersZero s) (r : BusResp) :
    RegistersZero (respond r s) :=
  ⟨h.ctrlDbg, h.busy, h.done, h.err, h.lastCmd, h.intEn, h.errInfo, h.pend, h.pdbg⟩

/-- R271: zero registers meet the invariant of every run. -/
theorem inv_of_registersZero {s : State} (h : RegistersZero s) : Inv s :=
  inv_of_zero h.pend h.lastCmd h.busy h.done h.err h.errInfo

/-- R247, R271: with DONE and ERR 0 there is no interrupt. -/
theorem irq_of_registersZero {s : State} (h : RegistersZero s) : irq s = false := by
  simp only [irq, h.done, h.err, Bool.false_and, Bool.or_false]

/-- R271: every register offset but ID reads 0. -/
theorem targetValue_of_registersZero {s : State} (h : RegistersZero s) {tg : Target}
    (htg : tg.isOperand = false) (hid : tg ≠ .id) : targetValue s tg = 0#64 := by
  cases tg with
  | id => exact absurd rfl hid
  | ctrl => rw [targetValue, ctrlReg, h.ctrlDbg]; rfl
  | status => rw [targetValue, statusReg, h.busy, h.done, h.err]; rfl
  | cmd => rw [targetValue, cmdReg, h.lastCmd]; rfl
  | intEn => rw [targetValue, intEnReg, h.intEn]; rfl
  | errInfo => rw [targetValue, errInfoReg, h.errInfo]; rfl
  | reserved => rfl
  | limb | padding => cases htg

/-! ### What the Host reads (R51, R52, R59) -/

/-- BUSY locks no register out. -/
theorem peek_register {off : Nat} (h : (target off).isOperand = false) (s : State) :
    peek off s = targetValue s (target off) := by
  simp only [peek, h, Bool.and_false, Bool.false_eq_true, if_false]

theorem peek_of_registersZero {s : State} (h : RegistersZero s) {off : Nat}
    (hreg : (target off).isOperand = false) (hid : target off ≠ .id) : peek off s = 0#64 :=
  (peek_register hreg s).trans (targetValue_of_registersZero h hreg hid)

/-- R52: limbs 6 and 7 read 0 in every state, locked out or not. -/
theorem peek_padding (k : WordIdx) {j : Nat} (h6 : 6 ≤ j) (h8 : j < 8) (s : State) :
    peek (0x1000 + 0x40 * k.val + 8 * j) s = 0#64 := by
  rw [peek, target_padding k h6 h8, targetValue, ite_self]

/-! ### The flags of R24 -/

theorem limbWritten_of_clear {s : State}
    (h : s.written = Vector.replicate 64 (Vector.replicate 6 false)) (k : WordIdx) (j : LimbIdx) :
    limbWritten k j s = false := by
  simp only [limbWritten, h, Vector.getElem_replicate]

/-! ### Power-on reset -/

/-- Settles O58: the registers of the reset state are 0 (`registersZero_reset`). -/
theorem resetMeetsTheInvariant : Obligations.ResetMeetsTheInvariant :=
  inv_of_registersZero registersZero_reset

/-- Settles O2: the registers are 0 (`registersZero_reset`), which fixes irq and what five of the six offsets
read; the flags are clear, and padding reads 0 in every state (`peek_padding`). -/
theorem resetStateIsAsTheTableSays : Obligations.ResetStateIsAsTheTableSays := by
  have hz : RegistersZero State.reset := registersZero_reset
  have hpad (k : WordIdx) :
      peek (0x1030 + 0x40 * k.val) State.reset = 0#64 ∧
      peek (0x1038 + 0x40 * k.val) State.reset = 0#64 := by
    rw [show 0x1030 + 0x40 * k.val = 0x1000 + 0x40 * k.val + 8 * 6 by omega,
      show 0x1038 + 0x40 * k.val = 0x1000 + 0x40 * k.val + 8 * 7 by omega]
    exact ⟨peek_padding k (by decide) (by decide) _, peek_padding k (by decide) (by decide) _⟩
  have hreg {off : Nat} (h : (target off).isOperand = false) (hid : target off ≠ .id) :
      peek off State.reset = 0#64 := peek_of_registersZero hz h hid
  exact ⟨hz.ctrlDbg, hz.busy, hz.done, hz.err, hz.lastCmd, hz.intEn, hz.errInfo, hz.pend, hz.pdbg,
    limbWritten_of_clear rfl, peek_register (off := 0x000) rfl State.reset,
    hreg rfl (by decide), hreg rfl (by decide), hreg rfl (by decide), hreg rfl (by decide),
    hreg rfl (by decide), hpad, irq_of_registersZero hz⟩

/-- Settles O3: the step is `powerOnReset`, busy or not (`step_powerOn`). -/
theorem powerOnResetClearsEverything : Obligations.PowerOnResetClearsEverything := by
  intro s es he
  have hz := registersZero_powerOnReset { s with events := es }
  exact ⟨_, step_powerOn he, hz.ctrlDbg, hz.busy, hz.done, hz.err, hz.lastCmd, hz.intEn, hz.errInfo,
    hz.pend, hz.pdbg, limbWritten_of_clear (powerOnReset_written _), irq_of_registersZero hz,
    powerOnReset_events _⟩

/-! ### A CTRL write (R30, R273) -/

theorem writeCtrl_reset {v : BitVec 64} (hv : v.getLsbD 1 = true) (s : State) :
    writeCtrl v s = softReset s := by
  rw [writeCtrl, if_pos hv]

theorem writeCtrl_debug {v : BitVec 64} (hv : v.getLsbD 1 = false) (s : State) :
    writeCtrl v s = { s with ctrlDbg := v.getLsbD 0 } := by
  simp only [writeCtrl, hv, Bool.false_eq_true, if_false]

/-- A legal CTRL write takes effect in its step, idle or busy. -/
theorem step_writeCtrl {s : State} {v : BitVec 64} {es : List Event}
    (he : s.events = .access (.write 0x008 8 v) :: es) :
    step s = .next (respond (.write false) (writeCtrl v { s with events := es })) :=
  step_writeRegister (by decide) (by decide) he

/-- Settles O4: the step is the write of CTRL, and v[1] decides between its two updates
(`writeCtrl_reset`, `writeCtrl_debug`). -/
theorem ctrlWriteSetsDebugOrResets : Obligations.CtrlWriteSetsDebugOrResets := by
  intro s v es he
  have hstep := step_writeCtrl he
  cases hv : v.getLsbD 1 with
  | true =>
    rw [writeCtrl_reset hv] at hstep
    have hz := registersZero_respond (registersZero_softReset { s with events := es }) (.write false)
    exact ⟨_, hstep, rfl, rfl, wordsKept_of_eq [] rfl rfl,
      fun _ => ⟨hz.busy, hz.pend, hz.pdbg, hz.ctrlDbg, hz.done, hz.err, hz.lastCmd, hz.intEn, hz.errInfo⟩,
      nofun⟩
  | false =>
    rw [writeCtrl_debug hv] at hstep
    exact ⟨_, hstep, rfl, rfl, wordsKept_of_eq [] rfl rfl, nofun,
      fun _ => ⟨rfl, rfl, rfl, rfl, rfl, rfl, rfl, rfl, rfl⟩⟩

end Sys2Proof.Machine
end
